-- ==== Sys2Proof/Word.lean ====
section
/-! DEFINITION. The word types of the DES Feistel cipher engine (spec/00_scope.md R6, R10, R13; spec/30_encoding.md R70).
A buffer value is bits (positions 0..63); counts and bounds inside a rule are natural numbers (R15). -/

namespace Sys2Proof

/-- One byte of a stream; bit 7 is its most significant bit (20_memory.md R53). -/
abbrev Byte := BitVec 8

/-- The value of a buffer register: `CAP = 64` positions, position `i` is bit `i` (00_scope.md R10, 10_state.md R20). -/
abbrev Buf := BitVec 64

/-- A command word, 32 bits, bit 31 the most significant (30_encoding.md R70). -/
abbrev CmdWord := BitVec 32

/-- One random draw: an 8-byte string, first byte first (20_memory.md R58). -/
abbrev Draw := Vector Byte 8

/-- A register number 0..7 (10_state.md R20; 30_encoding.md R72: every encodable value is legal). -/
abbrev Reg := Fin 8

end Sys2Proof
end

