-- ==== Sys2Proof/Config.lean ====
section
/-! DEFINITION. The build constants of the engine (spec/00_scope.md R6, R7) and the type of its table ROMs
(spec/10_state.md R30). A build is a parameter of the machine (`Build`); the constants are this hardware's values. No value is
left open: R40 says "No value is unspecified", so the model has no free value. The contents of the ROMs stand in
Sys2Proof/Machine/Tables.lean. -/

namespace Sys2Proof

/-- `BITORDER`: which bit of a byte is the first position (20_memory.md R53). -/
inductive BitOrder where
  | msbFirst
  | lsbFirst
deriving DecidableEq, Repr

/-- `NROUNDS = 16` (00_scope.md R6). -/
abbrev Config.nRounds : Nat := 16

/-- `BLOCKBITS = 64` (00_scope.md R6). -/
abbrev Config.blockBits : Nat := 64

/-- `KEYBYTES = 8` (00_scope.md R6). -/
abbrev Config.keyBytes : Nat := 8

/-- `CAP = 64`, the positions of a buffer register (00_scope.md R6, 10_state.md R22). -/
abbrev Config.cap : Nat := 64

/-- `BITORDER = MSB_FIRST` for this hardware (00_scope.md R6, 92_eei_decisions.md D2). -/
abbrev Config.bitOrder : BitOrder := .msbFirst

/-- The six permutation tables a command can name (41_permutation.md R131; field `t`, 30_encoding.md R72). -/
inductive PermTable where
  | ip
  | fp
  | pc1
  | pc2
  | e
  | p
deriving DecidableEq, Repr

/-- The read-only table ROMs: six permutation tables, the eight S-boxes (box, row `y`, column `x`) and the rotation
schedule (10_state.md R30). The cipher functions take them as a parameter (10_state.md R31). -/
structure Tables where
  ip : List Nat
  fp : List Nat
  pc1 : List Nat
  pc2 : List Nat
  e : List Nat
  p : List Nat
  sbox : List (List (List Nat))
  shift : List Nat
deriving DecidableEq, Repr

/-- A build of the engine: the parameters it takes as arguments (00_scope.md R6 and R7, 10_state.md R30 and R31;
93_implementation_defined.md U20). The round count and the block size are integers, since a build may have got them wrong
(70_reset_and_hazards.md R221). This hardware is `Build.des` (Sys2Proof/Machine/Build.lean). -/
structure Build where
  /-- `NROUNDS`. -/
  nRounds : Int
  /-- `BLOCKBITS`. -/
  blockBits : Int
  /-- `BITORDER`. -/
  bitOrder : BitOrder
  /-- `IP FP PC1 PC2 E P`, `S1..S8` and `SHIFT`. -/
  tables : Tables
deriving DecidableEq, Repr

end Sys2Proof
end

