-- ==== Sys2Proof/Machine/Build.lean ====
section
/-! DEFINITION. This hardware as a build, and the quantities spec/00_scope.md R6 derives from a build's parameters. -/

namespace Sys2Proof

/-- The build that this hardware is: DES (00_scope.md R1, R6). -/
def Build.des : Build :=
  { nRounds := Config.nRounds
    blockBits := Config.blockBits
    bitOrder := Config.bitOrder
    tables := Machine.Rom.des }

/-- `BLOCKBYTES = BLOCKBITS/8` (00_scope.md R6). -/
def Build.blockBytes (B : Build) : Nat := (B.blockBits / 8).toNat

/-- `HALFBITS = BLOCKBITS/2` (00_scope.md R6). -/
def Build.halfBits (B : Build) : Nat := (B.blockBits / 2).toNat

/-- The round count as the sequencer counts it; a build with none or fewer never runs a command (00_scope.md R7). -/
def Build.rounds (B : Build) : Nat := B.nRounds.toNat

/-- The condition of the construction check (70_reset_and_hazards.md R221). -/
def Build.bad (B : Build) : Bool := B.nRounds ≤ 0 || B.blockBits ≤ 0

/-- A build that passes the construction check (70_reset_and_hazards.md R221) and whose block is at least a byte and fits a
buffer register of `CAP` positions (10_state.md R22). -/
def Build.Fits (B : Build) : Prop := 0 < B.nRounds ∧ 8 ≤ B.blockBits ∧ B.blockBits ≤ 64

end Sys2Proof
end

