-- ==== Sys2Proof/Machine/State.lean ====
section
/-! DEFINITION. The state of the engine (spec/10_state.md R20 to R40), as plain data, and the state after reset.
Beside the spec's own state it holds what the environment gives the engine (the words, strap, reset request and write
failure the host chooses, 10_state.md R29, R31; notes/assumptions/1.md, 3.md, 4.md, 5.md) and the word of the command
in progress, which spec/60_exceptions.md R203 implies (notes/assumptions/6.md). There is no memory and no program
counter (10_state.md R27, 20_memory.md R50). -/

namespace Sys2Proof.Machine

/-- A buffer register `B[i]`: `open` and `v` (10_state.md R20). -/
structure BufReg where
  isOpen : Bool
  v : Buf
deriving DecidableEq, Repr

/-- A register that holds no buffer, its storage scrubbed (10_state.md R23). -/
def BufReg.closed : BufReg := { isOpen := false, v := 0 }

/-- The key register `KEY` (10_state.md R25). -/
structure KeyReg where
  isOpen : Bool
  len : BitVec 4
  v : Buf
deriving DecidableEq, Repr

/-- No key loaded (10_state.md R25). -/
def KeyReg.closed : KeyReg := { isOpen := false, len := 0, v := 0 }

/-- `STATUS`: bit 0 `BUSY`, bit 1 `HALT` (10_state.md R26). -/
structure Status where
  busy : Bool
  halt : Bool
deriving DecidableEq, Repr

/-- The fault codes of 60_exceptions.md R201. -/
inductive FaultCode where
  | arg
  | io
  | constraint
  | illegal
  | cap
  | format
deriving DecidableEq, Repr

/-- The value `FCODE` records (60_exceptions.md R201). -/
def FaultCode.code : FaultCode → BitVec 3
  | .arg => 1#3
  | .io => 2#3
  | .constraint => 3#3
  | .illegal => 4#3
  | .cap => 5#3
  | .format => 6#3

/-- The working registers of the round sequencer (10_state.md R28). -/
structure RoundRegs where
  wl : BitVec 32
  wr : BitVec 32
  wks : BitVec 64
  wrk : BitVec 48
  wt : BitVec 48
  rnd : BitVec 5
deriving DecidableEq, Repr

/-- The round registers scrubbed (10_state.md R28). -/
def RoundRegs.zero : RoundRegs := { wl := 0, wr := 0, wks := 0, wrk := 0, wt := 0, rnd := 0 }

/-- The stream state `SST` (45_cbc_stream.md R173). -/
inductive Sst where
  | idle
  | eiv
  | eblk
  | div
  | dfirst
  | dblk
deriving DecidableEq, Repr

/-- The working registers of the chaining state machine (10_state.md R28). -/
structure StreamRegs where
  chain : Buf
  cur : Buf
  curn : BitVec 4
  nxt : Buf
  nxtn : BitVec 4
  sst : Sst
deriving DecidableEq, Repr

/-- The stream registers scrubbed, `SST = S_IDLE` (10_state.md R28). -/
def StreamRegs.zero : StreamRegs := { chain := 0, cur := 0, curn := 0, nxt := 0, nxtn := 0, sst := .idle }

/-- An item of the input stream `IN` (10_state.md R29). -/
inductive InItem where
  | byte (b : Byte)
  | eos
  | err
deriving DecidableEq, Repr

/-- Why the model would stop with a fault: never. It has no constructor, because every fault of the spec is a NEXT state
with `HALT = 1` (60_exceptions.md R203) and a missing item is a stall, not an error (R207). Nothing raises it; safe. -/
inductive Fault where
deriving DecidableEq, Repr

/-- Why the model would refuse an instruction. -/
inductive Refusal where
  /-- The instruction has no meaning yet, rejected by name in `exec`'s arm; safe. No arm raises it: every command of
  spec/opcode_table.json has its meaning. -/
  | notModelled (mnemonic : String)
deriving DecidableEq, Repr

/-- The state of the machine (10_state.md R20 to R31). -/
structure State where
  /-- `B0 .. B7` (R20). -/
  bufs : Vector BufReg 8
  /-- `KEY` (R25). -/
  key : KeyReg
  /-- `RES` (R26). -/
  res : BitVec 7
  /-- `STATUS` (R26). -/
  status : Status
  /-- `FCODE` (R26). -/
  fcode : BitVec 3
  /-- `FCMD` (R26). -/
  fcmd : CmdWord
  /-- `WL WR WKS WRK WT RND` (R28). -/
  round : RoundRegs
  /-- `CHAIN CUR CURN NXT NXTN SST` (R28). -/
  stream : StreamRegs
  /-- `TEST`: the `TESTEN` strap as sampled at reset (R29, 60_exceptions.md R206). -/
  test : Bool
  /-- The `IN` queue, next item first (R29). -/
  inq : List InItem
  /-- The `OUT` sequence since reset, first byte first (R29). -/
  out : List Byte
  /-- The `RNG` queue, next draw first (R29). -/
  rng : List Draw
  /-- `NWRITES`: the non-empty output writes since reset (R29, 20_memory.md R57). -/
  nwrites : Nat
  /-- The `CMD` port: the words the host has yet to present, in order (R29; notes/assumptions/1.md). -/
  cmd : List CmdWord
  /-- The command word in progress; zero when none is (60_exceptions.md R203; notes/assumptions/6.md). -/
  cip : CmdWord
  /-- `OUTFAIL`: the write the host fails, if any (R31, 20_memory.md R57; notes/assumptions/4.md). -/
  outFail : Option Nat
  /-- The `TESTEN` strap (R29; notes/assumptions/3.md). -/
  testen : Bool
  /-- The `RESET` request (R29; notes/assumptions/5.md). -/
  resetPin : Bool
deriving DecidableEq, Repr

/-- The state reset leaves (10_state.md R40, 70_reset_and_hazards.md R220) in the build `B`, halted when its construction
check fails (R221), under the given strap, write failure and words still to be presented. -/
def State.resetWith (B : Build) (testen : Bool) (outFail : Option Nat) (cmd : List CmdWord) : State :=
  { bufs := Vector.replicate 8 BufReg.closed
    key := KeyReg.closed
    res := 0
    status := { busy := false, halt := B.bad }
    fcode := if B.bad then FaultCode.constraint.code else 0
    fcmd := 0
    round := RoundRegs.zero
    stream := StreamRegs.zero
    test := testen
    inq := []
    out := []
    rng := []
    nwrites := 0
    cmd := cmd
    cip := 0
    outFail := outFail
    testen := testen
    resetPin := false }

/-- The machine right after reset (10_state.md R40), with the strap at 0, no write to fail and no word presented yet
(notes/assumptions/1.md, 3.md, 4.md). -/
def State.reset : State := State.resetWith Build.des false none []

end Sys2Proof.Machine
end

