-- ==== Sys2Proof/Machine/Operands.lean ====
section
/-! DEFINITION. The values a command computes from its operands: the bit-buffer functions of spec/40_bit_buffer.md, position
by position as its rules write them, and the conversions between byte strings and buffer values (spec/20_memory.md R53,
R54). Indices are natural numbers (spec/00_scope.md R15). -/

namespace Sys2Proof.Machine

/-- The number `Σ f i · 2^i` over `i < n` (00_scope.md R10). -/
def bitsNat : Nat → (Nat → Bool) → Nat
  | 0, _ => 0
  | n + 1, f => bitsNat n f + (f n).toNat * 2 ^ n

/-- The value of width `w` whose position `i` is `f i` (00_scope.md R10). -/
def ofBits (w : Nat) (f : Nat → Bool) : BitVec w := BitVec.ofNat w (bitsNat w f)

/-- `Sub(v, lo, hi)`: position `i` is `v[lo+i]` for `i < hi - lo`, else 0 (00_scope.md R11). -/
def subRange (v : Buf) (lo hi : Nat) : Buf := ofBits 64 fun i => decide (i < hi - lo) && v.getLsbD (lo + i)

/-- `v` with position `p` set to `b` (40_bit_buffer.md R107). -/
def setBit (v : Buf) (p : Nat) (b : Bool) : Buf := ofBits 64 fun i => if i = p then b else v.getLsbD i

/-- `v` with position `p` complemented (40_bit_buffer.md R108). -/
def flipBit (v : Buf) (p : Nat) : Buf := ofBits 64 fun i => if i = p then !v.getLsbD i else v.getLsbD i

/-- `v` with every position of `[lo..hi)` set to `b` (40_bit_buffer.md R110). -/
def setRange (v : Buf) (lo hi : Nat) (b : Bool) : Buf :=
  ofBits 64 fun i => if lo ≤ i ∧ i < hi then b else v.getLsbD i

/-- `v` with every position of `[lo..hi)` complemented (40_bit_buffer.md R111). -/
def flipRange (v : Buf) (lo hi : Nat) : Buf :=
  ofBits 64 fun i => if lo ≤ i ∧ i < hi then !v.getLsbD i else v.getLsbD i

/-- `d` with its positions `[pos..pos+n)` replaced by positions `sfrom, sfrom+1, ..` of `s`; positions of `s` at or above 64
read 0 (40_bit_buffer.md R117). -/
def overwrite (d s : Buf) (pos sfrom n : Nat) : Buf :=
  ofBits 64 fun i => if pos ≤ i ∧ i < pos + n then s.getLsbD (sfrom + (i - pos)) else d.getLsbD i

/-- The first `ring` positions of `v` rotated toward position 0: `new[i] = old[(i + n) mod ring]` (40_bit_buffer.md R118). -/
def rotLeft (v : Buf) (n ring : Nat) : Buf :=
  ofBits 64 fun i => if i < ring then v.getLsbD ((i + n) % ring) else v.getLsbD i

/-- The first `ring` positions of `v` rotated away from position 0: `new[i] = old[(i - n) mod ring]` (40_bit_buffer.md R119),
the remainder being the non-negative one of 00_scope.md R15. -/
def rotRight (v : Buf) (n ring : Nat) : Buf :=
  ofBits 64 fun i => if i < ring then v.getLsbD ((((i : Int) - (n : Int)) % (ring : Int)).toNat) else v.getLsbD i

/-- The bit of byte `b` that stands at its position `i` (20_memory.md R53). -/
def byteBit (order : BitOrder) (b : Byte) (i : Nat) : Bool :=
  match order with
  | .msbFirst => b.getLsbD (7 - i)
  | .lsbFirst => b.getLsbD i

/-- `FromBytes(bs)` for at most 8 bytes: position `8j + i` is the bit of byte `j` at `i`; the others are 0 (20_memory.md R53). -/
def fromBytes (order : BitOrder) (bs : List Byte) : Buf :=
  ofBits 64 fun p => byteBit order (bs.getD (p / 8) 0) (p % 8)

/-- The byte made of positions `8j .. 8j+7` of `v`; positions at or above 64 read 0 (20_memory.md R54). -/
def toByte (order : BitOrder) (v : Buf) (j : Nat) : Byte :=
  ofBits 8 fun i => v.getLsbD (8 * j + match order with
    | .msbFirst => 7 - i
    | .lsbFirst => i)

/-- `ToBytes(v, n)`: exactly `n` bytes, first byte first (20_memory.md R54). -/
def toBytes (order : BitOrder) (v : Buf) (n : Nat) : List Byte := (List.range n).map (toByte order v)

end Sys2Proof.Machine
end

