-- ==== Sys2Proof/Machine/Flags.lean ====
section
/-! DEFINITION. The flag-like state: the values of `RES` (spec/10_state.md R26) and the words the host reads of `STATUS` and
`SST`. The engine has no condition codes, no carry and no zero flag. -/

namespace Sys2Proof.Machine

/-- `Len(v)`: 0 when no bit is set, else one more than the highest set position (00_scope.md R12). -/
def len (v : Buf) : Nat := if v = 0 then 0 else v.toNat.log2 + 1

/-- What `GETB` writes to `RES`: the bit, zero-extended to 7 bits (40_bit_buffer.md R109). -/
def resOfBit (b : Bool) : BitVec 7 := (BitVec.ofBool b).setWidth 7

/-- What `LEN` writes to `RES`: 0..64 (40_bit_buffer.md R120). -/
def resOfLen (v : Buf) : BitVec 7 := BitVec.ofNat 7 (len v)

/-- `STATUS` as the host reads it: bit 0 `BUSY`, bit 1 `HALT` (10_state.md R26). -/
def Status.word (s : Status) : BitVec 2 := BitVec.ofBool s.halt ++ BitVec.ofBool s.busy

/-- The value of `SST` (45_cbc_stream.md R173); 6 and 7 are never taken. -/
def Sst.code : Sst → BitVec 3
  | .idle => 0#3
  | .eiv => 1#3
  | .eblk => 2#3
  | .div => 3#3
  | .dfirst => 4#3
  | .dblk => 5#3

end Sys2Proof.Machine
end

