-- ==== Sys2Proof/Machine/Ops.lean ====
section
/-! DEFINITION. The named operations over registers and ports: register reads and writes, fault entry (spec/60_exceptions.md
R203), the end of a command, reset (spec/70_reset_and_hazards.md R220), and the stream primitives InRead, OutWrite and
RngDraw (spec/20_memory.md R56 to R58). There is no return from a fault but reset (60_exceptions.md R204). -/

namespace Sys2Proof.Machine

/-- What a step answers. -/
abbrev Result := Host.Outcome State Fault Refusal

/-- `B[r] <- v`: all 64 positions, and the register is open (00_scope.md R16). -/
def State.writeBuf (s : State) (r : Reg) (v : Buf) : State :=
  { s with bufs := s.bufs.set r { isOpen := true, v := v } }

/-- Scrub and release `B[r]` in one step (10_state.md R23, 40_bit_buffer.md R106). -/
def State.closeBuf (s : State) (r : Reg) : State := { s with bufs := s.bufs.set r BufReg.closed }

/-- `RES <- n` (00_scope.md R16). -/
def State.writeRes (s : State) (n : BitVec 7) : State := { s with res := n }

/-- The write of `KEY` (10_state.md R25). -/
def State.writeKey (s : State) (k : KeyReg) : State := { s with key := k }

/-- Zero written to the round sequencer's working registers (44_feistel.md R165). -/
def State.scrubRound (s : State) : State := { s with round := RoundRegs.zero }

/-- Zero written to the chaining state machine's working registers, `SST <- S_IDLE` (45_cbc_stream.md R186). -/
def State.scrubStream (s : State) : State := { s with stream := StreamRegs.zero }

/-- Fault entry, the meaning of `raise c` in every rule (60_exceptions.md R203). -/
def State.raise (s : State) (c : FaultCode) : State :=
  { s with
    fcode := c.code
    fcmd := s.cip
    round := RoundRegs.zero
    stream := StreamRegs.zero
    status := { busy := false, halt := true }
    cip := 0 }

/-- The end of a command without a fault: `BUSY <- 0` (70_reset_and_hazards.md R223), no command in progress. -/
def State.complete (s : State) : State := { s with status := { s.status with busy := false }, cip := 0 }

/-- *Finish* of a stream command: scrub every working register, `SST <- S_IDLE`, `BUSY <- 0` (45_cbc_stream.md R173). -/
def State.finish (s : State) : State := s.scrubRound.scrubStream.complete

/-- Reset (70_reset_and_hazards.md R220): every piece of state takes its value of 10_state.md R40 and `TEST` the strap. The
strap, the write to fail and the words not yet presented are the host's and stay (notes/assumptions/5.md). -/
def State.resetOn (B : Build) (s : State) : State := State.resetWith B s.testen s.outFail s.cmd

/-- Reset of this hardware. -/
def State.onReset (s : State) : State := s.resetOn Build.des

/-- The host puts more items on `IN` (10_state.md R29). -/
def State.supplyIn (s : State) (items : List InItem) : State := { s with inq := s.inq ++ items }

/-- The host puts a draw on `RNG` (10_state.md R29). -/
def State.supplyDraw (s : State) (d : Draw) : State := { s with rng := s.rng ++ [d] }

/-- `raise c` as what a step answers (60_exceptions.md R203). -/
def trap (c : FaultCode) (s : State) : Result := .next (s.raise c)

/-- The command is complete. -/
def done (s : State) : Result := .next s.complete

/-- The stream command is complete. -/
def finish (s : State) : Result := .next s.finish

/-- The engine stalls: no state changes, nothing is consumed, and the step is taken once the host has supplied enough
(60_exceptions.md R207; notes/assumptions/7.md). -/
def stall (s : State) : Result := .next s

/-- A check of an operand rule: `raise c` when it fails (40_bit_buffer.md R100). -/
def require (ok : Bool) (c : FaultCode) (s : State) (k : Result) : Result := if ok then k else trap c s

/-- The read `B[r]`: `E_ARG` when the register is closed (00_scope.md R16, 40_bit_buffer.md R100 item 2). -/
def withBuf (r : Reg) (s : State) (k : Buf → Result) : Result :=
  require s.bufs[r].isOpen .arg s (k s.bufs[r].v)

/-- The outcome of a read-fully read of a queue (20_memory.md R56). -/
inductive ReadResult where
  /-- The bytes read and the queue afterwards; short only when an `eos` was met, which is consumed. -/
  | bytes (bs : List Byte) (rest : List InItem)
  /-- An `err` item was met; the queue has lost it and the bytes before it. -/
  | failed (rest : List InItem)
  /-- The queue ends too early: nothing is consumed. -/
  | starved
deriving DecidableEq, Repr

/-- A read of up to `n` bytes from queue `q` (20_memory.md R56). -/
def readFully : Nat → List InItem → ReadResult
  | 0, q => .bytes [] q
  | _ + 1, [] => .starved
  | _ + 1, .eos :: q => .bytes [] q
  | _ + 1, .err :: q => .failed q
  | n + 1, .byte b :: q =>
    match readFully n q with
    | .bytes bs rest => .bytes (b :: bs) rest
    | .failed rest => .failed rest
    | .starved => .starved

/-- `InRead(n)` (20_memory.md R56): stalls, raises `E_IO`, or goes on with the bytes. -/
def withRead (n : Nat) (s : State) (k : List Byte → State → Result) : Result :=
  match readFully n s.inq with
  | .bytes bs rest => k bs { s with inq := rest }
  | .failed rest => trap .io { s with inq := rest }
  | .starved => stall s

/-- `OutWrite(bs)` (20_memory.md R57): an empty string writes nothing; else the write is counted, and fails whole when it is
number `OUTFAIL`. -/
def withWrite (bs : List Byte) (s : State) (k : State → Result) : Result :=
  if bs = [] then k s
  else if s.outFail = some s.nwrites then trap .io { s with nwrites := s.nwrites + 1 }
  else k { s with nwrites := s.nwrites + 1, out := s.out ++ bs }

/-- `RngDraw()` (20_memory.md R58): stalls while `RNG` is empty. -/
def withDraw (s : State) (k : Draw → State → Result) : Result :=
  match s.rng with
  | [] => stall s
  | d :: rest => k d { s with rng := rest }

end Sys2Proof.Machine
end

