-- ==== Sys2Proof/Machine/Buffer.lean ====
section
/-! DEFINITION. The bit-buffer commands (spec/40_bit_buffer.md). Sources are read, and every check is made, before anything
is written (R100 items 1 and 6). -/

namespace Sys2Proof.Machine

/-- The effect of a command that mutates its open receiver by a function of its value (40_bit_buffer.md R100 item 3). -/
def mutate (rd : Reg) (f : Buf → Buf) (s : State) : Result :=
  withBuf rd s fun d => done (s.writeBuf rd (f d))

/-- The effect of a command that combines its open receiver with an open source (40_bit_buffer.md R113 to R116). -/
def combine (rd rs : Reg) (f : Buf → Buf → Buf) (s : State) : Result :=
  withBuf rd s fun d => withBuf rs s fun x => done (s.writeBuf rd (f d x))

/-- `NEW rd` (40_bit_buffer.md R101). -/
def execNew (rd : Reg) (s : State) : Result := done (s.writeBuf rd 0)

/-- `LDB rd, n` on the build `B` (40_bit_buffer.md R102). -/
def ldbOn (B : Build) (rd : Reg) (n : BitVec 4) (s : State) : Result :=
  withRead n.toNat s fun bs t => done (t.writeBuf rd (fromBytes B.bitOrder bs))

/-- `LDB rd, n` (40_bit_buffer.md R102). -/
def execLdb (rd : Reg) (n : BitVec 4) (s : State) : Result := ldbOn Build.des rd n s

/-- `CLONE rd, rs` (40_bit_buffer.md R103). -/
def execClone (rd rs : Reg) (s : State) : Result := withBuf rs s fun x => done (s.writeBuf rd x)

/-- `COPY rd, rs`: the receiver is cleared, then ORed with the source as read before (40_bit_buffer.md R104). -/
def execCopy (rd rs : Reg) (s : State) : Result := combine rd rs (fun _ x => 0 ||| x) s

/-- `CLR rd` (40_bit_buffer.md R105). -/
def execClr (rd : Reg) (s : State) : Result := mutate rd (fun _ => 0) s

/-- `CLOSE rd` (40_bit_buffer.md R106). -/
def execClose (rd : Reg) (s : State) : Result := done (s.closeBuf rd)

/-- `SETB rd, p, v` (40_bit_buffer.md R107). -/
def execSetb (rd : Reg) (p : BitVec 6) (v : Bool) (s : State) : Result :=
  mutate rd (fun d => setBit d p.toNat v) s

/-- `FLIPB rd, p` (40_bit_buffer.md R108). -/
def execFlipb (rd : Reg) (p : BitVec 6) (s : State) : Result := mutate rd (fun d => flipBit d p.toNat) s

/-- `GETB rd, p` (40_bit_buffer.md R109). -/
def execGetb (rd : Reg) (p : BitVec 6) (s : State) : Result :=
  withBuf rd s fun d => done (s.writeRes (resOfBit (d.getLsbD p.toNat)))

/-- The check `from ≤ to` of the range commands (40_bit_buffer.md R110 to R112). -/
def rangeOk (lo hi : BitVec 7) : Bool := lo.toNat ≤ hi.toNat

/-- `SETR rd, from, to, v` (40_bit_buffer.md R110). -/
def execSetr (rd : Reg) (lo hi : BitVec 7) (v : Bool) (s : State) : Result :=
  withBuf rd s fun d => require (rangeOk lo hi) .arg s (done (s.writeBuf rd (setRange d lo.toNat hi.toNat v)))

/-- `FLIPR rd, from, to` (40_bit_buffer.md R111). -/
def execFlipr (rd : Reg) (lo hi : BitVec 7) (s : State) : Result :=
  withBuf rd s fun d => require (rangeOk lo hi) .arg s (done (s.writeBuf rd (flipRange d lo.toNat hi.toNat)))

/-- `GETR rd, rs, from, to` (40_bit_buffer.md R112). -/
def execGetr (rd rs : Reg) (lo hi : BitVec 7) (s : State) : Result :=
  withBuf rs s fun x => require (rangeOk lo hi) .arg s (done (s.writeBuf rd (subRange x lo.toNat hi.toNat)))

/-- `AND rd, rs` (40_bit_buffer.md R113). -/
def execAnd (rd rs : Reg) (s : State) : Result := combine rd rs (fun d x => d &&& x) s

/-- `OR rd, rs` (40_bit_buffer.md R114). -/
def execOr (rd rs : Reg) (s : State) : Result := combine rd rs (fun d x => d ||| x) s

/-- `XOR rd, rs` (40_bit_buffer.md R115). -/
def execXor (rd rs : Reg) (s : State) : Result := combine rd rs (fun d x => d ^^^ x) s

/-- `ANDN rd, rs` (40_bit_buffer.md R116). -/
def execAndn (rd rs : Reg) (s : State) : Result := combine rd rs (fun d x => d &&& ~~~x) s

/-- `OVW rd, rs, pos, sfrom, n` (40_bit_buffer.md R117). -/
def execOvw (rd rs : Reg) (pos sfrom : BitVec 6) (n : BitVec 7) (s : State) : Result :=
  withBuf rd s fun d => withBuf rs s fun x =>
    require (pos.toNat + n.toNat ≤ Config.cap) .cap s
      (done (s.writeBuf rd (overwrite d x pos.toNat sfrom.toNat n.toNat)))

/-- `ROL rd, n, ring` (40_bit_buffer.md R118). -/
def execRol (rd : Reg) (n ring : BitVec 7) (s : State) : Result :=
  withBuf rd s fun d => require (n.toNat ≤ ring.toNat) .arg s (done (s.writeBuf rd (rotLeft d n.toNat ring.toNat)))

/-- `ROR rd, n, ring` (40_bit_buffer.md R119). -/
def execRor (rd : Reg) (n ring : BitVec 7) (s : State) : Result :=
  withBuf rd s fun d => require (n.toNat ≤ ring.toNat) .arg s (done (s.writeBuf rd (rotRight d n.toNat ring.toNat)))

/-- `LEN rd` (40_bit_buffer.md R120). -/
def execLen (rd : Reg) (s : State) : Result := withBuf rd s fun d => done (s.writeRes (resOfLen d))

/-- `STB rs, n` on the build `B` (40_bit_buffer.md R121). -/
def stbOn (B : Build) (rs : Reg) (n : BitVec 4) (s : State) : Result :=
  withBuf rs s fun x => withWrite (toBytes B.bitOrder x n.toNat) s done

/-- `STB rs, n` (40_bit_buffer.md R121). -/
def execStb (rs : Reg) (n : BitVec 4) (s : State) : Result := stbOn Build.des rs n s

/-- `DBG rs` / `DBG KEY` on the build `B`: reads the storage, open or not, and exists only in test mode (40_bit_buffer.md R122,
60_exceptions.md R206). -/
def dbgOn (B : Build) (rs : Reg) (sel : Bool) (s : State) : Result :=
  require (s.test && (!sel || rs == 0)) .illegal s
    (withWrite (toBytes B.bitOrder (if sel then s.key.v else s.bufs[rs].v) 8) s done)

/-- `DBG rs` / `DBG KEY` (40_bit_buffer.md R122). -/
def execDbg (rs : Reg) (sel : Bool) (s : State) : Result := dbgOn Build.des rs sel s

end Sys2Proof.Machine
end

