-- ==== Sys2Proof/Machine/Permutation.lean ====
section
/-! DEFINITION. The bit-permutation network and its command PERM (spec/41_permutation.md). -/

namespace Sys2Proof.Machine

/-- The number whose bit `i` is bit `T[i]` of `v`, for the entries of the table `T` in order (41_permutation.md R130). -/
def gather {w : Nat} (v : BitVec w) : List Nat → Nat
  | [] => 0
  | p :: ps => (v.getLsbD p).toNat + 2 * gather v ps

/-- `Permute(v, T)` as a value of `m` positions: position `i` is `v[T[i]]` for `i < L`, and 0 above; every position is taken
from `v` as it was (41_permutation.md R130). -/
def permute {w : Nat} (m : Nat) (v : BitVec w) (T : List Nat) : BitVec m := BitVec.ofNat m (gather v T)

/-- The table a command names (41_permutation.md R131). -/
def Tables.perm (T : Tables) (t : PermTable) : List Nat :=
  match t with
  | .ip => T.ip
  | .fp => T.fp
  | .pc1 => T.pc1
  | .pc2 => T.pc2
  | .e => T.e
  | .p => T.p

/-- `PERM rd, table` on the build `B` (41_permutation.md R132). A register narrower than the table presumes reads zeros
(R134). -/
def permOn (B : Build) (rd : Reg) (t : PermTable) (s : State) : Result :=
  withBuf rd s fun old => done (s.writeBuf rd (permute 64 old (Tables.perm B.tables t)))

/-- `PERM rd, table` (41_permutation.md R132). -/
def execPerm (rd : Reg) (t : PermTable) (s : State) : Result := permOn Build.des rd t s

end Sys2Proof.Machine
end

