-- ==== Sys2Proof/Machine/KeySchedule.lean ====
section
/-! DEFINITION. The key-schedule rotation and selection unit and its commands KSE and KSD (spec/43_key_schedule.md). -/

namespace Sys2Proof.Machine

/-- `RotHalves(s, n, left)`: positions 0..27 and 28..55 rotated left as two rings of 28 (43_key_schedule.md R151). -/
def rotHalvesLeft (s : Buf) (n : Nat) : Buf :=
  ofBits 64 fun i =>
    if i < 28 then s.getLsbD ((i + n) % 28)
    else if i < 56 then s.getLsbD (28 + (i - 28 + n) % 28)
    else s.getLsbD i

/-- `RotHalves(s, n, right)` (43_key_schedule.md R151). -/
def rotHalvesRight (s : Buf) (n : Nat) : Buf :=
  ofBits 64 fun i =>
    if i < 28 then s.getLsbD ((((i : Int) - (n : Int)) % 28).toNat)
    else if i < 56 then s.getLsbD (28 + (((i : Int) - 28 - (n : Int)) % 28).toNat)
    else s.getLsbD i

/-- `RoundKey(s, r)`: the new state and the 48-position round key (43_key_schedule.md R152). `SHIFT` has the entries 0..15 only
(R154); that a round past the end of the table does not rotate is the model's: DESIGN CHOICE (notes/assumptions/14.md), unsafe
for a build of more than 16 rounds, and this hardware has 16. -/
def roundKey (T : Tables) (s : Buf) (r : Nat) : Buf × BitVec 48 :=
  let compressed := if r = 0 then permute 64 s T.pc1 else s
  let rotated := rotHalvesLeft compressed (T.shift.getD r 0)
  (rotated, permute 48 rotated T.pc2)

/-- `RoundKeyDecrypt(s, r)` (43_key_schedule.md R153). The rule gives `SHIFT[16-r]` for `r` = 1..15; that a later round rotates
by `SHIFT[0]`, the subtraction stopping at 0, is the model's: DESIGN CHOICE (notes/assumptions/14.md), unsafe for a build of more
than 16 rounds, and this hardware has 16. -/
def roundKeyDecrypt (T : Tables) (s : Buf) (r : Nat) : Buf × BitVec 48 :=
  let s' := if r = 0 then permute 64 s T.pc1 else rotHalvesRight s (T.shift.getD (16 - r) 0)
  (s', permute 48 s' T.pc2)

/-- The effect `KSE` and `KSD` share: `B[rs]` takes the new state, `B[rd]` the key; `rd = rs` is `E_ARG`
(43_key_schedule.md R152, R153). -/
def keyHook (hook : Buf → Nat → Buf × BitVec 48) (rd rs : Reg) (r : BitVec 4) (s : State) : Result :=
  withBuf rs s fun old =>
    require (rd != rs) .arg s
      (done ((s.writeBuf rs (hook old r.toNat).1).writeBuf rd ((hook old r.toNat).2.setWidth 64)))

/-- `KSE rd, rs, r` on the build `B` (43_key_schedule.md R152). -/
def kseOn (B : Build) (rd rs : Reg) (r : BitVec 4) (s : State) : Result := keyHook (roundKey B.tables) rd rs r s

/-- `KSE rd, rs, r` (43_key_schedule.md R152). -/
def execKse (rd rs : Reg) (r : BitVec 4) (s : State) : Result := kseOn Build.des rd rs r s

/-- `KSD rd, rs, r` on the build `B` (43_key_schedule.md R153). -/
def ksdOn (B : Build) (rd rs : Reg) (r : BitVec 4) (s : State) : Result := keyHook (roundKeyDecrypt B.tables) rd rs r s

/-- `KSD rd, rs, r` (43_key_schedule.md R153). -/
def execKsd (rd rs : Reg) (r : BitVec 4) (s : State) : Result := ksdOn Build.des rd rs r s

end Sys2Proof.Machine
end

