-- ==== Sys2Proof/Machine/Substitution.lean ====
section
/-! DEFINITION. The substitution-table lookup array and its commands SBOX and SUB6 (spec/42_substitution.md). -/

namespace Sys2Proof.Machine

/-- The entry `SBox[k][y][x]`, an integer 0..15 (42_substitution.md R140). -/
def sboxEntry (T : Tables) (k x y : Nat) : Nat := ((T.sbox.getD k []).getD y []).getD x 0

/-- `SEntry(k, x, y)`: the 4-position pattern of the entry, its most significant bit at position 0 (42_substitution.md R140). -/
def sEntry (T : Tables) (k x y : Nat) : BitVec 4 := ofBits 4 fun i => (sboxEntry T k x y).testBit (3 - i)

/-- The row of a 6-position group: `y = 2·g[0] + g[5]` (42_substitution.md R143). -/
def sixRow (g : BitVec 6) : Nat := 2 * (g.getLsbD 0).toNat + (g.getLsbD 5).toNat

/-- The column of a 6-position group: `x = 8·g[1] + 4·g[2] + 2·g[3] + g[4]` (42_substitution.md R143). -/
def sixColumn (g : BitVec 6) : Nat :=
  8 * (g.getLsbD 1).toNat + 4 * (g.getLsbD 2).toNat + 2 * (g.getLsbD 3).toNat + (g.getLsbD 4).toNat

/-- `Sub6(k, g)` (42_substitution.md R143). -/
def sub6 (T : Tables) (k : Nat) (g : BitVec 6) : BitVec 4 := sEntry T k (sixColumn g) (sixRow g)

/-- `SBOX rd, Sk, x, y` on the build `B`: the whole register becomes the entry (42_substitution.md R142). -/
def sboxOn (B : Build) (rd : Reg) (k : BitVec 3) (x : BitVec 4) (y : BitVec 2) (s : State) : Result :=
  withBuf rd s fun _ => done (s.writeBuf rd ((sEntry B.tables k.toNat x.toNat y.toNat).setWidth 64))

/-- `SBOX rd, Sk, x, y` (42_substitution.md R142). -/
def execSbox (rd : Reg) (k : BitVec 3) (x : BitVec 4) (y : BitVec 2) (s : State) : Result := sboxOn Build.des rd k x y s

/-- `SUB6 rd, Sk` on the build `B`: the first six positions of the register select the entry (42_substitution.md R143). -/
def sub6On (B : Build) (rd : Reg) (k : BitVec 3) (s : State) : Result :=
  withBuf rd s fun old => done (s.writeBuf rd ((sub6 B.tables k.toNat (old.setWidth 6)).setWidth 64))

/-- `SUB6 rd, Sk` (42_substitution.md R143). -/
def execSub6 (rd : Reg) (k : BitVec 3) (s : State) : Result := sub6On Build.des rd k s

end Sys2Proof.Machine
end

