-- ==== Sys2Proof/Machine/Feistel.lean ====
section
/-! DEFINITION. The round function, the round sequencer and their commands FFN, ENCB and DECB (spec/44_feistel.md). The
sequencer is written against the five hooks of R161 and takes the build's round count and half width as arguments (00_scope.md
R6); this hardware wires DES, 16 rounds and halves of 32 positions. -/

namespace Sys2Proof.Machine

/-- The eight substitutions of a 48-position value, group `g` (positions `6g..6g+5`) through box `S(g+1)`, its four output
positions at `4g..4g+3` (44_feistel.md R160). -/
def substitute (T : Tables) (t : BitVec 48) : BitVec 32 :=
  sub6 T 7 (t.extractLsb' 42 6) ++ sub6 T 6 (t.extractLsb' 36 6) ++ sub6 T 5 (t.extractLsb' 30 6) ++
  sub6 T 4 (t.extractLsb' 24 6) ++ sub6 T 3 (t.extractLsb' 18 6) ++ sub6 T 2 (t.extractLsb' 12 6) ++
  sub6 T 1 (t.extractLsb' 6 6) ++ sub6 T 0 (t.extractLsb' 0 6)

/-- `F(right, rk)` (44_feistel.md R160). -/
def feistelF (T : Tables) (right : BitVec 32) (rk : BitVec 48) : BitVec 32 :=
  permute 32 (substitute T (permute 48 right T.e ^^^ rk)) T.p

/-- The five hooks of the cipher interface (44_feistel.md R161). -/
structure Hooks where
  initialPermutation : Buf → Buf
  roundKey : Buf → Nat → Buf × BitVec 48
  roundKeyDecrypt : Buf → Nat → Buf × BitVec 48
  fFunction : BitVec 32 → BitVec 48 → BitVec 32
  finalPermutation : Buf → Buf

/-- The DES wiring of the hooks (44_feistel.md R161). -/
def desHooks (T : Tables) : Hooks :=
  { initialPermutation := fun v => permute 64 v T.ip
    roundKey := roundKey T
    roundKeyDecrypt := roundKeyDecrypt T
    fFunction := feistelF T
    finalPermutation := fun v => permute 64 v T.fp }

/-- Steps 1 to 3 of `EncryptBlock`: the key clone in `WKS`, the permuted block split into `WL` (positions `0..half-1`) and `WR`
(the `half` positions above them) (44_feistel.md R162). -/
def loadBlock (half : Nat) (h : Hooks) (b k : Buf) : RoundRegs :=
  { wl := ((h.initialPermutation b).extractLsb' 0 half).setWidth 32
    wr := ((h.initialPermutation b).extractLsb' half half).setWidth 32
    wks := k
    wrk := 0
    wt := 0
    rnd := 0 }

/-- One round of step 4: the key hook, `WL ^ F(WR, WRK)`, the swap, `RND` counted up (44_feistel.md R162). The rule counts 0..15
and gives `RND` 5 bits; that it wraps at 32 is the model's: DESIGN CHOICE (notes/assumptions/14.md), unsafe for a build of more
than 32 rounds, and this hardware has 16. -/
def roundStep (h : Hooks) (keyHook : Buf → Nat → Buf × BitVec 48) (w : RoundRegs) : RoundRegs :=
  { wl := w.wr
    wr := w.wl ^^^ h.fFunction w.wr (keyHook w.wks w.rnd.toNat).2
    wks := (keyHook w.wks w.rnd.toNat).1
    wrk := (keyHook w.wks w.rnd.toNat).2
    wt := 0
    rnd := w.rnd + 1 }

/-- `n` rounds in order (44_feistel.md R162, which gives 16; what other counts do is the model's, notes/assumptions/14.md). -/
def rounds (h : Hooks) (keyHook : Buf → Nat → Buf × BitVec 48) : Nat → RoundRegs → RoundRegs
  | 0, w => w
  | n + 1, w => rounds h keyHook n (roundStep h keyHook w)

/-- Step 5: the halves swapped back, concatenated left first, and the final permutation (44_feistel.md R162). -/
def blockOutput (half : Nat) (h : Hooks) (w : RoundRegs) : Buf :=
  h.finalPermutation (ofBits 64 fun i => if i < half then w.wr.getLsbD i else w.wl.getLsbD (i - half))

/-- The block primitive of the build `B` under either key hook (44_feistel.md R162, R163). -/
def cryptBlock (B : Build) (keyHook : Buf → Nat → Buf × BitVec 48) (b k : Buf) : Buf :=
  blockOutput B.halfBits (desHooks B.tables)
    (rounds (desHooks B.tables) keyHook B.rounds (loadBlock B.halfBits (desHooks B.tables) b k))

/-- `EncryptBlock(b, k)` (44_feistel.md R162). -/
def encryptBlock (B : Build) (b k : Buf) : Buf := cryptBlock B (roundKey B.tables) b k

/-- `DecryptBlock(b, k)`: the same with the reverse hook (44_feistel.md R163). -/
def decryptBlock (B : Build) (b k : Buf) : Buf := cryptBlock B (roundKeyDecrypt B.tables) b k

/-- The operand rule `FFN`, `ENCB` and `DECB` share: `rs` and `rt` open, `rd` neither of them (44_feistel.md R160). -/
def withTwoBufs (rd rs rt : Reg) (s : State) (k : Buf → Buf → Result) : Result :=
  withBuf rs s fun x => withBuf rt s fun y => require (rd != rs && rd != rt) .arg s (k x y)

/-- `FFN rd, rs, rt` on the build `B`: `F` of the first 32 positions of `rs` and the first 48 of `rt`; `WT` and `WRK` are
scrubbed (44_feistel.md R160, R165). -/
def ffnOn (B : Build) (rd rs rt : Reg) (s : State) : Result :=
  withTwoBufs rd rs rt s fun x y =>
    done ({ s with round := { s.round with wt := 0, wrk := 0 } }.writeBuf rd
      ((feistelF B.tables (x.setWidth 32) (y.setWidth 48)).setWidth 64))

/-- `FFN rd, rs, rt` (44_feistel.md R160). -/
def execFfn (rd rs rt : Reg) (s : State) : Result := ffnOn Build.des rd rs rt s

/-- `ENCB rd, rs, rt` on the build `B` (44_feistel.md R162); the working registers are scrubbed (R165). -/
def encbOn (B : Build) (rd rs rt : Reg) (s : State) : Result :=
  withTwoBufs rd rs rt s fun b k => done (s.scrubRound.writeBuf rd (encryptBlock B b k))

/-- `ENCB rd, rs, rt` (44_feistel.md R162). -/
def execEncb (rd rs rt : Reg) (s : State) : Result := encbOn Build.des rd rs rt s

/-- `DECB rd, rs, rt` on the build `B` (44_feistel.md R163); the working registers are scrubbed (R165). -/
def decbOn (B : Build) (rd rs rt : Reg) (s : State) : Result :=
  withTwoBufs rd rs rt s fun b k => done (s.scrubRound.writeBuf rd (decryptBlock B b k))

/-- `DECB rd, rs, rt` (44_feistel.md R163). -/
def execDecb (rd rs rt : Reg) (s : State) : Result := decbOn Build.des rd rs rt s

end Sys2Proof.Machine
end

