-- ==== Sys2Proof/Machine/Stream.lean ====
section
/-! DEFINITION. The key register and the CBC chaining state machine: LDK, KCLOSE, ENCS, DECS (spec/45_cbc_stream.md). Each
row of R173's table is one atomic step. `BLOCKBYTES`, the byte lane order and the tables are those of the build, an argument of
every step (00_scope.md R6; notes/assumptions/13.md). -/

namespace Sys2Proof.Machine

/-- `LDK n` on the build `B` (45_cbc_stream.md R170). -/
def ldkOn (B : Build) (n : BitVec 4) (s : State) : Result :=
  withRead n.toNat s fun bs t =>
    done (t.writeKey
      { isOpen := true
        len := BitVec.ofNat 4 bs.length
        v := fromBytes B.bitOrder (bs.take Config.keyBytes) })

/-- `LDK n` (45_cbc_stream.md R170). -/
def execLdk (n : BitVec 4) (s : State) : Result := ldkOn Build.des n s

/-- `KCLOSE` (45_cbc_stream.md R171). -/
def execKclose (s : State) : Result := done (s.writeKey KeyReg.closed)

/-- The key check of `ENCS` and `DECS` (45_cbc_stream.md R174). -/
def keyOk (k : KeyReg) : Bool := k.isOpen && k.len.toNat == Config.keyBytes

/-- `Pad(bs)` of a string shorter than a block of `width` bytes (45_cbc_stream.md R176). -/
def pad (width : Nat) (bs : List Byte) : List Byte :=
  bs ++ List.replicate (width - bs.length) (BitVec.ofNat 8 (width - bs.length))

/-- The number of consecutive bytes, counted backward from the last one, that equal the last one (45_cbc_stream.md R181). -/
def trailingRun (p : List Byte) (v : Byte) : Nat := (p.reverse.takeWhile fun b => b == v).length

/-- `Unpad(p)` of a block of `width` bytes (45_cbc_stream.md R181). -/
def unpad (width : Nat) (p : List Byte) : List Byte :=
  let v := p.getD (width - 1) 0
  if v.toNat < width ∧ trailingRun p v = v.toNat then p.take (width - v.toNat) else p

/-- `BUSY <- 1 ; SST <- first` (45_cbc_stream.md R173). -/
def State.beginStream (s : State) (first : Sst) : State :=
  { s with status := { s.status with busy := true }, stream := { s.stream with sst := first } }

/-- Step 0 of `ENCS` and `DECS`: the key check, `BUSY <- 1`, and the first state of the command (45_cbc_stream.md R174,
R175, R179). -/
def startStream (first : Sst) (s : State) : Result :=
  require (keyOk s.key) .arg s
    (.next (s.beginStream first))

/-- `CHAIN <- c ; SST <- next` (45_cbc_stream.md R175 step 1, R179 step 1). -/
def State.loadChain (s : State) (c : Buf) (next : Sst) : State :=
  { s with stream := { s.stream with chain := c, sst := next } }

/-- `CUR <- b ; CURN <- n ; SST <- S_DBLK` (45_cbc_stream.md R179 step 2). -/
def State.loadCur (s : State) (b : Buf) (n : BitVec 4) : State :=
  { s with stream := { s.stream with cur := b, curn := n, sst := .dblk } }

/-- The bytes of the draw that are the IV: one block's width of them (20_memory.md R58), on this hardware all 8. -/
def ivOf (B : Build) (d : Draw) : List Byte := d.toList.take B.blockBytes

/-- `S_EIV`: draw the IV, write it, load `CHAIN` (45_cbc_stream.md R175 step 1). -/
def stepEiv (B : Build) (s : State) : Result :=
  withDraw s fun d t =>
    withWrite (ivOf B d) t fun u => .next (u.loadChain (fromBytes B.bitOrder (ivOf B d)) .eblk)

/-- The block `ENCS` encrypts: the bytes read, padded when short (45_cbc_stream.md R175 step 2). -/
def padIfShort (B : Build) (bs : List Byte) : List Byte :=
  if bs.length < B.blockBytes then pad B.blockBytes bs else bs

/-- The registers after a block of `n` bytes has become `cur` and been encrypted; `WKS` and its fellows are scrubbed at the end
of every block (45_cbc_stream.md R175 step 2, R186). -/
def State.withBlock (s : State) (cur : Buf) (n : BitVec 4) : State :=
  { s with round := RoundRegs.zero, stream := { s.stream with cur := cur, curn := n } }

/-- `CHAIN <- c` (45_cbc_stream.md R175 step 2). -/
def State.setChain (s : State) (c : Buf) : State := { s with stream := { s.stream with chain := c } }

/-- The end of the step of a block of `n` bytes whose ciphertext is `c`: write it, retain it, and finish or repeat
(45_cbc_stream.md R175 step 2). -/
def emitCipher (B : Build) (n : Nat) (cur c : Buf) (s : State) : Result :=
  withWrite (toBytes B.bitOrder c B.blockBytes) (s.withBlock cur (BitVec.ofNat 4 n)) fun u =>
    if n < B.blockBytes then finish (u.setChain c) else .next (u.setChain c)

/-- `S_EBLK`: read one block, pad if short, chain, encrypt, write (45_cbc_stream.md R175 step 2). -/
def stepEblk (B : Build) (s : State) : Result :=
  withRead B.blockBytes s fun bs t =>
    if bs.length = 0 then finish t
    else
      let cur := fromBytes B.bitOrder (padIfShort B bs) ^^^ t.stream.chain
      emitCipher B bs.length cur (encryptBlock B cur t.key.v) t

/-- `S_DIV`: read the IV into `CHAIN` (45_cbc_stream.md R179 step 1, R182). -/
def stepDiv (B : Build) (s : State) : Result :=
  withRead B.blockBytes s fun iv t =>
    require (iv.length == B.blockBytes) .format t (.next (t.loadChain (fromBytes B.bitOrder iv) .dfirst))

/-- `S_DFIRST`: read the first ciphertext block into `CUR`; an empty read is the empty message (45_cbc_stream.md R179 step 2,
R182). -/
def stepDfirst (B : Build) (s : State) : Result :=
  withRead B.blockBytes s fun bs t =>
    if bs.length = 0 then finish t
    else
      require (bs.length == B.blockBytes) .format t
        (.next (t.loadCur (fromBytes B.bitOrder bs) (BitVec.ofNat 4 bs.length)))

/-- What `DECS` writes for the block in `CUR`: decrypted, unchained, and unpadded when it is the last (45_cbc_stream.md R179
step 3). -/
def plainOf (B : Build) (s : State) (last : Bool) : List Byte :=
  let p := toBytes B.bitOrder (decryptBlock B s.stream.cur s.key.v ^^^ s.stream.chain) B.blockBytes
  if last then unpad B.blockBytes p else p

/-- The registers after the look-ahead read of `n` bytes and the decryption of the block in `CUR` (45_cbc_stream.md R179 step 3,
R186). -/
def State.withLookAhead (s : State) (nxt : Buf) (n : BitVec 4) : State :=
  { s with round := RoundRegs.zero, stream := { s.stream with nxt := nxt, nxtn := n } }

/-- `CUR <- NXT ; CURN <- NXTN` (45_cbc_stream.md R179 step 3). -/
def State.advance (s : State) : State :=
  { s with stream := { s.stream with cur := s.stream.nxt, curn := s.stream.nxtn } }

/-- The end of the step of `S_DBLK`, whose plaintext is `p` and whose look-ahead read returned the `n` bytes of `nxt`
(45_cbc_stream.md R179 step 3). -/
def emitPlain (n : Nat) (nxt : Buf) (p : List Byte) (s : State) : Result :=
  withWrite p (s.withLookAhead nxt (BitVec.ofNat 4 n)) fun u =>
    if n = 0 then finish (u.setChain u.stream.cur) else .next (u.setChain u.stream.cur).advance

/-- `S_DBLK`: read the look-ahead block, decrypt `CUR`, unchain, unpad if last, write (45_cbc_stream.md R179 step 3, R180). -/
def stepDblk (B : Build) (s : State) : Result :=
  withRead B.blockBytes s fun bs t =>
    require (bs.length == 0 || bs.length == B.blockBytes) .format t
      (emitPlain bs.length (fromBytes B.bitOrder bs) (plainOf B t (bs.length == 0)) t)

/-- The step of the chaining state machine that `SST` selects (45_cbc_stream.md R173); `first` is where the command begins. -/
def streamStep (B : Build) (first : Sst) (s : State) : Result :=
  match s.stream.sst with
  | .idle => startStream first s
  | .eiv => stepEiv B s
  | .eblk => stepEblk B s
  | .div => stepDiv B s
  | .dfirst => stepDfirst B s
  | .dblk => stepDblk B s

/-- `ENCS` on the build `B`: the next atomic step of a stream encryption (45_cbc_stream.md R173, R175). -/
def encsOn (B : Build) (s : State) : Result := streamStep B .eiv s

/-- `ENCS` (45_cbc_stream.md R175). -/
def execEncs (s : State) : Result := encsOn Build.des s

/-- `DECS` on the build `B`: the next atomic step of a stream decryption (45_cbc_stream.md R173, R179). -/
def decsOn (B : Build) (s : State) : Result := streamStep B .div s

/-- `DECS` (45_cbc_stream.md R179). -/
def execDecs (s : State) : Result := decsOn Build.des s

end Sys2Proof.Machine
end

