-- ==== Sys2Proof/Syntax.lean ====
section
/-! DEFINITION. The commands of the engine, one constructor per row of spec/opcode_table.json (spec/30_encoding.md R71,
R73, R77). An operand is the field of the command word as it stands (R72); `lo` and `hi` are the rule's `from`
(inclusive) and `to` (exclusive). Which field values are legal is `Instr.wellFormed` (Sys2Proof/WellFormed.lean).
The pseudo-commands of R78 are other spellings of `setb`, `setr`, `flipr` and `perm`. -/

namespace Sys2Proof

/-- A command (30_encoding.md R73). -/
inductive Instr where
  /-- `NEW rd` (40_bit_buffer.md R101). -/
  | new (rd : Reg)
  /-- `LDB rd, n` (40_bit_buffer.md R102). -/
  | ldb (rd : Reg) (n : BitVec 4)
  /-- `CLONE rd, rs` (40_bit_buffer.md R103). -/
  | clone (rd rs : Reg)
  /-- `COPY rd, rs` (40_bit_buffer.md R104). -/
  | copy (rd rs : Reg)
  /-- `CLR rd` (40_bit_buffer.md R105). -/
  | clr (rd : Reg)
  /-- `CLOSE rd` (40_bit_buffer.md R106). -/
  | close (rd : Reg)
  /-- `SETB rd, p, v` (40_bit_buffer.md R107). -/
  | setb (rd : Reg) (p : BitVec 6) (v : Bool)
  /-- `FLIPB rd, p` (40_bit_buffer.md R108). -/
  | flipb (rd : Reg) (p : BitVec 6)
  /-- `GETB rd, p` (40_bit_buffer.md R109). -/
  | getb (rd : Reg) (p : BitVec 6)
  /-- `SETR rd, from, to, v` (40_bit_buffer.md R110). -/
  | setr (rd : Reg) (lo hi : BitVec 7) (v : Bool)
  /-- `FLIPR rd, from, to` (40_bit_buffer.md R111). -/
  | flipr (rd : Reg) (lo hi : BitVec 7)
  /-- `GETR rd, rs, from, to` (40_bit_buffer.md R112). -/
  | getr (rd rs : Reg) (lo hi : BitVec 7)
  /-- `AND rd, rs` (40_bit_buffer.md R113). -/
  | and (rd rs : Reg)
  /-- `OR rd, rs` (40_bit_buffer.md R114). -/
  | or (rd rs : Reg)
  /-- `XOR rd, rs` (40_bit_buffer.md R115). -/
  | xor (rd rs : Reg)
  /-- `ANDN rd, rs` (40_bit_buffer.md R116). -/
  | andn (rd rs : Reg)
  /-- `OVW rd, rs, pos, sfrom, n` (40_bit_buffer.md R117). -/
  | ovw (rd rs : Reg) (pos sfrom : BitVec 6) (n : BitVec 7)
  /-- `ROL rd, n, ring` (40_bit_buffer.md R118). -/
  | rol (rd : Reg) (n ring : BitVec 7)
  /-- `ROR rd, n, ring` (40_bit_buffer.md R119). -/
  | ror (rd : Reg) (n ring : BitVec 7)
  /-- `LEN rd` (40_bit_buffer.md R120). -/
  | len (rd : Reg)
  /-- `STB rs, n` (40_bit_buffer.md R121). -/
  | stb (rs : Reg) (n : BitVec 4)
  /-- `DBG rs (sel = 0) or DBG KEY (sel = 1, rs = 0)` (40_bit_buffer.md R122). -/
  | dbg (rs : Reg) (sel : Bool)
  /-- `PERM rd, table` (41_permutation.md R132). -/
  | perm (rd : Reg) (t : PermTable)
  /-- `SBOX rd, Sk, x, y` (42_substitution.md R142). -/
  | sbox (rd : Reg) (k : BitVec 3) (x : BitVec 4) (y : BitVec 2)
  /-- `SUB6 rd, Sk` (42_substitution.md R143). -/
  | sub6 (rd : Reg) (k : BitVec 3)
  /-- `KSE rd, rs, r` (43_key_schedule.md R152). -/
  | kse (rd rs : Reg) (r : BitVec 4)
  /-- `KSD rd, rs, r` (43_key_schedule.md R153). -/
  | ksd (rd rs : Reg) (r : BitVec 4)
  /-- `FFN rd, rs, rt` (44_feistel.md R160). -/
  | ffn (rd rs rt : Reg)
  /-- `ENCB rd, rs, rt` (44_feistel.md R162). -/
  | encb (rd rs rt : Reg)
  /-- `DECB rd, rs, rt` (44_feistel.md R163). -/
  | decb (rd rs rt : Reg)
  /-- `LDK n` (45_cbc_stream.md R170). -/
  | ldk (n : BitVec 4)
  /-- `KCLOSE` (45_cbc_stream.md R171). -/
  | kclose
  /-- `ENCS` (45_cbc_stream.md R175). -/
  | encs
  /-- `DECS` (45_cbc_stream.md R179). -/
  | decs
deriving DecidableEq, Repr

end Sys2Proof
end

