-- ==== Sys2Proof/Machine/Dispatch.lean ====
section
/-! DEFINITION. The one dispatch from a command to its meaning, in the order of spec/30_encoding.md R73. -/

namespace Sys2Proof.Machine

/-- What one atomic step of the command `i`, in progress in `s`, does. -/
def exec (i : Instr) (s : State) : Host.Outcome State Fault Refusal :=
  match i with
  | .new rd => Sys2Proof.Machine.execNew rd s
  | .ldb rd n => Sys2Proof.Machine.execLdb rd n s
  | .clone rd rs => Sys2Proof.Machine.execClone rd rs s
  | .copy rd rs => Sys2Proof.Machine.execCopy rd rs s
  | .clr rd => Sys2Proof.Machine.execClr rd s
  | .close rd => Sys2Proof.Machine.execClose rd s
  | .setb rd p v => Sys2Proof.Machine.execSetb rd p v s
  | .flipb rd p => Sys2Proof.Machine.execFlipb rd p s
  | .getb rd p => Sys2Proof.Machine.execGetb rd p s
  | .setr rd lo hi v => Sys2Proof.Machine.execSetr rd lo hi v s
  | .flipr rd lo hi => Sys2Proof.Machine.execFlipr rd lo hi s
  | .getr rd rs lo hi => Sys2Proof.Machine.execGetr rd rs lo hi s
  | .and rd rs => Sys2Proof.Machine.execAnd rd rs s
  | .or rd rs => Sys2Proof.Machine.execOr rd rs s
  | .xor rd rs => Sys2Proof.Machine.execXor rd rs s
  | .andn rd rs => Sys2Proof.Machine.execAndn rd rs s
  | .ovw rd rs pos sfrom n => Sys2Proof.Machine.execOvw rd rs pos sfrom n s
  | .rol rd n ring => Sys2Proof.Machine.execRol rd n ring s
  | .ror rd n ring => Sys2Proof.Machine.execRor rd n ring s
  | .len rd => Sys2Proof.Machine.execLen rd s
  | .stb rs n => Sys2Proof.Machine.execStb rs n s
  | .dbg rs sel => Sys2Proof.Machine.execDbg rs sel s
  | .perm rd t => Sys2Proof.Machine.execPerm rd t s
  | .sbox rd k x y => Sys2Proof.Machine.execSbox rd k x y s
  | .sub6 rd k => Sys2Proof.Machine.execSub6 rd k s
  | .kse rd rs r => Sys2Proof.Machine.execKse rd rs r s
  | .ksd rd rs r => Sys2Proof.Machine.execKsd rd rs r s
  | .ffn rd rs rt => Sys2Proof.Machine.execFfn rd rs rt s
  | .encb rd rs rt => Sys2Proof.Machine.execEncb rd rs rt s
  | .decb rd rs rt => Sys2Proof.Machine.execDecb rd rs rt s
  | .ldk n => Sys2Proof.Machine.execLdk n s
  | .kclose => Sys2Proof.Machine.execKclose s
  | .encs => Sys2Proof.Machine.execEncs s
  | .decs => Sys2Proof.Machine.execDecs s

end Sys2Proof.Machine
end

