-- ==== Sys2Proof/WellFormed.lean ====
section
/-! DEFINITION. Which operand values are legal (spec/30_encoding.md R72; spec/40_bit_buffer.md R122 for `DBG`). A word
whose fields fail this check is an illegal command (R75 step 2, R76). -/

namespace Sys2Proof

/-- A bound, count or ring size of the formats `DR DSR W RT`: 0..64; 65..127 is illegal (30_encoding.md R72). -/
def boundLegal (n : BitVec 7) : Bool := n.toNat ≤ 64

/-- The operand ranges of 30_encoding.md R72, and `sel = 1` requires `rs = 0` (R75 step 2). -/
def Instr.wellFormed : Instr → Bool
  | .new _ => true
  | .ldb _ n => n.toNat ≤ 8
  | .clone _ _ => true
  | .copy _ _ => true
  | .clr _ => true
  | .close _ => true
  | .setb _ _ _ => true
  | .flipb _ _ => true
  | .getb _ _ => true
  | .setr _ lo hi _ => boundLegal lo && boundLegal hi
  | .flipr _ lo hi => boundLegal lo && boundLegal hi
  | .getr _ _ lo hi => boundLegal lo && boundLegal hi
  | .and _ _ => true
  | .or _ _ => true
  | .xor _ _ => true
  | .andn _ _ => true
  | .ovw _ _ _ _ n => boundLegal n
  | .rol _ n ring => boundLegal n && boundLegal ring
  | .ror _ n ring => boundLegal n && boundLegal ring
  | .len _ => true
  | .stb _ _ => true
  | .dbg rs sel => !sel || rs == 0
  | .perm _ _ => true
  | .sbox _ _ _ _ => true
  | .sub6 _ _ => true
  | .kse _ _ _ => true
  | .ksd _ _ _ => true
  | .ffn _ _ _ => true
  | .encb _ _ _ => true
  | .decb _ _ _ => true
  | .ldk _ => true
  | .kclose => true
  | .encs => true
  | .decs => true

end Sys2Proof
end

