-- ==== Sys2Proof/Decode.lean ====
section
/-! DEFINITION. The command encoding (spec/30_encoding.md R70 to R76): `decode`, total on every 32-bit word and
rejecting by name, and after it `encode`, the words of a well-formed command, from the same opcode map and formats.
A command word arrives as one 32-bit item, never as bytes (spec/20_memory.md R55), so decoding has no byte order. -/

namespace Sys2Proof

/-- The formats of 30_encoding.md R71. -/
inductive Format where
  | z
  | d
  | ds
  | dst
  | dn
  | sn
  | sg
  | n
  | dp
  | dr
  | dsr
  | w
  | rt
  | t
  | sx
  | sk
  | kr
deriving DecidableEq, Repr

/-- The 34 opcodes in use (30_encoding.md R73). -/
inductive Opcode where
  | new
  | ldb
  | clone
  | copy
  | clr
  | close
  | setb
  | flipb
  | getb
  | setr
  | flipr
  | getr
  | and
  | or
  | xor
  | andn
  | ovw
  | rol
  | ror
  | len
  | stb
  | dbg
  | perm
  | sbox
  | sub6
  | kse
  | ksd
  | ffn
  | encb
  | decb
  | ldk
  | kclose
  | encs
  | decs
deriving DecidableEq, Repr

/-- The opcodes, in the order of 30_encoding.md R73. -/
def Opcode.all : List Opcode :=
  [.new, .ldb, .clone, .copy, .clr, .close, .setb, .flipb, .getb, .setr, .flipr, .getr, .and, .or, .xor, .andn, .ovw] ++
  [.rol, .ror, .len, .stb, .dbg, .perm, .sbox, .sub6, .kse, .ksd, .ffn, .encb, .decb, .ldk, .kclose, .encs, .decs]

/-- The value of the field `op = cmd[31:26]` (30_encoding.md R73). -/
def Opcode.code : Opcode → BitVec 6
  | .new => 0x01#6
  | .ldb => 0x02#6
  | .clone => 0x03#6
  | .copy => 0x04#6
  | .clr => 0x05#6
  | .close => 0x06#6
  | .setb => 0x08#6
  | .flipb => 0x09#6
  | .getb => 0x0A#6
  | .setr => 0x0B#6
  | .flipr => 0x0C#6
  | .getr => 0x0D#6
  | .and => 0x10#6
  | .or => 0x11#6
  | .xor => 0x12#6
  | .andn => 0x13#6
  | .ovw => 0x14#6
  | .rol => 0x15#6
  | .ror => 0x16#6
  | .len => 0x17#6
  | .stb => 0x18#6
  | .dbg => 0x19#6
  | .perm => 0x20#6
  | .sbox => 0x21#6
  | .sub6 => 0x22#6
  | .kse => 0x28#6
  | .ksd => 0x29#6
  | .ffn => 0x2A#6
  | .encb => 0x2B#6
  | .decb => 0x2C#6
  | .ldk => 0x30#6
  | .kclose => 0x31#6
  | .encs => 0x32#6
  | .decs => 0x33#6

/-- The format of each command (30_encoding.md R73). -/
def Opcode.format : Opcode → Format
  | .new => .d
  | .ldb => .dn
  | .clone => .ds
  | .copy => .ds
  | .clr => .d
  | .close => .d
  | .setb => .dp
  | .flipb => .dp
  | .getb => .dp
  | .setr => .dr
  | .flipr => .dr
  | .getr => .dsr
  | .and => .ds
  | .or => .ds
  | .xor => .ds
  | .andn => .ds
  | .ovw => .w
  | .rol => .rt
  | .ror => .rt
  | .len => .d
  | .stb => .sn
  | .dbg => .sg
  | .perm => .t
  | .sbox => .sx
  | .sub6 => .sk
  | .kse => .kr
  | .ksd => .kr
  | .ffn => .dst
  | .encb => .dst
  | .decb => .dst
  | .ldk => .n
  | .kclose => .z
  | .encs => .z
  | .decs => .z

/-- The must-be-zero bits of each format: every bit below `op` that 30_encoding.md R71 does not list for it. -/
def Format.mustBeZero : Format → CmdWord
  | .z => 0x03FFFFFF#32
  | .d => 0x007FFFFF#32
  | .ds => 0x000FFFFF#32
  | .dst => 0x0001FFFF#32
  | .dn => 0x007FFFF0#32
  | .sn => 0x038FFFF0#32
  | .sg => 0x038FFFFE#32
  | .n => 0x03FFFFF0#32
  | .dp => 0x007FFF80#32
  | .dr => 0x007F8000#32
  | .dsr => 0x000FC000#32
  | .w => 0x00080000#32
  | .rt => 0x007FC000#32
  | .t => 0x007FFFF8#32
  | .sx => 0x007FFE00#32
  | .sk => 0x007FFFF8#32
  | .kr => 0x000FFFF0#32

/-- The must-be-zero bits of a command: those of its format, and the `v` bit of `FLIPB`, `GETB` (bit 6) and `FLIPR`
(bit 14) (30_encoding.md R71). -/
def Opcode.mustBeZero (o : Opcode) : CmdWord :=
  match o with
  | .flipb => o.format.mustBeZero ||| 0x00000040#32
  | .getb => o.format.mustBeZero ||| 0x00000040#32
  | .flipr => o.format.mustBeZero ||| 0x00004000#32
  | _ => o.format.mustBeZero

/-- `match` of a command: its word with every operand field zero (30_encoding.md R74). -/
def Opcode.matchWord (o : Opcode) : CmdWord := o.code ++ 0#26

/-- `mask` of a command: a 1 at every `op` bit and every must-be-zero bit (30_encoding.md R74). -/
def Opcode.maskWord (o : Opcode) : CmdWord := 0xFC000000#32 ||| o.mustBeZero

/-- The opcode with a given code, if the code is in the map (30_encoding.md R73); the others are reserved (R76). -/
def Opcode.ofCode (c : BitVec 6) : Option Opcode := Opcode.all.find? fun o => o.code == c

/-- The field of `len` bits of a command word that starts at bit `lo` (00_scope.md R13). -/
def cmdField (w : CmdWord) (lo len : Nat) : BitVec len := w.extractLsb' lo len

/-- `cmd[31:26]` (30_encoding.md R70). -/
def opField (w : CmdWord) : BitVec 6 := cmdField w 26 6

/-- The register number in a 3-bit field (30_encoding.md R72: used as it stands). -/
def regField (w : CmdWord) (lo : Nat) : Reg := (cmdField w lo 3).toFin

/-- `rd = cmd[25:23]` (30_encoding.md R70). -/
def rdField (w : CmdWord) : Reg := regField w 23

/-- `rs = cmd[22:20]` (30_encoding.md R70). -/
def rsField (w : CmdWord) : Reg := regField w 20

/-- `rt = cmd[19:17]` of the format `DST` (30_encoding.md R71). -/
def rtField (w : CmdWord) : Reg := regField w 17

/-- A one-bit field (30_encoding.md R71). -/
def flagField (w : CmdWord) (i : Nat) : Bool := w.getLsbD i

/-- The table number of a permutation table (30_encoding.md R72, 41_permutation.md R131). -/
def PermTable.code : PermTable → BitVec 3
  | .ip => 0#3
  | .fp => 1#3
  | .pc1 => 2#3
  | .pc2 => 3#3
  | .e => 4#3
  | .p => 5#3

/-- The table a number selects; 6 and 7 select none (30_encoding.md R72). -/
def PermTable.ofCode (t : BitVec 3) : Option PermTable :=
  match t.toNat with
  | 0 => some .ip
  | 1 => some .fp
  | 2 => some .pc1
  | 3 => some .pc2
  | 4 => some .e
  | 5 => some .p
  | _ => none

/-- Why a word is no command (30_encoding.md R75 step 2, R76). Each of them makes the engine fault `E_ILLEGAL`. -/
inductive DecodeError where
  /-- `op` is not in the opcode map (R73). -/
  | reservedOpcode
  /-- A bit its format does not use is 1 (R71). -/
  | mustBeZeroBit
  /-- A field is outside its legal range (R72), or `DBG` has `sel = 1` and `rs ≠ 0` (R75). -/
  | fieldRange
deriving DecidableEq, Repr

/-- The operands of a command whose opcode is `o`, taken from the fields of its format (30_encoding.md R71); `none` only
for a table number that names no table. -/
def operands (o : Opcode) (w : CmdWord) : Option Instr :=
  match o with
  | .new => some (.new (rdField w))
  | .ldb => some (.ldb (rdField w) (cmdField w 0 4))
  | .clone => some (.clone (rdField w) (rsField w))
  | .copy => some (.copy (rdField w) (rsField w))
  | .clr => some (.clr (rdField w))
  | .close => some (.close (rdField w))
  | .setb => some (.setb (rdField w) (cmdField w 0 6) (flagField w 6))
  | .flipb => some (.flipb (rdField w) (cmdField w 0 6))
  | .getb => some (.getb (rdField w) (cmdField w 0 6))
  | .setr => some (.setr (rdField w) (cmdField w 0 7) (cmdField w 7 7) (flagField w 14))
  | .flipr => some (.flipr (rdField w) (cmdField w 0 7) (cmdField w 7 7))
  | .getr => some (.getr (rdField w) (rsField w) (cmdField w 0 7) (cmdField w 7 7))
  | .and => some (.and (rdField w) (rsField w))
  | .or => some (.or (rdField w) (rsField w))
  | .xor => some (.xor (rdField w) (rsField w))
  | .andn => some (.andn (rdField w) (rsField w))
  | .ovw => some (.ovw (rdField w) (rsField w) (cmdField w 13 6) (cmdField w 7 6) (cmdField w 0 7))
  | .rol => some (.rol (rdField w) (cmdField w 0 7) (cmdField w 7 7))
  | .ror => some (.ror (rdField w) (cmdField w 0 7) (cmdField w 7 7))
  | .len => some (.len (rdField w))
  | .stb => some (.stb (rsField w) (cmdField w 0 4))
  | .dbg => some (.dbg (rsField w) (flagField w 0))
  | .perm => (PermTable.ofCode (cmdField w 0 3)).map fun t => .perm (rdField w) t
  | .sbox => some (.sbox (rdField w) (cmdField w 0 3) (cmdField w 3 4) (cmdField w 7 2))
  | .sub6 => some (.sub6 (rdField w) (cmdField w 0 3))
  | .kse => some (.kse (rdField w) (rsField w) (cmdField w 0 4))
  | .ksd => some (.ksd (rdField w) (rsField w) (cmdField w 0 4))
  | .ffn => some (.ffn (rdField w) (rsField w) (rtField w))
  | .encb => some (.encb (rdField w) (rsField w) (rtField w))
  | .decb => some (.decb (rdField w) (rsField w) (rtField w))
  | .ldk => some (.ldk (cmdField w 0 4))
  | .kclose => some .kclose
  | .encs => some .encs
  | .decs => some .decs

/-- The command a word stands for, or the reason it stands for none (30_encoding.md R75 step 2, R76). -/
def decode (w : CmdWord) : Except DecodeError Instr :=
  match Opcode.ofCode (opField w) with
  | none => .error .reservedOpcode
  | some o =>
    if w &&& o.mustBeZero = 0#32 then
      match operands o w with
      | none => .error .fieldRange
      | some i => if i.wellFormed then .ok i else .error .fieldRange
    else .error .mustBeZeroBit

/-- The opcode of a command (30_encoding.md R73). -/
def Instr.opcode : Instr → Opcode
  | .new _ => .new
  | .ldb _ _ => .ldb
  | .clone _ _ => .clone
  | .copy _ _ => .copy
  | .clr _ => .clr
  | .close _ => .close
  | .setb _ _ _ => .setb
  | .flipb _ _ => .flipb
  | .getb _ _ => .getb
  | .setr _ _ _ _ => .setr
  | .flipr _ _ _ => .flipr
  | .getr _ _ _ _ => .getr
  | .and _ _ => .and
  | .or _ _ => .or
  | .xor _ _ => .xor
  | .andn _ _ => .andn
  | .ovw _ _ _ _ _ => .ovw
  | .rol _ _ _ => .rol
  | .ror _ _ _ => .ror
  | .len _ => .len
  | .stb _ _ => .stb
  | .dbg _ _ => .dbg
  | .perm _ _ => .perm
  | .sbox _ _ _ _ => .sbox
  | .sub6 _ _ => .sub6
  | .kse _ _ _ => .kse
  | .ksd _ _ _ => .ksd
  | .ffn _ _ _ => .ffn
  | .encb _ _ _ => .encb
  | .decb _ _ _ => .decb
  | .ldk _ => .ldk
  | .kclose => .kclose
  | .encs => .encs
  | .decs => .decs

/-- `cmd = op·2^26 + rd·2^23 + rs·2^20 + low` (30_encoding.md R74), as the concatenation of the four fields of R70. -/
def cmdWord (o : Opcode) (rd rs : Reg) (low : BitVec 20) : CmdWord :=
  o.code ++ BitVec.ofFin (w := 3) rd ++ BitVec.ofFin (w := 3) rs ++ low

/-- The word of a command, unused fields zero (30_encoding.md R71, R74). -/
def encode (i : Instr) : CmdWord :=
  match i with
  | .new rd => cmdWord .new rd 0 0#20
  | .ldb rd n => cmdWord .ldb rd 0 (0#16 ++ n)
  | .clone rd rs => cmdWord .clone rd rs 0#20
  | .copy rd rs => cmdWord .copy rd rs 0#20
  | .clr rd => cmdWord .clr rd 0 0#20
  | .close rd => cmdWord .close rd 0 0#20
  | .setb rd p v => cmdWord .setb rd 0 (0#13 ++ BitVec.ofBool v ++ p)
  | .flipb rd p => cmdWord .flipb rd 0 (0#14 ++ p)
  | .getb rd p => cmdWord .getb rd 0 (0#14 ++ p)
  | .setr rd lo hi v => cmdWord .setr rd 0 (0#5 ++ BitVec.ofBool v ++ hi ++ lo)
  | .flipr rd lo hi => cmdWord .flipr rd 0 (0#6 ++ hi ++ lo)
  | .getr rd rs lo hi => cmdWord .getr rd rs (0#6 ++ hi ++ lo)
  | .and rd rs => cmdWord .and rd rs 0#20
  | .or rd rs => cmdWord .or rd rs 0#20
  | .xor rd rs => cmdWord .xor rd rs 0#20
  | .andn rd rs => cmdWord .andn rd rs 0#20
  | .ovw rd rs pos sfrom n => cmdWord .ovw rd rs (0#1 ++ pos ++ sfrom ++ n)
  | .rol rd n ring => cmdWord .rol rd 0 (0#6 ++ ring ++ n)
  | .ror rd n ring => cmdWord .ror rd 0 (0#6 ++ ring ++ n)
  | .len rd => cmdWord .len rd 0 0#20
  | .stb rs n => cmdWord .stb 0 rs (0#16 ++ n)
  | .dbg rs sel => cmdWord .dbg 0 rs (0#19 ++ BitVec.ofBool sel)
  | .perm rd t => cmdWord .perm rd 0 (0#17 ++ t.code)
  | .sbox rd k x y => cmdWord .sbox rd 0 (0#11 ++ y ++ x ++ k)
  | .sub6 rd k => cmdWord .sub6 rd 0 (0#17 ++ k)
  | .kse rd rs r => cmdWord .kse rd rs (0#16 ++ r)
  | .ksd rd rs r => cmdWord .ksd rd rs (0#16 ++ r)
  | .ffn rd rs rt => cmdWord .ffn rd rs (BitVec.ofFin (w := 3) rt ++ 0#17)
  | .encb rd rs rt => cmdWord .encb rd rs (BitVec.ofFin (w := 3) rt ++ 0#17)
  | .decb rd rs rt => cmdWord .decb rd rs (BitVec.ofFin (w := 3) rt ++ 0#17)
  | .ldk n => cmdWord .ldk 0 0 (0#16 ++ n)
  | .kclose => cmdWord .kclose 0 0 0#20
  | .encs => cmdWord .encs 0 0 0#20
  | .decs => cmdWord .decs 0 0 0#20

/-- The instruction the decoder reads from a word whose `nbits` low bits are `w` and whose other bits are zero, numbered as
spec/opcode_table.json numbers them (bit 0 least significant). A word comes as one 32-bit item (20_memory.md R55). -/
def tableWord (nbits w : Nat) : CmdWord := BitVec.ofNat 32 (w % 2 ^ nbits)

/-- What the decoder reads from a word of the opcode table; `none` where it refuses. -/
def decodeTableWord (nbits w : Nat) : Option Instr :=
  match decode (tableWord nbits w) with
  | .ok i => some i
  | .error _ => none

end Sys2Proof
end

