-- ==== Sys2Proof/Machine/Fetch.lean ====
section
/-! DEFINITION. How a command word reaches the engine (spec/30_encoding.md R75, spec/60_exceptions.md R204): the acceptance
of a word on `CMD`, what a step has to do next, and the word of the opcode table placed on the port. -/

namespace Sys2Proof.Machine

/-- What a step has to do. -/
inductive Fetched where
  /-- Nothing is executed; the state after the step. -/
  | idle (s : State)
  /-- The command in progress, its word in `cip`, is executed or goes on. -/
  | command (s : State)
deriving DecidableEq, Repr

/-- The engine takes a word: it is the command in progress and `BUSY = 1` (10_state.md R26). -/
def State.accept (s : State) (w : CmdWord) : State :=
  { s with status := { s.status with busy := true }, cip := w }

/-- What becomes of a word presented on `CMD`: while `BUSY = 1` or `HALT = 1` it is not accepted, and no state changes
(30_encoding.md R75 step 1, 60_exceptions.md R204). -/
def State.offer (s : State) (w : CmdWord) : Fetched :=
  if s.status.halt || s.status.busy then .idle s else .command (s.accept w)

/-- The next thing the build `B` has to do: a reset that is asserted (70_reset_and_hazards.md R220); else the command in
progress; else the next word of the host, which presents it when `BUSY = 0` (70_reset_and_hazards.md R223;
notes/assumptions/1.md) and loses it when `HALT = 1`. With no word to present the engine waits. -/
def fetchOn (B : Build) (s : State) : Fetched :=
  if s.resetPin then .idle (s.resetOn B)
  else if s.status.busy && !s.status.halt then .command s
  else
    match s.cmd with
    | [] => .idle s
    | w :: rest => { s with cmd := rest }.offer w

/-- A word that is no command: `E_ILLEGAL` (30_encoding.md R75 step 2, R76). -/
def illegalWord (s : State) : Result := trap .illegal s

/-- The command in progress, decoded and run by `run`, or `E_ILLEGAL` (30_encoding.md R75 steps 2 to 4). -/
def runCommand (run : Instr → State → Result) (s : State) : Result :=
  match decode s.cip with
  | .ok i => run i s
  | .error _ => illegalWord s

/-- One atomic step of the build `B` whose commands are run by `run` (00_scope.md R8, 30_encoding.md R75). -/
def stepBy (B : Build) (run : Instr → State → Result) (s : State) : Result :=
  match fetchOn B s with
  | .idle t => .next t
  | .command t => runCommand run t

/-- A word of the opcode table placed where the next step takes its command: first on the port, with the engine ready to
accept it (notes/assumptions/8.md). -/
def State.placeWord (s : State) (w : CmdWord) : State :=
  { s with cmd := w :: s.cmd, status := { busy := false, halt := false }, resetPin := false }

end Sys2Proof.Machine
end

