-- ==== Sys2Proof/Machine/Step.lean ====
section
/-! DEFINITION. One atomic step of the engine (spec/00_scope.md R8, spec/30_encoding.md R75). -/

namespace Sys2Proof.Machine

/-- One step of this hardware: the next command, run by `exec` (30_encoding.md R75). -/
def step (s : State) : Host.Outcome State Fault Refusal := stepBy Build.des exec s

/-- `s` with the word of the opcode table where the next step takes its command from (notes/assumptions/8.md). -/
def State.withFetchWord (s : State) (nbits w : Nat) : State := s.placeWord (tableWord nbits w)

end Sys2Proof.Machine
end

