-- ==== Sys2Proof/Machine/OnBuild.lean ====
section
/-! DEFINITION. The machine with its build as an argument (spec/00_scope.md R6, spec/10_state.md R31): the same meanings, those
that read the round count, the block size, the byte lane order or a table taking them from the build `B`. `exec` and `step` are
this machine at `Build.des` (Sys2Proof/Laws/OnBuild.lean). -/

namespace Sys2Proof.Machine

/-- What one atomic step of the command `i`, in progress in `s`, does on the build `B`. -/
def execOn (B : Build) (i : Instr) (s : State) : Result :=
  match i with
  | .new rd => execNew rd s
  | .ldb rd n => ldbOn B rd n s
  | .clone rd rs => execClone rd rs s
  | .copy rd rs => execCopy rd rs s
  | .clr rd => execClr rd s
  | .close rd => execClose rd s
  | .setb rd p v => execSetb rd p v s
  | .flipb rd p => execFlipb rd p s
  | .getb rd p => execGetb rd p s
  | .setr rd lo hi v => execSetr rd lo hi v s
  | .flipr rd lo hi => execFlipr rd lo hi s
  | .getr rd rs lo hi => execGetr rd rs lo hi s
  | .and rd rs => execAnd rd rs s
  | .or rd rs => execOr rd rs s
  | .xor rd rs => execXor rd rs s
  | .andn rd rs => execAndn rd rs s
  | .ovw rd rs pos sfrom n => execOvw rd rs pos sfrom n s
  | .rol rd n ring => execRol rd n ring s
  | .ror rd n ring => execRor rd n ring s
  | .len rd => execLen rd s
  | .stb rs n => stbOn B rs n s
  | .dbg rs sel => dbgOn B rs sel s
  | .perm rd t => permOn B rd t s
  | .sbox rd k x y => sboxOn B rd k x y s
  | .sub6 rd k => sub6On B rd k s
  | .kse rd rs r => kseOn B rd rs r s
  | .ksd rd rs r => ksdOn B rd rs r s
  | .ffn rd rs rt => ffnOn B rd rs rt s
  | .encb rd rs rt => encbOn B rd rs rt s
  | .decb rd rs rt => decbOn B rd rs rt s
  | .ldk n => ldkOn B n s
  | .kclose => execKclose s
  | .encs => encsOn B s
  | .decs => decsOn B s

/-- One atomic step of the build `B` (00_scope.md R8). -/
def stepOn (B : Build) (s : State) : Result := stepBy B (execOn B) s

end Sys2Proof.Machine
end

