-- ==== Sys2Proof/Safety.lean ====
section
/-! DEFINITION. What counts as a safe state, and the terms the statements use: the invariant of the machine, which registers a
command reads and writes, the state a completed command leaves written out field by field, and the chained streams of
spec/45_cbc_stream.md as functions of their blocks. -/

namespace Sys2Proof

/-- The buffer registers a command reads, so that a closed one faults `E_ARG` (40_bit_buffer.md R100 item 2;
41_permutation.md R132; 42_substitution.md R142, R143; 43_key_schedule.md R152; 44_feistel.md R160). -/
def Instr.reads : Instr → List Reg
  | .new _ => []
  | .ldb _ _ => []
  | .clone _ rs => [rs]
  | .copy rd rs => [rd, rs]
  | .clr rd => [rd]
  | .close _ => []
  | .setb rd _ _ => [rd]
  | .flipb rd _ => [rd]
  | .getb rd _ => [rd]
  | .setr rd _ _ _ => [rd]
  | .flipr rd _ _ => [rd]
  | .getr _ rs _ _ => [rs]
  | .and rd rs => [rd, rs]
  | .or rd rs => [rd, rs]
  | .xor rd rs => [rd, rs]
  | .andn rd rs => [rd, rs]
  | .ovw rd rs _ _ _ => [rd, rs]
  | .rol rd _ _ => [rd]
  | .ror rd _ _ => [rd]
  | .len rd => [rd]
  | .stb rs _ => [rs]
  | .dbg _ _ => []
  | .perm rd _ => [rd]
  | .sbox rd _ _ _ => [rd]
  | .sub6 rd _ => [rd]
  | .kse _ rs _ => [rs]
  | .ksd _ rs _ => [rs]
  | .ffn _ rs rt => [rs, rt]
  | .encb _ rs rt => [rs, rt]
  | .decb _ rs rt => [rs, rt]
  | .ldk _ => []
  | .kclose => []
  | .encs => []
  | .decs => []

/-- The buffer registers a command may write (40_bit_buffer.md R124; 43_key_schedule.md R152: `KSE` and `KSD` also change
`rs`; 10_state.md R24: the stream commands write none). -/
def Instr.writes : Instr → List Reg
  | .new rd => [rd]
  | .ldb rd _ => [rd]
  | .clone rd _ => [rd]
  | .copy rd _ => [rd]
  | .clr rd => [rd]
  | .close rd => [rd]
  | .setb rd _ _ => [rd]
  | .flipb rd _ => [rd]
  | .getb _ _ => []
  | .setr rd _ _ _ => [rd]
  | .flipr rd _ _ => [rd]
  | .getr rd _ _ _ => [rd]
  | .and rd _ => [rd]
  | .or rd _ => [rd]
  | .xor rd _ => [rd]
  | .andn rd _ => [rd]
  | .ovw rd _ _ _ _ => [rd]
  | .rol rd _ _ => [rd]
  | .ror rd _ _ => [rd]
  | .len _ => []
  | .stb _ _ => []
  | .dbg _ _ => []
  | .perm rd _ => [rd]
  | .sbox rd _ _ _ => [rd]
  | .sub6 rd _ => [rd]
  | .kse rd rs _ => [rd, rs]
  | .ksd rd rs _ => [rd, rs]
  | .ffn rd _ _ => [rd]
  | .encb rd _ _ => [rd]
  | .decb rd _ _ => [rd]
  | .ldk _ => []
  | .kclose => []
  | .encs => []
  | .decs => []

/-- The legal field values of a word whose opcode is `o`, by the table of 30_encoding.md R72 (and R75 step 2 for `DBG`). -/
def fieldsLegal (o : Opcode) (w : CmdWord) : Bool :=
  match o with
  | .ldb => (w.extractLsb' 0 4).toNat ≤ 8
  | .setr => (w.extractLsb' 0 7).toNat ≤ 64 && (w.extractLsb' 7 7).toNat ≤ 64
  | .flipr => (w.extractLsb' 0 7).toNat ≤ 64 && (w.extractLsb' 7 7).toNat ≤ 64
  | .getr => (w.extractLsb' 0 7).toNat ≤ 64 && (w.extractLsb' 7 7).toNat ≤ 64
  | .ovw => (w.extractLsb' 0 7).toNat ≤ 64
  | .rol => (w.extractLsb' 0 7).toNat ≤ 64 && (w.extractLsb' 7 7).toNat ≤ 64
  | .ror => (w.extractLsb' 0 7).toNat ≤ 64 && (w.extractLsb' 7 7).toNat ≤ 64
  | .perm => (w.extractLsb' 0 3).toNat ≤ 5
  | .dbg => !w.getLsbD 0 || w.extractLsb' 20 3 == 0
  | _ => true

/-- The reserved opcodes (30_encoding.md R76). -/
def reservedOpcodes : List Nat :=
  [0x00, 0x07, 0x0E, 0x0F, 0x1A, 0x1B, 0x1C, 0x1D, 0x1E, 0x1F, 0x23, 0x24, 0x25, 0x26, 0x27, 0x2D, 0x2E, 0x2F] ++
  [0x34, 0x35, 0x36, 0x37, 0x38, 0x39, 0x3A, 0x3B, 0x3C, 0x3D, 0x3E, 0x3F]

namespace Machine

/-- The invariant of the machine between atomic steps. -/
structure State.Inv (s : State) : Prop where
  /-- A closed register holds zero (10_state.md R23). -/
  closedZero : ∀ r : Reg, s.bufs[r].isOpen = false → s.bufs[r].v = 0
  /-- A closed `KEY` is zero (10_state.md R25). -/
  keyClosedZero : s.key.isOpen = false → s.key.len = 0 ∧ s.key.v = 0
  /-- `RES` is 0..64 (10_state.md R26). -/
  resRange : s.res.toNat ≤ 64
  /-- The round registers never outlive a step (44_feistel.md R165, 45_cbc_stream.md R186). -/
  roundZero : s.round = RoundRegs.zero
  /-- While `BUSY = 0` the stream registers are zero and `SST = S_IDLE` (10_state.md R28), and no word is in progress. -/
  idleZero : s.status.busy = false → s.stream = StreamRegs.zero ∧ s.cip = 0
  /-- `S_IDLE` holds no live data (10_state.md R28). -/
  sstIdleZero : s.stream.sst = .idle → s.stream = StreamRegs.zero
  /-- `S_EIV` and `S_EBLK` belong to `ENCS` (45_cbc_stream.md R173). -/
  encStates : s.stream.sst = .eiv ∨ s.stream.sst = .eblk → s.cip = 0xC8000000#32
  /-- `S_DIV`, `S_DFIRST` and `S_DBLK` belong to `DECS` (45_cbc_stream.md R173). -/
  decStates : s.stream.sst = .div ∨ s.stream.sst = .dfirst ∨ s.stream.sst = .dblk → s.cip = 0xCC000000#32
  /-- The byte counts are 0..8 (10_state.md R28). -/
  counts : s.stream.curn.toNat ≤ 8 ∧ s.stream.nxtn.toNat ≤ 8
  /-- A halted engine is not busy (60_exceptions.md R203). -/
  haltNotBusy : s.status.halt = true → s.status.busy = false
  /-- `HALT` is 1 exactly when a fault is recorded (10_state.md R26, 60_exceptions.md R201). -/
  haltFcode : s.status.halt = true ↔ s.fcode ≠ 0
  /-- `FCODE` is never 7, and 3 only in a build that is not this one (60_exceptions.md R201). -/
  fcodeRange : s.fcode ≠ 7 ∧ s.fcode ≠ 3
  /-- `FCMD` is written by fault entry only (10_state.md R26). -/
  noFaultNoFcmd : s.status.halt = false → s.fcmd = 0

/-- The values of 10_state.md R40, with `TESTEN = strap` and the build constants of this hardware. -/
structure State.AtReset (s : State) (strap : Bool) : Prop where
  bufs : ∀ r : Reg, s.bufs[r].isOpen = false ∧ s.bufs[r].v = 0
  key : s.key.isOpen = false ∧ s.key.len = 0 ∧ s.key.v = 0
  res : s.res = 0
  status : s.status.busy = false ∧ s.status.halt = false
  fault : s.fcode = 0 ∧ s.fcmd = 0
  round : s.round.wl = 0 ∧ s.round.wr = 0 ∧ s.round.wks = 0 ∧ s.round.wrk = 0 ∧ s.round.wt = 0 ∧ s.round.rnd = 0
  stream : s.stream.chain = 0 ∧ s.stream.cur = 0 ∧ s.stream.curn = 0 ∧ s.stream.nxt = 0 ∧ s.stream.nxtn = 0
  sst : s.stream.sst = .idle
  test : s.test = strap
  nwrites : s.nwrites = 0
  queues : s.inq = [] ∧ s.rng = []
  out : s.out = []

/-- `n` steps of `move`, one after the other. -/
def runBy (move : State → Result) : Nat → State → Result
  | 0, s => .next s
  | n + 1, s =>
    match move s with
    | .next t => runBy move n t
    | .fault r => .fault r
    | .refused r => .refused r

/-- `n` atomic steps of this hardware, one after the other (00_scope.md R8). -/
def runSteps (n : Nat) (s : State) : Result := runBy step n s

/-- The engine is ready for a word: not in reset, not busy, not halted (10_state.md R29). -/
def State.Ready (s : State) : Prop := s.resetPin = false ∧ s.status.busy = false ∧ s.status.halt = false

/-- The state after a command that ends without a fault and writes nothing but what `s` already shows: `BUSY = 0`, no word in
progress, every other field as in `s` (70_reset_and_hazards.md R223). -/
def State.ended (s : State) : State := { s with status := { s.status with busy := false }, cip := 0 }

/-- The state after a command that ends without a fault and writes `v` to `B[rd]`: every other field but `BUSY` as in `s`
(00_scope.md R16). -/
def State.afterBuf (s : State) (rd : Reg) (v : Buf) : State :=
  { s with
    bufs := s.bufs.set rd { isOpen := true, v := v }
    status := { s.status with busy := false }
    cip := 0 }

/-- Fault entry written out (60_exceptions.md R203): the code, the word, the scrub, `BUSY = 0`, `HALT = 1`; every other field
as in `s`. -/
def State.faulted (s : State) (code : BitVec 3) : State :=
  { s with
    fcode := code
    fcmd := s.cip
    round := { wl := 0, wr := 0, wks := 0, wrk := 0, wt := 0, rnd := 0 }
    stream := { chain := 0, cur := 0, curn := 0, nxt := 0, nxtn := 0, sst := .idle }
    status := { busy := false, halt := true }
    cip := 0 }

/-- The state after a stream command ends: every working register zero, `SST = S_IDLE`, `BUSY = 0`, every other field as in
`s` (45_cbc_stream.md R173 *Finish*, R186). -/
def State.streamEnded (s : State) : State :=
  { s with
    round := { wl := 0, wr := 0, wks := 0, wrk := 0, wt := 0, rnd := 0 }
    stream := { chain := 0, cur := 0, curn := 0, nxt := 0, nxtn := 0, sst := .idle }
    status := { s.status with busy := false }
    cip := 0 }

/-- The next write of the host is accepted (20_memory.md R57). -/
def State.WriteOk (s : State) : Prop := s.outFail ≠ some s.nwrites

/-- No write from now on is failed (20_memory.md R57). -/
def State.WritesOk (s : State) : Prop := ∀ k, s.nwrites ≤ k → s.outFail ≠ some k

/-- `v` is `FromBytes(bs)` with `MSB_FIRST` (20_memory.md R53). -/
def HoldsBytes (v : Buf) (bs : List Byte) : Prop :=
  ∀ p, p < 64 → v.getLsbD p = (decide (p < 8 * bs.length) && (bs.getD (p / 8) 0).getLsbD (7 - p % 8))

/-- `bs` is `ToBytes(v, n)` with `MSB_FIRST`; a position at or above 64 reads 0 (20_memory.md R54). -/
def Renders (bs : List Byte) (v : Buf) (n : Nat) : Prop :=
  bs.length = n ∧ ∀ j i, j < n → i < 8 → (bs.getD j 0).getLsbD (7 - i) = v.getLsbD (8 * j + i)

/-- `out` is `Permute(v, T)` as a value of 64 positions (41_permutation.md R130). -/
def Permutes (out v : Buf) (T : List Nat) : Prop :=
  ∀ i, i < 64 → out.getLsbD i = (decide (i < T.length) && v.getLsbD (T.getD i 0))

/-- `out` is `v` with positions 0..27 and 28..55 each rotated left by `n` as its own ring; a right rotation by `m` is a left
rotation by `28 - m` (43_key_schedule.md R151). -/
def RotatesHalves (out v : Buf) (n : Nat) : Prop :=
  ∀ i, i < 64 → out.getLsbD i =
    if i < 28 then v.getLsbD ((i + n) % 28)
    else if i < 56 then v.getLsbD (28 + (i - 28 + n) % 28)
    else v.getLsbD i

/-- `v` is the 4-position pattern of `SBox[k][y][x]`, most significant bit first, zero above (42_substitution.md R140). -/
def HoldsEntry (v : Buf) (k x y : Nat) : Prop :=
  ∀ i, i < 64 → v.getLsbD i = (decide (i < 4) && (sboxEntry Rom.des k x y).testBit (3 - i))

/-- What a key hook gives in round `r` when it is run in order from the key `k`: the state and the round key (43_key_schedule.md
R155). -/
def scheduled (hook : Buf → Nat → Buf × BitVec 48) (k : Buf) : Nat → Buf × BitVec 48
  | 0 => hook k 0
  | r + 1 => hook (scheduled hook k r).1 (r + 1)

/-- The ciphertext blocks of the 8-byte blocks given, chained from `chain` (45_cbc_stream.md R175 step 2). -/
def chained (key chain : Buf) : List (List Byte) → List Byte
  | [] => []
  | b :: rest =>
    let c := encryptBlock Build.des (fromBytes .msbFirst b ^^^ chain) key
    toBytes .msbFirst c 8 ++ chained key c rest

/-- The plaintext of the 8-byte ciphertext blocks given, chained from `chain`, the last one unpadded (45_cbc_stream.md R179). -/
def unchained (key chain : Buf) : List (List Byte) → List Byte
  | [] => []
  | [c] => unpad 8 (toBytes .msbFirst (decryptBlock Build.des (fromBytes .msbFirst c) key ^^^ chain) 8)
  | c :: rest =>
    toBytes .msbFirst (decryptBlock Build.des (fromBytes .msbFirst c) key ^^^ chain) 8 ++
      unchained key (fromBytes .msbFirst c) rest

/-- What `DECS` returns for the stream `ENCS` writes of the message `m`, by the table of 45_cbc_stream.md R183. -/
def returned (m : List Byte) : List Byte :=
  let r := m.length % 8
  if m = [] then m
  else if r = 0 then m.take (m.length - 8) ++ unpad 8 (m.drop (m.length - 8))
  else if m.getLastD 0 = BitVec.ofNat 8 (8 - r) then m ++ List.replicate (8 - r) (BitVec.ofNat 8 (8 - r))
  else m

end Machine

end Sys2Proof
end

