-- ==== Sys2Proof/Certificates/Slice0/Obligations.lean ====
section
/-! DEFINITION. The statements for the provers. The engine has no memory (spec/20_memory.md R50), so a frame says every field
of State; where a statement gives the next state as a record, every field it does not name is unchanged. The fields `cmd` and
`cip` are the model's own (notes/assumptions/1.md, 6.md): where a next state shows `cmd` with its first word gone, or `cip` zero
after a command has ended or faulted, that much is the model's choice and no rule of the spec. -/

open Sys2Proof Sys2Proof.Machine

/-! ## The command word -/

/-- spec/30_encoding.md R75 steps 2 to 4: a word that decodes to a command is executed; while `BUSY = 1` the command in
progress goes on (45_cbc_stream.md R173). The model's own choices are the list `cmd` in which the words wait
(notes/assumptions/1.md), the field `cip` (notes/assumptions/6.md) and that an idle engine with no word to take answers the same
state (notes/assumptions/7.md). This machine is the parametric one (00_scope.md R6) at the build `Build.des`. -/
def Obligations.StepRunsDecodedCommand : Prop :=
  (∀ (s : State) (i : Instr), s.resetPin = false → s.status.halt = false →
    (∀ w rest, s.status.busy = false → s.cmd = w :: rest → decode w = .ok i →
      step s = exec i { s with cmd := rest, cip := w, status := { busy := true, halt := false } }) ∧
    (s.status.busy = true → decode s.cip = .ok i → step s = exec i s) ∧
    (s.status.busy = false → s.cmd = [] → step s = .next s)) ∧
  (∀ (i : Instr) (s : State), exec i s = execOn Build.des i s) ∧
  (∀ s : State, step s = stepOn Build.des s)

/-- spec/30_encoding.md R76: exactly which words are illegal, and that such a word faults `E_ILLEGAL` and changes no other
state. That the word leaves the list `cmd` is the model's (notes/assumptions/1.md). -/
def Obligations.IllegalWordsFault : Prop :=
  (∀ w : CmdWord, (∃ e, decode w = .error e) ↔
    (w.extractLsb' 26 6).toNat ∈ reservedOpcodes ∨
      ∃ o : Opcode, o.code = w.extractLsb' 26 6 ∧ (w &&& o.mustBeZero ≠ 0#32 ∨ fieldsLegal o w = false)) ∧
  (∀ (s : State) (w : CmdWord) (rest : List CmdWord) (e : DecodeError), s.Ready → s.cmd = w :: rest →
    decode w = .error e → step s = .next ({ s with cmd := rest, cip := w }.faulted 4#3)) ∧
  (∃ e, decode 0x00000000#32 = .error e) ∧ (∃ e, decode 0xFFFFFFFF#32 = .error e)

/-- spec/30_encoding.md R70 to R75: every well-formed command decodes from its encoded word, every operand at every legal
value. -/
def Obligations.DecodeOfEncode : Prop :=
  ∀ i : Instr, i.wellFormed = true → decode (encode i) = .ok i

/-- spec/30_encoding.md R70 to R76: a word that decodes is the encoded word of the command it decodes to, and its fields are
legal: one word, one meaning. -/
def Obligations.EncodeOfDecode : Prop :=
  ∀ (w : CmdWord) (i : Instr), decode w = .ok i → encode i = w ∧ i.wellFormed = true

/-- Words written out from spec/30_encoding.md R71, R73 and the examples of R74 and of the commands' own rules. -/
def Obligations.SpecWordsDecode : Prop :=
  decode 0x48A00000#32 = .ok (.xor 1 2) ∧
  decode 0x55800E02#32 = .ok (.rol 3 2 28) ∧
  decode 0x08800002#32 = .ok (.ldb 1 2) ∧
  decode 0x2C004604#32 = .ok (.setr 0 4 12 true) ∧
  decode 0x35100808#32 = .ok (.getr 2 1 8 16) ∧
  decode 0x50108004#32 = .ok (.ovw 0 1 4 0 4) ∧
  decode 0x80000002#32 = .ok (.perm 0 .pc1) ∧
  decode 0x840000E8#32 = .ok (.sbox 0 0 13 1) ∧
  decode 0xA4800003#32 = .ok (.ksd 1 0 3) ∧
  decode 0xAFEA0000#32 = .ok (.encb 7 6 5) ∧
  decode 0x64300000#32 = .ok (.dbg 3 false) ∧
  decode 0xC000000F#32 = .ok (.ldk 15) ∧
  decode 0xCC000000#32 = .ok .decs

/-- spec/30_encoding.md R74: the encoded word as a number, `match` and `mask`, that a word selects a command when
`w & mask = match`, and that no word selects two. -/
def Obligations.WordSelectsOneCommand : Prop :=
  (∀ (o : Opcode) (rd rs : Reg) (low : BitVec 20),
    (cmdWord o rd rs low).toNat = o.code.toNat * 2 ^ 26 + rd.val * 2 ^ 23 + rs.val * 2 ^ 20 + low.toNat) ∧
  (∀ o : Opcode, o.matchWord = cmdWord o 0 0 0#20) ∧
  (∀ (o : Opcode) (j : Nat), o.maskWord.getLsbD j = (decide (26 ≤ j ∧ j < 32) || o.mustBeZero.getLsbD j)) ∧
  (∀ i : Instr, encode i &&& i.opcode.maskWord = i.opcode.matchWord) ∧
  (∀ (w : CmdWord) (o o' : Opcode), w &&& o.maskWord = o.matchWord → w &&& o'.maskWord = o'.matchWord → o = o') ∧
  (∀ (w : CmdWord) (i : Instr), decode w = .ok i → w &&& i.opcode.maskWord = i.opcode.matchWord) ∧
  encode (.xor 1 2) = 0x48A00000#32 ∧ encode (.rol 3 2 28) = 0x55800E02#32

/-! ## Reset, faults, halt, stall, mode -/

/-- spec/10_state.md R40: after reset every piece of state has the value of its table, `TEST` that of the strap at reset; `HALT`
and `FCODE` are those of the table for every build, whatever its round count and block size. -/
def Obligations.ResetValues : Prop :=
  State.reset.AtReset State.reset.testen ∧ (∀ s : State, s.onReset.AtReset s.testen) ∧
  ∀ (B : Build) (strap : Bool) (outFail : Option Nat) (cmd : List CmdWord),
    ∃ t : State, t.AtReset strap ∧ State.resetWith B strap outFail cmd =
      { t with
        status := { busy := false, halt := if 0 < B.nRounds ∧ 0 < B.blockBits then false else true }
        fcode := if 0 < B.nRounds ∧ 0 < B.blockBits then 0#3 else 3#3 }

/-- spec/70_reset_and_hazards.md R220: whatever the engine is doing, an asserted `RESET` ends it at once, on this hardware and
on every build that passes the construction check. That the request is a level the next step serves and clears is the model's
(notes/assumptions/5.md). -/
def Obligations.ResetEndsEverything : Prop :=
  ∀ s : State, s.resetPin = true →
    (∃ t, step s = .next t ∧ t.AtReset s.testen ∧ t.resetPin = false) ∧
    ∀ B : Build, 0 < B.nRounds → 0 < B.blockBits → ∃ t, stepOn B s = .next t ∧ t.AtReset s.testen ∧ t.resetPin = false

/-- spec/70_reset_and_hazards.md R221, spec/00_scope.md R7: a build whose round count or block size is not positive leaves
reset halted with `E_CONSTRAINT`, so that no command is ever accepted, however many steps that build takes; with 16 and 64 the
check passes. That the words wait in the list `cmd` is the model's (notes/assumptions/1.md). -/
def Obligations.ConstructionCheck : Prop :=
  ∀ (B : Build) (testen : Bool) (outFail : Option Nat) (cmd : List CmdWord),
    let t := State.resetWith B testen outFail cmd
    ((B.nRounds ≤ 0 ∨ B.blockBits ≤ 0) →
      t.fcode = 3#3 ∧ t.status.halt = true ∧ t.fcmd = 0#32 ∧ (∀ w, t.offer w = .idle t) ∧
        ∀ n, ∃ rest, runBy (stepOn B) n t = .next { t with cmd := rest }) ∧
    (0 < B.nRounds → 0 < B.blockBits → t.fcode = 0#3 ∧ t.status.halt = false) ∧
    (Build.des.nRounds = 16 ∧ Build.des.blockBits = 64 ∧ State.reset.fcode = 0#3 ∧ State.reset.status.halt = false)

/-- spec/60_exceptions.md R203: fault entry, the meaning of `raise` in every rule, field by field, with the codes of R201. -/
def Obligations.FaultEntry : Prop :=
  ∀ s : State, trap .arg s = .next (s.faulted 1#3) ∧ trap .io s = .next (s.faulted 2#3) ∧
    trap .constraint s = .next (s.faulted 3#3) ∧ trap .illegal s = .next (s.faulted 4#3) ∧
    trap .cap s = .next (s.faulted 5#3) ∧ trap .format s = .next (s.faulted 6#3)

/-- spec/60_exceptions.md R200 to R203, R208: a step that halts the engine has recorded one of the codes 1, 2, 4, 5, 6 and the
word in progress, has scrubbed the working registers, and has changed no buffer register, not `KEY`, not `RES`, not `TEST`;
for the codes 1, 4 and 5 no port has moved. -/
def Obligations.FaultsArePrecise : Prop :=
  ∀ s t : State, s.resetPin = false → s.status.halt = false → step s = .next t → t.status.halt = true →
    t.fcode ∈ [1#3, 2#3, 4#3, 5#3, 6#3] ∧
    t.fcmd = (if s.status.busy then s.cip else s.cmd.headD 0) ∧
    t.status.busy = false ∧ t.round = RoundRegs.zero ∧ t.stream = StreamRegs.zero ∧
    t.bufs = s.bufs ∧ t.key = s.key ∧ t.res = s.res ∧ t.test = s.test ∧
    (t.fcode ∈ [1#3, 4#3, 5#3] → t.inq = s.inq ∧ t.out = s.out ∧ t.rng = s.rng ∧ t.nwrites = s.nwrites)

/-- spec/60_exceptions.md R204: while `HALT = 1` or `BUSY = 1` a word presented on `CMD` changes nothing; a halted engine stays
as it is, `HALT`, `FCODE` and `FCMD` included, however many steps pass without a reset. That
a halted engine takes the words off the list `cmd` is the model's (notes/assumptions/1.md). -/
def Obligations.HaltIgnoresWords : Prop :=
  (∀ (s : State) (w : CmdWord), s.status.halt = true ∨ s.status.busy = true → s.offer w = .idle s) ∧
  ∀ (n : Nat) (s : State), s.status.halt = true → s.resetPin = false →
    ∃ rest, runSteps n s = .next { s with cmd := rest }

/-- spec/60_exceptions.md R200, R203, R207: a fault is a next state and a stall is a next state, so every step answers one. That
a stall repeats the state is the model's (notes/assumptions/7.md). -/
def Obligations.StepNeverStops : Prop :=
  ∀ s : State, ∃ t, step s = .next t

/-- spec/60_exceptions.md R207: a read or draw that stalls changes nothing, and once the missing bytes or the draw arrive the
step happens as if they had been there at first: `LDB` and `LDK` of any count, and every state of `ENCS` and `DECS` that reads
or draws. The model's own choices: a stalled step answers the same state (notes/assumptions/7.md), the host extends the queues
between two steps (notes/assumptions/2.md), `cip` is zero when a command has ended (notes/assumptions/6.md), and every round
register is zero after a block (notes/assumptions/11.md). -/
def Obligations.StallWaits : Prop :=
  (∀ (n : Nat) (q : List InItem), readFully n q = .starved ↔ ∃ bs : List Byte, bs.length < n ∧ q = bs.map InItem.byte) ∧
  (∀ (i : Instr) (s : State),
    (∃ rd n, i = .ldb rd n ∧ readFully n.toNat s.inq = .starved) ∨
    (∃ n, i = .ldk n ∧ readFully n.toNat s.inq = .starved) ∨
    (i = .encs ∧ s.stream.sst = .eiv ∧ s.rng = []) ∨
    (i = .encs ∧ s.stream.sst = .eblk ∧ readFully 8 s.inq = .starved) ∨
    (i = .decs ∧ s.stream.sst ∈ [.div, .dfirst, .dblk] ∧ readFully 8 s.inq = .starved) →
    exec i s = .next s) ∧
  (∀ (s : State) (bs more : List Byte) (rest : List InItem), s.inq = bs.map InItem.byte →
    let u := s.supplyIn (more.map InItem.byte ++ rest)
    (∀ (rd : Reg) (n : BitVec 4), n.toNat ≤ 8 → bs.length + more.length = n.toNat →
      ∃ v, HoldsBytes v (bs ++ more) ∧ exec (.ldb rd n) u = .next ({ s with inq := rest }.afterBuf rd v)) ∧
    (∀ n : BitVec 4, bs.length + more.length = n.toNat →
      ∃ v, HoldsBytes v ((bs ++ more).take 8) ∧
        exec (.ldk n) u = .next { s.ended with inq := rest, key := { isOpen := true, len := n, v := v } }) ∧
    (bs.length + more.length = 8 →
      (s.stream.sst = .eblk → s.WriteOk → ∃ x y o, HoldsBytes x (bs ++ more) ∧
        y = encryptBlock Build.des (x ^^^ s.stream.chain) s.key.v ∧ Renders o y 8 ∧ exec .encs u =
          .next { s with inq := rest, out := s.out ++ o, nwrites := s.nwrites + 1, round := RoundRegs.zero,
                         stream := { s.stream with chain := y, cur := x ^^^ s.stream.chain, curn := 8#4 } }) ∧
      (s.stream.sst = .div → ∃ x, HoldsBytes x (bs ++ more) ∧
        exec .decs u = .next { s with inq := rest, stream := { s.stream with chain := x, sst := .dfirst } }) ∧
      (s.stream.sst = .dfirst → ∃ x, HoldsBytes x (bs ++ more) ∧
        exec .decs u = .next { s with inq := rest, stream := { s.stream with cur := x, curn := 8#4, sst := .dblk } }) ∧
      (s.stream.sst = .dblk → s.WriteOk → ∃ x p, HoldsBytes x (bs ++ more) ∧
        Renders p (decryptBlock Build.des s.stream.cur s.key.v ^^^ s.stream.chain) 8 ∧ exec .decs u =
          .next { s with inq := rest, out := s.out ++ p, nwrites := s.nwrites + 1, round := RoundRegs.zero,
                         stream := { s.stream with chain := s.stream.cur, cur := x, curn := 8#4,
                                                   nxt := x, nxtn := 8#4 } }))) ∧
  (∀ (s : State) (d : Draw), s.stream.sst = .eiv → s.rng = [] → s.WriteOk → ∃ c, HoldsBytes c d.toList ∧
    exec .encs (s.supplyDraw d) =
      .next { s with out := s.out ++ d.toList, nwrites := s.nwrites + 1,
                     stream := { s.stream with chain := c, sst := .eblk } })

/-- spec/60_exceptions.md R206: no command changes the mode, nothing but `DBG` depends on it, and in normal mode `DBG` is an
illegal command. -/
def Obligations.ModeGatesDbgOnly : Prop :=
  (∀ (i : Instr) (s t : State), exec i s = .next t → t.test = s.test) ∧
  (∀ (i : Instr) (s t : State) (b : Bool), (∀ rs sel, i ≠ .dbg rs sel) → exec i s = .next t →
    exec i { s with test := b } = .next { t with test := b }) ∧
  (∀ (rs : Reg) (sel : Bool) (s : State), s.test = false → exec (.dbg rs sel) s = .next (s.faulted 4#3))

/-- spec/60_exceptions.md R206, spec/10_state.md R25: in normal mode no command but the two stream commands can tell one key
from another: two runs that differ in `KEY` alone go on differing in `KEY` alone. -/
def Obligations.KeyHiddenInNormalMode : Prop :=
  ∀ (i : Instr) (s t : State) (k : KeyReg), s.test = false → (∀ n, i ≠ .ldk n) → i ≠ .kclose → i ≠ .encs → i ≠ .decs →
    exec i s = .next t → exec i { s with key := k } = .next { t with key := k }

/-! ## Invariants and frames over all commands -/

/-- The invariant of spec/10_state.md R23, R25, R26, R28, spec/45_cbc_stream.md R173, R186 and spec/60_exceptions.md R201, R203,
kept by every step from every state that has it, on this hardware and on every build that fits. Two clauses are the model's:
that `cip` is zero when idle (notes/assumptions/6.md), and that the round registers are zero between steps also while a stream
command is in progress (notes/assumptions/11.md). What a build with a block of other than 64 bits, another round count or
other tables does is the model's too (notes/assumptions/13.md, 14.md). -/
def Obligations.StepKeepsInv : Prop :=
  ∀ s t : State, s.Inv →
    (step s = .next t → t.Inv) ∧ ∀ B : Build, B.Fits → stepOn B s = .next t → t.Inv

/-- The invariant holds at reset (spec/10_state.md R23, R40). -/
def Obligations.InvAtReset : Prop := State.reset.Inv

/-- spec/10_state.md R23: the scrub contract. Reset establishes it, every step keeps it, and `CLOSE` is the only command that
clears `open`, zeroing the value in the same step. -/
def Obligations.ClosedRegistersAreZero : Prop :=
  (∀ (s : State) (r : Reg), s.onReset.bufs[r].isOpen = false ∧ s.onReset.bufs[r].v = 0) ∧
  (∀ (s t : State), (∀ r : Reg, s.bufs[r].isOpen = false → s.bufs[r].v = 0) → step s = .next t →
    ∀ r : Reg, t.bufs[r].isOpen = false → t.bufs[r].v = 0) ∧
  (∀ (i : Instr) (s t : State) (r : Reg), exec i s = .next t → s.bufs[r].isOpen = true → t.bufs[r].isOpen = false →
    i = .close r ∧ t.bufs[r].v = 0)

/-- spec/40_bit_buffer.md R124, spec/43_key_schedule.md R152, spec/10_state.md R24: a command changes no buffer register but
its own, on this hardware and on every build that fits (what one with a block of other than 64 bits, another round count or
other tables does is the model's, notes/assumptions/13.md, 14.md). -/
def Obligations.OnlyOperandsWritten : Prop :=
  ∀ (i : Instr) (s t : State) (r : Reg), r ∉ i.writes →
    (exec i s = .next t → t.bufs[r] = s.bufs[r]) ∧ ∀ B : Build, B.Fits → execOn B i s = .next t → t.bufs[r] = s.bufs[r]

/-- spec/10_state.md R25, R26: `KEY` is written by `LDK` and `KCLOSE` only, `RES` by `GETB` and `LEN` only, and by them with a
value 0..1 or 0..64. -/
def Obligations.KeyAndResWriters : Prop :=
  (∀ (i : Instr) (s t : State), exec i s = .next t → (∀ n, i ≠ .ldk n) → i ≠ .kclose → t.key = s.key) ∧
  (∀ (i : Instr) (s t : State), exec i s = .next t → (∀ rd p, i ≠ .getb rd p) → (∀ rd, i ≠ .len rd) → t.res = s.res) ∧
  (∀ (s t : State) (rd : Reg) (p : BitVec 6), exec (.getb rd p) s = .next t → t.res = s.res ∨ t.res.toNat ≤ 1) ∧
  (∀ (s t : State) (rd : Reg), exec (.len rd) s = .next t → t.res = s.res ∨ t.res.toNat ≤ 64)

/-- spec/10_state.md R29, spec/20_memory.md R62: `OUT` only grows, `IN` and `RNG` only shrink from their front, `NWRITES` only
counts up; and a command that spec/40_bit_buffer.md R124 and spec/20_memory.md R60 give no port leaves it alone (`S_EIV` is a
state of `ENCS`, by the invariant; `StepKeepsInv`). -/
def Obligations.PortsMoveForward : Prop :=
  ∀ (i : Instr) (s t : State), exec i s = .next t →
    s.out <+: t.out ∧ t.inq <:+ s.inq ∧ t.rng <:+ s.rng ∧ s.nwrites ≤ t.nwrites ∧
    ((∀ rd n, i ≠ .ldb rd n) → (∀ n, i ≠ .ldk n) → i ≠ .encs → i ≠ .decs → t.inq = s.inq) ∧
    ((∀ rs n, i ≠ .stb rs n) → (∀ rs sel, i ≠ .dbg rs sel) → i ≠ .encs → i ≠ .decs →
      t.out = s.out ∧ t.nwrites = s.nwrites) ∧
    (i ≠ .encs → (i = .decs → s.stream.sst ≠ .eiv) → t.rng = s.rng)

/-- spec/40_bit_buffer.md R100 item 2 (and the rules of the other families): a command that reads a closed register raises
`E_ARG` and writes nothing. -/
def Obligations.ClosedOperandFaults : Prop :=
  ∀ (i : Instr) (s : State) (r : Reg), r ∈ i.reads → s.bufs[r].isOpen = false → exec i s = .next (s.faulted 1#3)

/-! ## Bit-buffer commands -/

/-- spec/40_bit_buffer.md R101, R105, R106: `NEW` and `CLOSE` in every state, `CLR` on an open register (a closed one faults
`E_ARG`). -/
def Obligations.NewClrCloseCommands : Prop :=
  ∀ (rd : Reg) (s : State),
    exec (.new rd) s = .next (s.afterBuf rd 0) ∧
    (s.bufs[rd].isOpen = true → exec (.clr rd) s = .next (s.afterBuf rd 0)) ∧
    (s.bufs[rd].isOpen = false → exec (.clr rd) s = .next (s.faulted 1#3)) ∧
    exec (.close rd) s = .next { s.ended with bufs := s.bufs.set rd { isOpen := false, v := 0 } }

/-- spec/40_bit_buffer.md R102, spec/20_memory.md R53, R56: `LDB` from the bytes read, whole or cut short by `eos`; `E_IO` at an
`err`, the register unchanged; a stall when the bytes are not there yet. -/
def Obligations.LdbCommand : Prop :=
  ∀ (rd : Reg) (n : BitVec 4) (s : State), n.toNat ≤ 8 →
    (∀ (bs : List Byte) (rest : List InItem), bs.length = n.toNat → s.inq = bs.map InItem.byte ++ rest →
      ∃ v, HoldsBytes v bs ∧ exec (.ldb rd n) s = .next ({ s with inq := rest }.afterBuf rd v)) ∧
    (∀ (bs : List Byte) (rest : List InItem), bs.length < n.toNat → s.inq = bs.map InItem.byte ++ InItem.eos :: rest →
      ∃ v, HoldsBytes v bs ∧ exec (.ldb rd n) s = .next ({ s with inq := rest }.afterBuf rd v)) ∧
    (∀ (bs : List Byte) (rest : List InItem), bs.length < n.toNat → s.inq = bs.map InItem.byte ++ InItem.err :: rest →
      exec (.ldb rd n) s = .next ({ s with inq := rest }.faulted 2#3)) ∧
    (∀ bs : List Byte, bs.length < n.toNat → s.inq = bs.map InItem.byte → exec (.ldb rd n) s = .next s)

/-- spec/40_bit_buffer.md R103, R104: `CLONE` into any register, `COPY` into an open one; the source may be the destination. -/
def Obligations.CloneCopyCommands : Prop :=
  ∀ (rd rs : Reg) (s : State), s.bufs[rs].isOpen = true →
    exec (.clone rd rs) s = .next (s.afterBuf rd s.bufs[rs].v) ∧
    (s.bufs[rd].isOpen = true → exec (.copy rd rs) s = .next (s.afterBuf rd s.bufs[rs].v)) ∧
    (s.bufs[rd].isOpen = false → exec (.copy rd rs) s = .next (s.faulted 1#3))

/-- spec/40_bit_buffer.md R107, R108: one position set or flipped, every other unchanged. -/
def Obligations.SingleBitCommands : Prop :=
  ∀ (rd : Reg) (p : BitVec 6) (b : Bool) (s : State), s.bufs[rd].isOpen = true →
    (∃ v : Buf, (∀ i, i < 64 → v.getLsbD i = if i = p.toNat then b else s.bufs[rd].v.getLsbD i) ∧
      exec (.setb rd p b) s = .next (s.afterBuf rd v)) ∧
    (∃ v : Buf, (∀ i, i < 64 → v.getLsbD i = (s.bufs[rd].v.getLsbD i ^^ decide (i = p.toNat))) ∧
      exec (.flipb rd p) s = .next (s.afterBuf rd v))

/-- spec/40_bit_buffer.md R109, R120, spec/00_scope.md R12: `GETB` writes the bit to `RES`; `LEN` writes 0 for an empty buffer,
else one more than the highest set position. -/
def Obligations.ResultCommands : Prop :=
  ∀ (rd : Reg) (p : BitVec 6) (s : State), s.bufs[rd].isOpen = true →
    exec (.getb rd p) s = .next { s.ended with res := if s.bufs[rd].v.getLsbD p.toNat then 1#7 else 0#7 } ∧
    (∃ n : BitVec 7, n.toNat ≤ 64 ∧ (∀ i, n.toNat ≤ i → s.bufs[rd].v.getLsbD i = false) ∧
      (0 < n.toNat → s.bufs[rd].v.getLsbD (n.toNat - 1) = true) ∧
      exec (.len rd) s = .next { s.ended with res := n })

/-- spec/40_bit_buffer.md R110, R111: the half-open range set or flipped, every other position unchanged; `E_ARG` when
`from > to`. -/
def Obligations.RangeCommands : Prop :=
  ∀ (rd : Reg) (lo hi : BitVec 7) (b : Bool) (s : State), s.bufs[rd].isOpen = true →
    (lo.toNat ≤ hi.toNat →
      (∃ v : Buf, (∀ i, i < 64 → v.getLsbD i = if lo.toNat ≤ i ∧ i < hi.toNat then b else s.bufs[rd].v.getLsbD i) ∧
        exec (.setr rd lo hi b) s = .next (s.afterBuf rd v)) ∧
      (∃ v : Buf, (∀ i, i < 64 →
          v.getLsbD i = (s.bufs[rd].v.getLsbD i ^^ decide (lo.toNat ≤ i ∧ i < hi.toNat))) ∧
        exec (.flipr rd lo hi) s = .next (s.afterBuf rd v))) ∧
    (hi.toNat < lo.toNat →
      exec (.setr rd lo hi b) s = .next (s.faulted 1#3) ∧ exec (.flipr rd lo hi) s = .next (s.faulted 1#3))

/-- spec/40_bit_buffer.md R112, spec/00_scope.md R11: the sub-range moved to position 0, zero above; `E_ARG` when
`from > to`. -/
def Obligations.GetrCommand : Prop :=
  ∀ (rd rs : Reg) (lo hi : BitVec 7) (s : State), s.bufs[rs].isOpen = true →
    (lo.toNat ≤ hi.toNat →
      ∃ v : Buf, (∀ i, i < 64 →
          v.getLsbD i = (decide (i < hi.toNat - lo.toNat) && s.bufs[rs].v.getLsbD (lo.toNat + i))) ∧
        exec (.getr rd rs lo hi) s = .next (s.afterBuf rd v)) ∧
    (hi.toNat < lo.toNat → exec (.getr rd rs lo hi) s = .next (s.faulted 1#3))

/-- spec/40_bit_buffer.md R113 to R116: position by position over all 64 positions; the source may be the receiver. -/
def Obligations.LogicCommands : Prop :=
  ∀ (rd rs : Reg) (s : State), s.bufs[rd].isOpen = true → s.bufs[rs].isOpen = true →
    let d := s.bufs[rd].v
    let x := s.bufs[rs].v
    (∃ v : Buf, (∀ i, i < 64 → v.getLsbD i = (d.getLsbD i && x.getLsbD i)) ∧
      exec (.and rd rs) s = .next (s.afterBuf rd v)) ∧
    (∃ v : Buf, (∀ i, i < 64 → v.getLsbD i = (d.getLsbD i || x.getLsbD i)) ∧
      exec (.or rd rs) s = .next (s.afterBuf rd v)) ∧
    (∃ v : Buf, (∀ i, i < 64 → v.getLsbD i = (d.getLsbD i ^^ x.getLsbD i)) ∧
      exec (.xor rd rs) s = .next (s.afterBuf rd v)) ∧
    (∃ v : Buf, (∀ i, i < 64 → v.getLsbD i = (d.getLsbD i && !x.getLsbD i)) ∧
      exec (.andn rd rs) s = .next (s.afterBuf rd v))

/-- spec/40_bit_buffer.md R117, R100 item 5: `n` positions of the source from `sfrom` replace those of the receiver from `pos`;
a source position at or above 64 reads 0; `E_CAP` when `pos + n > 64`, after the closed registers. -/
def Obligations.OvwCommand : Prop :=
  ∀ (rd rs : Reg) (pos sfrom : BitVec 6) (n : BitVec 7) (s : State),
    s.bufs[rd].isOpen = true → s.bufs[rs].isOpen = true →
    (pos.toNat + n.toNat ≤ 64 →
      ∃ v : Buf, (∀ i, i < 64 → v.getLsbD i =
          if pos.toNat ≤ i ∧ i < pos.toNat + n.toNat then s.bufs[rs].v.getLsbD (sfrom.toNat + (i - pos.toNat))
          else s.bufs[rd].v.getLsbD i) ∧
        exec (.ovw rd rs pos sfrom n) s = .next (s.afterBuf rd v)) ∧
    (64 < pos.toNat + n.toNat → exec (.ovw rd rs pos sfrom n) s = .next (s.faulted 5#3))

/-- spec/40_bit_buffer.md R118, R119: the first `ring` positions rotated, the others unchanged; `E_ARG` when `n > ring`. -/
def Obligations.RotateCommands : Prop :=
  ∀ (rd : Reg) (n ring : BitVec 7) (s : State), s.bufs[rd].isOpen = true →
    (n.toNat ≤ ring.toNat → ring.toNat ≤ 64 →
      (∃ v : Buf, (∀ i, i < 64 → v.getLsbD i =
          if i < ring.toNat then s.bufs[rd].v.getLsbD ((i + n.toNat) % ring.toNat) else s.bufs[rd].v.getLsbD i) ∧
        exec (.rol rd n ring) s = .next (s.afterBuf rd v)) ∧
      (∃ v : Buf, (∀ i, i < 64 → if i < ring.toNat then v.getLsbD ((i + n.toNat) % ring.toNat) = s.bufs[rd].v.getLsbD i
          else v.getLsbD i = s.bufs[rd].v.getLsbD i) ∧
        exec (.ror rd n ring) s = .next (s.afterBuf rd v))) ∧
    (ring.toNat < n.toNat →
      exec (.rol rd n ring) s = .next (s.faulted 1#3) ∧ exec (.ror rd n ring) s = .next (s.faulted 1#3))

/-- spec/40_bit_buffer.md R123: the cyclic-shift inverse law, for every `n ≤ ring ≤ 64` and every value, and
`ROL rd, n, ring` equals `ROR rd, ring-n, ring`. -/
def Obligations.RotateInverse : Prop :=
  ∀ (rd : Reg) (n ring : BitVec 7) (s : State), s.bufs[rd].isOpen = true → n.toNat ≤ ring.toNat → ring.toNat ≤ 64 →
    (∃ t, exec (.rol rd n ring) s = .next t ∧ exec (.ror rd n ring) t = .next s.ended) ∧
    (∃ t, exec (.ror rd n ring) s = .next t ∧ exec (.rol rd n ring) t = .next s.ended) ∧
    exec (.rol rd n ring) s = exec (.ror rd (ring - n) ring) s

/-- spec/40_bit_buffer.md R121, spec/20_memory.md R54, R57: exactly `n` bytes appended to `OUT` in one counted write, none and
uncounted for `n = 0`; `E_IO` when the host fails the write. -/
def Obligations.StbCommand : Prop :=
  ∀ (rs : Reg) (n : BitVec 4) (s : State), s.bufs[rs].isOpen = true →
    (n.toNat = 0 → exec (.stb rs n) s = .next s.ended) ∧
    (0 < n.toNat → s.WriteOk → ∃ bs, Renders bs s.bufs[rs].v n.toNat ∧
      exec (.stb rs n) s = .next { s.ended with out := s.out ++ bs, nwrites := s.nwrites + 1 }) ∧
    (0 < n.toNat → s.outFail = some s.nwrites →
      exec (.stb rs n) s = .next ({ s with nwrites := s.nwrites + 1 }.faulted 2#3))

/-- spec/40_bit_buffer.md R122: in test mode `DBG` writes the 8 bytes of the storage, open or closed; `E_IO` when the host fails
the write; `E_ILLEGAL` in normal mode. -/
def Obligations.DbgCommand : Prop :=
  ∀ (rs : Reg) (sel : Bool) (s : State), (sel = true → rs = 0) →
    (s.test = true → s.WriteOk → ∃ bs, Renders bs (if sel then s.key.v else s.bufs[rs].v) 8 ∧
      exec (.dbg rs sel) s = .next { s.ended with out := s.out ++ bs, nwrites := s.nwrites + 1 }) ∧
    (s.test = true → s.outFail = some s.nwrites →
      exec (.dbg rs sel) s = .next ({ s with nwrites := s.nwrites + 1 }.faulted 2#3)) ∧
    (s.test = false → exec (.dbg rs sel) s = .next (s.faulted 4#3))

/-! ## Bytes and streams -/

/-- spec/20_memory.md R53, R54: `FromBytes` and `ToBytes` for both byte lane orders, and that they undo each other. -/
def Obligations.ByteConversions : Prop :=
  (∀ (bs : List Byte), bs.length ≤ 8 → HoldsBytes (fromBytes .msbFirst bs) bs) ∧
  (∀ (bs : List Byte) (p : Nat), bs.length ≤ 8 → p < 64 → (fromBytes .lsbFirst bs).getLsbD p =
    (decide (p < 8 * bs.length) && (bs.getD (p / 8) 0).getLsbD (p % 8))) ∧
  (∀ (v : Buf) (n : Nat), n ≤ 15 → Renders (toBytes .msbFirst v n) v n) ∧
  (∀ (v : Buf) (n : Nat), n ≤ 15 → (toBytes .lsbFirst v n).length = n) ∧
  (∀ (v : Buf) (n j i : Nat), n ≤ 15 → j < n → i < 8 →
    ((toBytes .lsbFirst v n).getD j 0).getLsbD i = v.getLsbD (8 * j + i)) ∧
  (∀ (o : BitOrder) (bs : List Byte), bs.length ≤ 8 → toBytes o (fromBytes o bs) bs.length = bs) ∧
  (∀ (o : BitOrder) (v : Buf), fromBytes o (toBytes o v 8) = v)

/-- spec/20_memory.md R56: the four rows of the read-fully read, and the read of nothing. That a stall answers the same state is
the model's (notes/assumptions/7.md). -/
def Obligations.InReadRule : Prop :=
  ∀ (n : Nat) (s : State) (k : List Byte → State → Result) (bs : List Byte) (rest : List InItem),
    (bs.length = n → s.inq = bs.map InItem.byte ++ rest → withRead n s k = k bs { s with inq := rest }) ∧
    (bs.length < n → s.inq = bs.map InItem.byte ++ InItem.eos :: rest → withRead n s k = k bs { s with inq := rest }) ∧
    (bs.length < n → s.inq = bs.map InItem.byte ++ InItem.err :: rest →
      withRead n s k = .next ({ s with inq := rest }.faulted 2#3)) ∧
    (bs.length < n → s.inq = bs.map InItem.byte → withRead n s k = .next s) ∧
    withRead 0 s k = k [] s

/-- spec/20_memory.md R57: a write of nothing, a write the host accepts, the write it fails. -/
def Obligations.OutWriteRule : Prop :=
  ∀ (bs : List Byte) (s : State) (k : State → Result),
    withWrite [] s k = k s ∧
    (bs ≠ [] → s.outFail ≠ some s.nwrites →
      withWrite bs s k = k { s with nwrites := s.nwrites + 1, out := s.out ++ bs }) ∧
    (bs ≠ [] → s.outFail = some s.nwrites → withWrite bs s k = .next ({ s with nwrites := s.nwrites + 1 }.faulted 2#3))

/-! ## Permutation, substitution, key schedule, block cipher -/

/-- spec/41_permutation.md R130, R131, R132, R134: `PERM` replaces the register by the selection of its old positions, zero at
and above the table's length, however few bits are set; with the tables of this hardware and with those of any build. That an
entry of 64 or more reads 0 is the model's (notes/assumptions/14.md). -/
def Obligations.PermCommand : Prop :=
  (∀ (rd : Reg) (t : PermTable) (s : State), s.bufs[rd].isOpen = true →
    ∃ v, Permutes v s.bufs[rd].v (Tables.perm Rom.des t) ∧ exec (.perm rd t) s = .next (s.afterBuf rd v)) ∧
  (∀ (B : Build) (rd : Reg) (t : PermTable) (s : State), s.bufs[rd].isOpen = true →
    ∃ v, Permutes v s.bufs[rd].v (Tables.perm B.tables t) ∧ execOn B (.perm rd t) s = .next (s.afterBuf rd v)) ∧
  (Tables.perm Rom.des .ip).length = 64 ∧ (Tables.perm Rom.des .fp).length = 64 ∧ (Tables.perm Rom.des .pc1).length = 56 ∧
  (Tables.perm Rom.des .pc2).length = 48 ∧ (Tables.perm Rom.des .e).length = 48 ∧ (Tables.perm Rom.des .p).length = 32

/-- spec/41_permutation.md R133: `FP` is the exact inverse of `IP`, both ways, as tables and as permutations. -/
def Obligations.FinalUndoesInitial : Prop :=
  (∀ i, i < 64 → Rom.fp.getD (Rom.ip.getD i 0) 0 = i ∧ Rom.ip.getD (Rom.fp.getD i 0) 0 = i) ∧
  (∀ v : Buf, permute 64 (permute 64 v Rom.ip) Rom.fp = v) ∧
  (∀ v : Buf, permute 64 (permute 64 v Rom.fp) Rom.ip = v)

/-- spec/42_substitution.md R140, R142, R143: `SBOX` writes the named entry whatever the register held; `SUB6` the entry its
first six positions select. -/
def Obligations.SubstitutionCommands : Prop :=
  ∀ (rd : Reg) (k : BitVec 3) (x : BitVec 4) (y : BitVec 2) (s : State), s.bufs[rd].isOpen = true →
    let g := fun i => (s.bufs[rd].v.getLsbD i).toNat
    (∃ v, HoldsEntry v k.toNat x.toNat y.toNat ∧ exec (.sbox rd k x y) s = .next (s.afterBuf rd v)) ∧
    (∃ v, HoldsEntry v k.toNat (8 * g 1 + 4 * g 2 + 2 * g 3 + g 4) (2 * g 0 + g 5) ∧
      exec (.sub6 rd k) s = .next (s.afterBuf rd v))

/-- spec/43_key_schedule.md R151 to R154: in round 0 `PC1` once, then the halves rotate left by `SHIFT[r]`, and the round key is
`PC2` of the rotated state, which `rs` keeps; `E_ARG` when `rd = rs`. -/
def Obligations.KseCommand : Prop :=
  ∀ (rd rs : Reg) (r : BitVec 4) (s : State), s.bufs[rs].isOpen = true →
    (rd ≠ rs → ∃ c n k : Buf,
      (if r.toNat = 0 then Permutes c s.bufs[rs].v Rom.pc1 else c = s.bufs[rs].v) ∧
      RotatesHalves n c (Rom.shift.getD r.toNat 0) ∧ Permutes k n Rom.pc2 ∧
      exec (.kse rd rs r) s = .next ((s.afterBuf rs n).afterBuf rd k)) ∧
    (rd = rs → exec (.kse rd rs r) s = .next (s.faulted 1#3))

/-- spec/43_key_schedule.md R153, R156: in round 0 `PC1` and no rotation, then the halves rotate right by `SHIFT[16-r]`; the
round key is `PC2` of the state, which `rs` keeps; `E_ARG` when `rd = rs`. -/
def Obligations.KsdCommand : Prop :=
  ∀ (rd rs : Reg) (r : BitVec 4) (s : State), s.bufs[rs].isOpen = true →
    (rd ≠ rs → ∃ n k : Buf,
      (if r.toNat = 0 then Permutes n s.bufs[rs].v Rom.pc1
        else RotatesHalves n s.bufs[rs].v (28 - Rom.shift.getD (16 - r.toNat) 0)) ∧
      Permutes k n Rom.pc2 ∧ exec (.ksd rd rs r) s = .next ((s.afterBuf rs n).afterBuf rd k)) ∧
    (rd = rs → exec (.ksd rd rs r) s = .next (s.faulted 1#3))

/-- spec/43_key_schedule.md R155: started from the same key and run in order, the decryption schedule gives the round keys of
the encryption schedule in reverse, and the states too. -/
def Obligations.KeyScheduleSymmetry : Prop :=
  ∀ (key : Buf) (se sd : Nat → Buf) (ke kd : Nat → BitVec 48),
    (∀ r, r < 16 → (se r, ke r) = roundKey Rom.des (if r = 0 then key else se (r - 1)) r) →
    (∀ r, r < 16 → (sd r, kd r) = roundKeyDecrypt Rom.des (if r = 0 then key else sd (r - 1)) r) →
    ∀ r, r < 16 → kd r = ke (15 - r) ∧ sd r = se (15 - r)

/-- spec/44_feistel.md R160: expansion, XOR with the round key, eight groups through their own boxes, the output permutation;
`rs` and `rt` unchanged, `WT` and `WRK` zero; `E_ARG` when `rd = rs` or `rd = rt`. -/
def Obligations.FfnCommand : Prop :=
  ∀ (rd rs rt : Reg) (s : State), s.bufs[rs].isOpen = true → s.bufs[rt].isOpen = true →
    (rd ≠ rs → rd ≠ rt → ∃ (t u v : Buf),
      (∀ i, i < 48 → t.getLsbD i = (s.bufs[rs].v.getLsbD (Rom.e.getD i 0) ^^ s.bufs[rt].v.getLsbD i)) ∧
      (∀ g j, g < 8 → j < 4 → u.getLsbD (4 * g + j) =
        (sboxEntry Rom.des g
          (8 * (t.getLsbD (6 * g + 1)).toNat + 4 * (t.getLsbD (6 * g + 2)).toNat + 2 * (t.getLsbD (6 * g + 3)).toNat +
            (t.getLsbD (6 * g + 4)).toNat)
          (2 * (t.getLsbD (6 * g)).toNat + (t.getLsbD (6 * g + 5)).toNat)).testBit (3 - j)) ∧
      Permutes v u Rom.p ∧
      exec (.ffn rd rs rt) s = .next ({ s with round := { s.round with wt := 0, wrk := 0 } }.afterBuf rd v)) ∧
    (rd = rs ∨ rd = rt → exec (.ffn rd rs rt) s = .next (s.faulted 1#3))

/-- spec/44_feistel.md R162, R163: the sixteen rounds between `IP` and `FP`, the halves and the key-schedule states as
sequences, with the forward hook for `ENCB` and the reverse hook for `DECB`; the operands unchanged and the working registers
zero; `E_ARG` when `rd = rs` or `rd = rt`. -/
def Obligations.BlockCommands : Prop :=
  ∀ (rd rs rt : Reg) (s : State), s.bufs[rs].isOpen = true → s.bufs[rt].isOpen = true →
    (rd ≠ rs → rd ≠ rt → ∀ (enc : Bool), ∃ (l r : Nat → BitVec 32) (ks : Nat → Buf) (rk : Nat → BitVec 48) (v : Buf),
      (∀ i, i < 32 → (l 0).getLsbD i = s.bufs[rs].v.getLsbD (Rom.ip.getD i 0) ∧
        (r 0).getLsbD i = s.bufs[rs].v.getLsbD (Rom.ip.getD (32 + i) 0)) ∧
      ks 0 = s.bufs[rt].v ∧
      (∀ i, i < 16 →
        (ks (i + 1), rk i) = (if enc then roundKey Rom.des (ks i) i else roundKeyDecrypt Rom.des (ks i) i) ∧
        l (i + 1) = r i ∧ r (i + 1) = l i ^^^ feistelF Rom.des (r i) (rk i)) ∧
      (∀ i, i < 64 → v.getLsbD i =
        if Rom.fp.getD i 0 < 32 then (r 16).getLsbD (Rom.fp.getD i 0) else (l 16).getLsbD (Rom.fp.getD i 0 - 32)) ∧
      exec (if enc then .encb rd rs rt else .decb rd rs rt) s =
        .next ({ s with round := { wl := 0, wr := 0, wks := 0, wrk := 0, wt := 0, rnd := 0 } }.afterBuf rd v)) ∧
    (rd = rs ∨ rd = rt →
      exec (.encb rd rs rt) s = .next (s.faulted 1#3) ∧ exec (.decb rd rs rt) s = .next (s.faulted 1#3))

/-- spec/44_feistel.md R164: the block round trip, for every block and every key, both ways; and, of every build with a 64-bit
block whose final permutation undoes its initial one and whose reverse hook supplies the round keys in reversed order (R164's
own reasons), whatever its other tables and its round count (at most the 32 that `RND` counts). What
a build with a round count other than 16 does is the model's (notes/assumptions/14.md). -/
def Obligations.BlockRoundTrip : Prop :=
  (∀ b k : Buf, decryptBlock Build.des (encryptBlock Build.des b k) k = b ∧
    encryptBlock Build.des (decryptBlock Build.des b k) k = b) ∧
  ∀ (B : Build) (b k : Buf), B.blockBits = 64 → B.nRounds ≤ 32 →
    B.tables.ip.length = 64 → B.tables.fp.length = 64 →
    (∀ i, i < 64 → B.tables.ip.getD i 0 < 64 ∧ B.tables.fp.getD i 0 < 64 ∧
      B.tables.fp.getD (B.tables.ip.getD i 0) 0 = i ∧ B.tables.ip.getD (B.tables.fp.getD i 0) 0 = i) →
    (∀ r, r < B.rounds → (scheduled (roundKeyDecrypt B.tables) k r).2 =
      (scheduled (roundKey B.tables) k (B.rounds - 1 - r)).2) →
    decryptBlock B (encryptBlock B b k) k = b ∧ encryptBlock B (decryptBlock B b k) k = b

/-- spec/41_permutation.md R131, spec/44_feistel.md R162: the eight parity positions of the key do not affect any result: keys
that agree elsewhere have the same round keys and encrypt and decrypt alike. -/
def Obligations.ParityHasNoEffect : Prop :=
  ∀ (k k' : Buf), (∀ p, p < 64 → p % 8 ≠ 7 → k.getLsbD p = k'.getLsbD p) →
    roundKey Rom.des k 0 = roundKey Rom.des k' 0 ∧ roundKeyDecrypt Rom.des k 0 = roundKeyDecrypt Rom.des k' 0 ∧
    ∀ b : Buf, encryptBlock Build.des b k = encryptBlock Build.des b k' ∧ decryptBlock Build.des b k = decryptBlock Build.des b k'

/-! ## The key register and the chained streams -/

/-- spec/45_cbc_stream.md R170, R171: `LDK` records the bytes and their number, keeping the first eight; `E_IO` at an `err` with
`KEY` unchanged; a stall when the bytes are not there yet; `KCLOSE` zeroes the key in every state. -/
def Obligations.KeyCommands : Prop :=
  ∀ (n : BitVec 4) (s : State),
    (∀ (bs : List Byte) (rest : List InItem), bs.length = n.toNat → s.inq = bs.map InItem.byte ++ rest →
      ∃ v, HoldsBytes v (bs.take 8) ∧ exec (.ldk n) s =
        .next { s.ended with inq := rest, key := { isOpen := true, len := BitVec.ofNat 4 bs.length, v := v } }) ∧
    (∀ (bs : List Byte) (rest : List InItem), bs.length < n.toNat → s.inq = bs.map InItem.byte ++ InItem.eos :: rest →
      ∃ v, HoldsBytes v (bs.take 8) ∧ exec (.ldk n) s =
        .next { s.ended with inq := rest, key := { isOpen := true, len := BitVec.ofNat 4 bs.length, v := v } }) ∧
    (∀ (bs : List Byte) (rest : List InItem), bs.length < n.toNat → s.inq = bs.map InItem.byte ++ InItem.err :: rest →
      exec (.ldk n) s = .next ({ s with inq := rest }.faulted 2#3)) ∧
    (∀ bs : List Byte, bs.length < n.toNat → s.inq = bs.map InItem.byte → exec (.ldk n) s = .next s) ∧
    exec .kclose s = .next { s.ended with key := { isOpen := false, len := 0, v := 0 } }

/-- spec/45_cbc_stream.md R174, R173: the key check of `ENCS` and `DECS` comes before anything else; with a well-formed key the
command is in progress in its first state, and no port has moved. -/
def Obligations.StreamKeyCheck : Prop :=
  ∀ s : State, s.stream.sst = .idle →
    (s.key.isOpen = true → s.key.len = 8#4 →
      exec .encs s = .next { s with status := { s.status with busy := true }, stream := { s.stream with sst := .eiv } } ∧
      exec .decs s = .next { s with status := { s.status with busy := true }, stream := { s.stream with sst := .div } }) ∧
    (s.key.isOpen = false ∨ s.key.len ≠ 8#4 →
      exec .encs s = .next (s.faulted 1#3) ∧ exec .decs s = .next (s.faulted 1#3))

/-- spec/45_cbc_stream.md R175 step 1, spec/20_memory.md R58: the draw becomes the first output block and the first chaining
value, whatever bytes it has; `E_IO` when the host fails the write, the draw gone; a stall while `RNG` is empty. -/
def Obligations.EncsInitialVector : Prop :=
  ∀ s : State, s.stream.sst = .eiv →
    (∀ (iv : Draw) (rest : List Draw), s.rng = iv :: rest → s.WriteOk → ∃ c, HoldsBytes c iv.toList ∧
      exec .encs s = .next { s with rng := rest, out := s.out ++ iv.toList, nwrites := s.nwrites + 1,
                                    stream := { s.stream with chain := c, sst := .eblk } }) ∧
    (∀ (iv : Draw) (rest : List Draw), s.rng = iv :: rest → s.outFail = some s.nwrites →
      exec .encs s = .next ({ s with rng := rest, nwrites := s.nwrites + 1 }.faulted 2#3)) ∧
    (s.rng = [] → exec .encs s = .next s)

/-- spec/45_cbc_stream.md R175 step 2, R176, R186: a full block is chained, encrypted and written and the state repeats; a short
one is padded first and ends the command; an empty read ends it with nothing written; `E_IO` and stall as the ports give. That
every round register is zero after a full block is the model's (notes/assumptions/11.md); R186 says it there of `WKS`. -/
def Obligations.EncsBlockStep : Prop :=
  ∀ s : State, s.stream.sst = .eblk →
    (∀ (bs : List Byte) (rest : List InItem), bs.length = 8 → s.inq = bs.map InItem.byte ++ rest → ∃ x y : Buf,
      HoldsBytes x bs ∧ y = encryptBlock Build.des (x ^^^ s.stream.chain) s.key.v ∧
      (s.WriteOk → ∃ o, Renders o y 8 ∧ exec .encs s =
        .next { s with inq := rest, out := s.out ++ o, nwrites := s.nwrites + 1, round := RoundRegs.zero,
                       stream := { s.stream with chain := y, cur := x ^^^ s.stream.chain, curn := 8#4 } }) ∧
      (s.outFail = some s.nwrites →
        exec .encs s = .next ({ s with inq := rest, nwrites := s.nwrites + 1 }.faulted 2#3))) ∧
    (∀ (bs : List Byte) (rest : List InItem), 0 < bs.length → bs.length < 8 →
      s.inq = bs.map InItem.byte ++ InItem.eos :: rest → ∃ x y : Buf,
      HoldsBytes x (bs ++ List.replicate (8 - bs.length) (BitVec.ofNat 8 (8 - bs.length))) ∧
      y = encryptBlock Build.des (x ^^^ s.stream.chain) s.key.v ∧
      (s.WriteOk → ∃ o, Renders o y 8 ∧
        exec .encs s = .next { s with inq := rest, out := s.out ++ o, nwrites := s.nwrites + 1 }.streamEnded) ∧
      (s.outFail = some s.nwrites →
        exec .encs s = .next ({ s with inq := rest, nwrites := s.nwrites + 1 }.faulted 2#3))) ∧
    (∀ rest, s.inq = InItem.eos :: rest → exec .encs s = .next { s with inq := rest }.streamEnded) ∧
    (∀ (bs : List Byte) (rest : List InItem), bs.length < 8 → s.inq = bs.map InItem.byte ++ InItem.err :: rest →
      exec .encs s = .next ({ s with inq := rest }.faulted 2#3)) ∧
    (∀ bs : List Byte, bs.length < 8 → s.inq = bs.map InItem.byte → exec .encs s = .next s)

/-- spec/45_cbc_stream.md R179 steps 1 and 2, R182: the IV and the first block are read whole; an IV alone ends the command; a
short read is `E_FORMAT`; `E_IO` and stall as the port gives. -/
def Obligations.DecsOpeningSteps : Prop :=
  ∀ s : State, s.stream.sst = .div ∨ s.stream.sst = .dfirst →
    (∀ (bs : List Byte) (rest : List InItem), bs.length = 8 → s.inq = bs.map InItem.byte ++ rest →
      ∃ x, HoldsBytes x bs ∧
        (s.stream.sst = .div →
          exec .decs s = .next { s with inq := rest, stream := { s.stream with chain := x, sst := .dfirst } }) ∧
        (s.stream.sst = .dfirst →
          exec .decs s = .next { s with inq := rest, stream := { s.stream with cur := x, curn := 8#4, sst := .dblk } })) ∧
    (∀ rest, s.inq = InItem.eos :: rest →
      (s.stream.sst = .div → exec .decs s = .next ({ s with inq := rest }.faulted 6#3)) ∧
      (s.stream.sst = .dfirst → exec .decs s = .next { s with inq := rest }.streamEnded)) ∧
    (∀ (bs : List Byte) (rest : List InItem), 0 < bs.length → bs.length < 8 →
      s.inq = bs.map InItem.byte ++ InItem.eos :: rest → exec .decs s = .next ({ s with inq := rest }.faulted 6#3)) ∧
    (∀ (bs : List Byte) (rest : List InItem), bs.length < 8 → s.inq = bs.map InItem.byte ++ InItem.err :: rest →
      exec .decs s = .next ({ s with inq := rest }.faulted 2#3)) ∧
    (∀ bs : List Byte, bs.length < 8 → s.inq = bs.map InItem.byte → exec .decs s = .next s)

/-- spec/45_cbc_stream.md R179 step 3, R180, R182, R186: the plaintext of the block held is written only after the look-ahead
read has succeeded; with a block behind it the state repeats, with none it is unpadded and the command ends; a fragment is
`E_FORMAT` and an `err` is `E_IO`, with nothing written; a stall changes nothing. That every round register is zero
when the state repeats is the model's (notes/assumptions/11.md); R186 says it there of `WKS`. -/
def Obligations.DecsBlockStep : Prop :=
  ∀ s : State, s.stream.sst = .dblk → ∀ p : List Byte,
    Renders p (decryptBlock Build.des s.stream.cur s.key.v ^^^ s.stream.chain) 8 →
    (∀ (bs : List Byte) (rest : List InItem), bs.length = 8 → s.inq = bs.map InItem.byte ++ rest →
      (s.WriteOk → ∃ x, HoldsBytes x bs ∧ exec .decs s =
        .next { s with inq := rest, out := s.out ++ p, nwrites := s.nwrites + 1, round := RoundRegs.zero,
                       stream := { s.stream with chain := s.stream.cur, cur := x, curn := 8#4, nxt := x, nxtn := 8#4 } }) ∧
      (s.outFail = some s.nwrites →
        exec .decs s = .next ({ s with inq := rest, nwrites := s.nwrites + 1 }.faulted 2#3))) ∧
    (∀ rest, s.inq = InItem.eos :: rest →
      (s.WriteOk → exec .decs s =
        .next { s with inq := rest, out := s.out ++ unpad 8 p, nwrites := s.nwrites + 1 }.streamEnded) ∧
      (s.outFail = some s.nwrites →
        exec .decs s = .next ({ s with inq := rest, nwrites := s.nwrites + 1 }.faulted 2#3))) ∧
    (∀ (bs : List Byte) (rest : List InItem), 0 < bs.length → bs.length < 8 →
      s.inq = bs.map InItem.byte ++ InItem.eos :: rest → exec .decs s = .next ({ s with inq := rest }.faulted 6#3)) ∧
    (∀ (bs : List Byte) (rest : List InItem), bs.length < 8 → s.inq = bs.map InItem.byte ++ InItem.err :: rest →
      exec .decs s = .next ({ s with inq := rest }.faulted 2#3)) ∧
    (∀ bs : List Byte, bs.length < 8 → s.inq = bs.map InItem.byte → exec .decs s = .next s)

/-- spec/45_cbc_stream.md R181: the last `v` bytes are cut exactly when `v` is 1..7 and the run of `v` at the end has length
exactly `v`; else the block is unchanged; the result has 1 to 8 bytes. -/
def Obligations.UnpadRule : Prop :=
  ∀ p : List Byte, p.length = 8 →
    let v := (p.getD 7 0).toNat
    let runs := fun c => ∀ j, j < c → p.getD (7 - j) 0 = p.getD 7 0
    (1 ≤ v → v < 8 → runs v → p.getD (7 - v) 0 ≠ p.getD 7 0 → unpad 8 p = p.take (8 - v)) ∧
    (v = 0 ∨ 8 ≤ v ∨ ¬ runs v ∨ p.getD (7 - v) 0 = p.getD 7 0 → unpad 8 p = p) ∧
    1 ≤ (unpad 8 p).length ∧ (unpad 8 p).length ≤ 8

/-- spec/45_cbc_stream.md R175, R176, R177, spec/20_memory.md R61, R63: `ENCS` run to its end on a message of whole blocks and a
tail of 0 to 7 bytes writes the IV and the chained ciphertext blocks, `8 + 8·ceil(n/8)` bytes in `1 + ceil(n/8)` writes,
consumes the message, one `eos` and one draw, and leaves the engine ready, `B0..B7`, `KEY` and `RES` unchanged. That the word
waits in the list `cmd` is the model's (notes/assumptions/1.md). -/
def Obligations.EncsWholeStream : Prop :=
  ∀ (s : State) (words : List CmdWord) (blocks : List (List Byte)) (tail : List Byte) (iv : Draw) (draws : List Draw)
    (rest : List InItem),
    s.Ready → s.stream = StreamRegs.zero → s.round = RoundRegs.zero → s.key.isOpen = true → s.key.len = 8#4 →
    s.WritesOk → s.cmd = 0xC8000000#32 :: words → s.rng = iv :: draws →
    (∀ b ∈ blocks, b.length = 8) → tail.length < 8 →
    s.inq = (blocks.flatten ++ tail).map InItem.byte ++ InItem.eos :: rest →
    ∃ steps body, body = chained s.key.v (fromBytes .msbFirst iv.toList)
        (blocks ++ if tail = [] then [] else [tail ++ List.replicate (8 - tail.length) (BitVec.ofNat 8 (8 - tail.length))]) ∧
      body.length = 8 * (((blocks.flatten ++ tail).length + 7) / 8) ∧
      runSteps steps s =
        .next { s with cmd := words, cip := 0, inq := rest, rng := draws, out := s.out ++ iv.toList ++ body,
                       nwrites := s.nwrites + 1 + ((blocks.flatten ++ tail).length + 7) / 8 }

/-- spec/45_cbc_stream.md R179, R180, R181: `DECS` run to its end on an IV and whole ciphertext blocks writes the plaintext of
every block, the last one unpadded, consumes the stream and one `eos`, and leaves the engine ready, `B0..B7`, `KEY` and `RES`
unchanged. That the word waits in the list `cmd` is the model's (notes/assumptions/1.md). -/
def Obligations.DecsWholeStream : Prop :=
  ∀ (s : State) (words : List CmdWord) (blocks : List (List Byte)) (iv : List Byte) (rest : List InItem),
    s.Ready → s.stream = StreamRegs.zero → s.round = RoundRegs.zero → s.key.isOpen = true → s.key.len = 8#4 →
    s.WritesOk → s.cmd = 0xCC000000#32 :: words → iv.length = 8 → (∀ b ∈ blocks, b.length = 8) →
    s.inq = (iv ++ blocks.flatten).map InItem.byte ++ InItem.eos :: rest →
    ∃ steps, runSteps steps s =
      .next { s with cmd := words, cip := 0, inq := rest, nwrites := s.nwrites + blocks.length,
                     out := s.out ++ unchained s.key.v (fromBytes .msbFirst iv) blocks }

/-- spec/45_cbc_stream.md R183, spec/90_conflicts.md C1: what `DECS` returns for the stream `ENCS` wrote, case by case: the
message itself but for the two misfires of `Unpad`. That the words wait in the list `cmd` is the model's
(notes/assumptions/1.md). -/
def Obligations.StreamRoundTrip : Prop :=
  ∀ (s : State) (words : List CmdWord) (m : List Byte) (iv : Draw) (draws : List Draw) (rest : List InItem),
    s.Ready → s.stream = StreamRegs.zero → s.round = RoundRegs.zero → s.key.isOpen = true → s.key.len = 8#4 →
    s.WritesOk → s.cmd = 0xC8000000#32 :: words → s.rng = iv :: draws →
    s.inq = m.map InItem.byte ++ InItem.eos :: rest →
    ∃ (steps : Nat) (t : State) (stream : List Byte), runSteps steps s = .next t ∧ t.Ready ∧
      t.cmd = words ∧ t.inq = rest ∧ t.rng = draws ∧ t.out = s.out ++ stream ∧
      ∀ (u : State) (words' : List CmdWord) (rest' : List InItem),
        u.Ready → u.stream = StreamRegs.zero → u.round = RoundRegs.zero → u.key = s.key → u.WritesOk →
        u.cmd = 0xCC000000#32 :: words' → u.inq = stream.map InItem.byte ++ InItem.eos :: rest' →
        ∃ (steps' : Nat) (v : State), runSteps steps' u = .next v ∧ v.Ready ∧
          v.cmd = words' ∧ v.inq = rest' ∧ v.out = u.out ++ returned m

/-- spec/45_cbc_stream.md R184: flip bits `d` of one ciphertext block. The block itself decrypts to `D(c ^ d)` unchained as
before; the next block's plaintext has exactly the bits `d` flipped; every later block and every earlier one is unchanged. Bits
`d` flipped in the IV flip the same bits of the first block and nothing else. Here `pre`, `c`, `n`, `post` and `last` are the
blocks in order: the changed one and the next are not the last, whose bytes `Unpad` sees. -/
def Obligations.ChainingDependency : Prop :=
  ∀ (key iv d : Buf) (pre post : List (List Byte)) (c n last : List Byte),
    (∀ b ∈ pre ++ post, b.length = 8) → c.length = 8 → n.length = 8 → last.length = 8 →
    let c' := toBytes .msbFirst (fromBytes .msbFirst c ^^^ d) 8
    ∃ head garbage garbled next flipped tail : List Byte,
      unchained key iv (pre ++ c :: n :: (post ++ [last])) = head ++ garbage ++ next ++ tail ∧
      unchained key iv (pre ++ c' :: n :: (post ++ [last])) = head ++ garbled ++ flipped ++ tail ∧
      head.length = 8 * pre.length ∧ garbage.length = 8 ∧ garbled.length = 8 ∧ next.length = 8 ∧ flipped.length = 8 ∧
      (∃ before : Buf, (pre = [] → before = iv) ∧ (∀ q b, pre = q ++ [b] → before = fromBytes .msbFirst b) ∧
        Renders garbage (decryptBlock Build.des (fromBytes .msbFirst c) key ^^^ before) 8 ∧
        Renders garbled (decryptBlock Build.des (fromBytes .msbFirst c ^^^ d) key ^^^ before) 8) ∧
      fromBytes .msbFirst flipped = fromBytes .msbFirst next ^^^ d ∧
      ∃ first changed others : List Byte, first.length = 8 ∧ changed.length = 8 ∧
        unchained key iv (n :: (post ++ [last])) = first ++ others ∧
        unchained key (iv ^^^ d) (n :: (post ++ [last])) = changed ++ others ∧
        fromBytes .msbFirst changed = fromBytes .msbFirst first ^^^ d
end

