-- ==== Sys2Proof/Laws/Bits.lean ====
section
/-! SUPPORT. Position-by-position laws of the buffer functions: for each function of Sys2Proof/Machine/Operands.lean and of
the wired networks, the one lemma that says what stands at a position. -/

namespace Sys2Proof.Machine

theorem bitsNat_lt (n : Nat) (f : Nat → Bool) : bitsNat n f < 2 ^ n := by
  induction n with
  | zero => simp [bitsNat]
  | succ n ih =>
    have h : (f n).toNat ≤ 1 := by cases f n <;> simp
    have : (f n).toNat * 2 ^ n ≤ 1 * 2 ^ n := Nat.mul_le_mul_right _ h
    simp only [bitsNat, Nat.pow_succ]
    omega

theorem testBit_bitsNat (n : Nat) (f : Nat → Bool) (i : Nat) :
    (bitsNat n f).testBit i = (decide (i < n) && f i) := by
  induction n with
  | zero => simp [bitsNat]
  | succ n ih =>
    have hlt := bitsNat_lt n f
    have key : bitsNat (n + 1) f = 2 ^ n * (f n).toNat + bitsNat n f := by
      simp only [bitsNat]
      rw [Nat.mul_comm (2 ^ n), Nat.add_comm]
    rw [key, Nat.testBit_two_pow_mul_add _ hlt, ih]
    by_cases h : i < n
    · have h' : i < n + 1 := by omega
      simp [h, h']
    · by_cases h2 : i = n
      · subst h2; cases f i <;> simp
      · have h3 : ¬ i < n + 1 := by omega
        have h4 : i - n ≠ 0 := by omega
        cases f n
        · simp [h, h3]
        · simp only [h, h3, decide_false, Bool.false_and, if_false, Bool.toNat_true]
          obtain ⟨k, hk⟩ := Nat.exists_eq_succ_of_ne_zero h4
          rw [hk, Nat.testBit_succ]
          simp

/-- What stands at a position of a value made position by position (00_scope.md R10). -/
@[simp] theorem getLsbD_ofBits (w : Nat) (f : Nat → Bool) (i : Nat) :
    (ofBits w f).getLsbD i = (decide (i < w) && f i) := by
  simp only [ofBits, BitVec.getLsbD_ofNat, testBit_bitsNat]
  by_cases h : i < w <;> simp [h]

@[simp] theorem getElem_ofBits (w : Nat) (f : Nat → Bool) (i : Nat) (h : i < w) : (ofBits w f)[i] = f i := by
  rw [← BitVec.getLsbD_eq_getElem, getLsbD_ofBits]
  simp [h]

/-- Two values of `w` positions are equal when they agree at every position. -/
theorem buf_ext {w : Nat} {u v : BitVec w} (h : ∀ i, i < w → u.getLsbD i = v.getLsbD i) : u = v :=
  BitVec.eq_of_getLsbD_eq (fun i hi => h i hi)

/-- 00_scope.md R11. -/
theorem getLsbD_subRange (v : Buf) (lo hi i : Nat) (h : hi ≤ 64) :
    (subRange v lo hi).getLsbD i = (decide (i < hi - lo) && v.getLsbD (lo + i)) := by
  simp only [subRange, getLsbD_ofBits]
  by_cases hi' : i < hi - lo
  · have : i < 64 := by omega
    simp [this]
  · simp [hi']

/-- 40_bit_buffer.md R107. -/
theorem getLsbD_setBit (v : Buf) (p : Nat) (b : Bool) (i : Nat) (h : i < 64) :
    (setBit v p b).getLsbD i = if i = p then b else v.getLsbD i := by
  simp only [setBit, getLsbD_ofBits, h, decide_true, Bool.true_and]

/-- 40_bit_buffer.md R108. -/
theorem getLsbD_flipBit (v : Buf) (p i : Nat) (h : i < 64) :
    (flipBit v p).getLsbD i = if i = p then !v.getLsbD i else v.getLsbD i := by
  simp only [flipBit, getLsbD_ofBits, h, decide_true, Bool.true_and]

/-- 40_bit_buffer.md R110. -/
theorem getLsbD_setRange (v : Buf) (lo hi : Nat) (b : Bool) (i : Nat) (h : i < 64) :
    (setRange v lo hi b).getLsbD i = if lo ≤ i ∧ i < hi then b else v.getLsbD i := by
  simp only [setRange, getLsbD_ofBits, h, decide_true, Bool.true_and]

/-- 40_bit_buffer.md R111. -/
theorem getLsbD_flipRange (v : Buf) (lo hi i : Nat) (h : i < 64) :
    (flipRange v lo hi).getLsbD i = if lo ≤ i ∧ i < hi then !v.getLsbD i else v.getLsbD i := by
  simp only [flipRange, getLsbD_ofBits, h, decide_true, Bool.true_and]

/-- 40_bit_buffer.md R117. -/
theorem getLsbD_overwrite (d s : Buf) (pos sfrom n i : Nat) (h : i < 64) :
    (overwrite d s pos sfrom n).getLsbD i =
      if pos ≤ i ∧ i < pos + n then s.getLsbD (sfrom + (i - pos)) else d.getLsbD i := by
  simp only [overwrite, getLsbD_ofBits, h, decide_true, Bool.true_and]

/-- 40_bit_buffer.md R118. -/
theorem getLsbD_rotLeft (v : Buf) (n ring i : Nat) (h : i < 64) :
    (rotLeft v n ring).getLsbD i = if i < ring then v.getLsbD ((i + n) % ring) else v.getLsbD i := by
  simp only [rotLeft, getLsbD_ofBits, h, decide_true, Bool.true_and]

/-- `(i - n) mod ring` without a negative number (00_scope.md R15), when `n ≤ ring`. -/
theorem sub_emod_toNat (i n ring : Nat) (hn : n ≤ ring) :
    (((i : Int) - (n : Int)) % (ring : Int)).toNat = (i + (ring - n)) % ring := by
  have h : ((i : Int) - (n : Int)) % (ring : Int) = ((i + (ring - n) : Nat) : Int) % (ring : Int) := by
    have : ((i + (ring - n) : Nat) : Int) = (i : Int) - (n : Int) + (ring : Int) := by omega
    rw [this, Int.add_emod_right]
  rw [h]
  norm_cast

/-- 40_bit_buffer.md R119. -/
theorem getLsbD_rotRight (v : Buf) (n ring i : Nat) (h : i < 64) (hn : n ≤ ring) :
    (rotRight v n ring).getLsbD i =
      if i < ring then v.getLsbD ((i + (ring - n)) % ring) else v.getLsbD i := by
  simp only [rotRight, getLsbD_ofBits, h, decide_true, Bool.true_and, sub_emod_toNat i n ring hn]

theorem gather_lt {w : Nat} (v : BitVec w) (T : List Nat) : gather v T < 2 ^ T.length := by
  induction T with
  | nil => simp [gather]
  | cons p ps ih =>
    have h : (v.getLsbD p).toNat ≤ 1 := by cases v.getLsbD p <;> simp
    simp only [gather, List.length_cons, Nat.pow_succ]
    omega

theorem testBit_gather {w : Nat} (v : BitVec w) (T : List Nat) (i : Nat) :
    (gather v T).testBit i = (decide (i < T.length) && v.getLsbD (T.getD i 0)) := by
  induction T generalizing i with
  | nil => simp [gather]
  | cons p ps ih =>
    have hb : gather v (p :: ps) = Nat.bit (v.getLsbD p) (gather v ps) := by
      simp only [gather, Nat.bit_val]; omega
    rw [hb]
    cases i with
    | zero => simp
    | succ i => rw [Nat.testBit_bit_succ, ih]; simp

/-- 41_permutation.md R130. -/
theorem getLsbD_permute {w : Nat} (m : Nat) (v : BitVec w) (T : List Nat) (i : Nat) :
    (permute m v T).getLsbD i = (decide (i < m) && (decide (i < T.length) && v.getLsbD (T.getD i 0))) := by
  simp only [permute, BitVec.getLsbD_ofNat, testBit_gather]

/-- 43_key_schedule.md R151. -/
theorem getLsbD_rotHalvesLeft (s : Buf) (n i : Nat) (h : i < 64) :
    (rotHalvesLeft s n).getLsbD i =
      if i < 28 then s.getLsbD ((i + n) % 28)
      else if i < 56 then s.getLsbD (28 + (i - 28 + n) % 28)
      else s.getLsbD i := by
  simp only [rotHalvesLeft, getLsbD_ofBits, h, decide_true, Bool.true_and]

/-- 43_key_schedule.md R151. -/
theorem getLsbD_rotHalvesRight (s : Buf) (n i : Nat) (h : i < 64) (hn : n ≤ 28) :
    (rotHalvesRight s n).getLsbD i =
      if i < 28 then s.getLsbD ((i + (28 - n)) % 28)
      else if i < 56 then s.getLsbD (28 + (i - 28 + (28 - n)) % 28)
      else s.getLsbD i := by
  simp only [rotHalvesRight, getLsbD_ofBits, h, decide_true, Bool.true_and]
  split
  · rw [show (28 : Int) = ((28 : Nat) : Int) from rfl, sub_emod_toNat i n 28 hn]
  · split
    · have : ((i : Int) - 28 - (n : Int)) = ((i - 28 : Nat) : Int) - (n : Int) := by omega
      rw [this, show (28 : Int) = ((28 : Nat) : Int) from rfl, sub_emod_toNat (i - 28) n 28 hn]
    · rfl

/-- 20_memory.md R53. -/
theorem getLsbD_fromBytes (order : BitOrder) (bs : List Byte) (p : Nat) (h : p < 64) :
    (fromBytes order bs).getLsbD p = byteBit order (bs.getD (p / 8) 0) (p % 8) := by
  simp only [fromBytes, getLsbD_ofBits, h, decide_true, Bool.true_and]

@[simp] theorem length_toBytes (order : BitOrder) (v : Buf) (n : Nat) : (toBytes order v n).length = n := by
  simp [toBytes]

/-- 20_memory.md R54: byte `j` of the rendering. -/
theorem getD_toBytes (order : BitOrder) (v : Buf) (n j : Nat) (h : j < n) :
    (toBytes order v n).getD j 0 = toByte order v j := by
  simp [toBytes, List.getD_eq_getElem?_getD, h]

/-- 20_memory.md R54: the bit of byte `j` at its position `i`. -/
theorem byteBit_toByte (order : BitOrder) (v : Buf) (j i : Nat) (h : i < 8) :
    byteBit order (toByte order v j) i = v.getLsbD (8 * j + i) := by
  cases order
  · simp only [byteBit, toByte, getLsbD_ofBits]
    have h1 : 7 - i < 8 := by omega
    have h2 : 7 - (7 - i) = i := by omega
    simp [h1, h2]
  · simp only [byteBit, toByte, getLsbD_ofBits, h, decide_true, Bool.true_and]

/-- 42_substitution.md R140. -/
theorem getLsbD_sEntry (T : Tables) (k x y i : Nat) :
    (sEntry T k x y).getLsbD i = (decide (i < 4) && (sboxEntry T k x y).testBit (3 - i)) := by
  simp [sEntry]

end Sys2Proof.Machine
end

