-- ==== Sys2Proof/Laws/Encoding.lean ====
section
/-! SUPPORT. The fields of an encoded word (spec/30_encoding.md R70, R74): what each field of `cmdWord` reads back as. -/

namespace Sys2Proof

/-- The opcode map is one to one: a code selects its opcode (30_encoding.md R73). -/
@[simp] theorem Opcode.ofCode_code (o : Opcode) : Opcode.ofCode o.code = some o := by
  cases o <;> decide

/-- A code that selects an opcode is that opcode's code. -/
theorem Opcode.code_of_ofCode {c : BitVec 6} {o : Opcode} (h : Opcode.ofCode c = some o) : o.code = c := by
  have := List.find?_some h
  simpa using this

@[simp] theorem PermTable.ofCode_code (t : PermTable) : PermTable.ofCode t.code = some t := by
  cases t <;> decide

theorem PermTable.code_of_ofCode {c : BitVec 3} {t : PermTable} (h : PermTable.ofCode c = some t) : t.code = c := by
  revert c t
  decide

/-- The field `op` of an encoded word (30_encoding.md R70). -/
@[simp] theorem opField_cmdWord (o : Opcode) (rd rs : Reg) (low : BitVec 20) :
    opField (cmdWord o rd rs low) = o.code := by
  simp only [opField, cmdField, cmdWord]
  rw [BitVec.extractLsb'_append_eq_of_le (by decide), BitVec.extractLsb'_append_eq_of_le (by decide),
    BitVec.extractLsb'_append_eq_of_le (by decide)]
  simp

/-- The field `rd` of an encoded word (30_encoding.md R70). -/
@[simp] theorem rdField_cmdWord (o : Opcode) (rd rs : Reg) (low : BitVec 20) :
    rdField (cmdWord o rd rs low) = rd := by
  simp only [rdField, regField, cmdField, cmdWord]
  rw [BitVec.extractLsb'_append_eq_of_le (by decide), BitVec.extractLsb'_append_eq_of_le (by decide),
    BitVec.extractLsb'_append_eq_of_add_le (by decide)]
  simp

/-- The field `rs` of an encoded word (30_encoding.md R70). -/
@[simp] theorem rsField_cmdWord (o : Opcode) (rd rs : Reg) (low : BitVec 20) :
    rsField (cmdWord o rd rs low) = rs := by
  simp only [rsField, regField, cmdField, cmdWord]
  rw [BitVec.extractLsb'_append_eq_of_le (by decide), BitVec.extractLsb'_append_eq_of_add_le (by decide)]
  simp

/-- A field of the operand bits of an encoded word is that field of `low` (30_encoding.md R70). -/
theorem cmdField_cmdWord (o : Opcode) (rd rs : Reg) (low : BitVec 20) (lo n : Nat) (h : lo + n ≤ 20) :
    cmdField (cmdWord o rd rs low) lo n = low.extractLsb' lo n := by
  simp only [cmdField, cmdWord]
  rw [BitVec.extractLsb'_append_eq_of_add_le h]

/-- A one-bit field of an encoded word (30_encoding.md R71). -/
theorem flagField_cmdWord (o : Opcode) (rd rs : Reg) (low : BitVec 20) (i : Nat) (h : i < 20) :
    flagField (cmdWord o rd rs low) i = low.getLsbD i := by
  simp only [flagField, cmdWord, BitVec.getLsbD_append, h, if_true]

/-- What stands at each bit of an encoded word: the operand bits, then `rs`, `rd` and `op` (30_encoding.md R70). -/
theorem getLsbD_cmdWord (o : Opcode) (rd rs : Reg) (low : BitVec 20) (j : Nat) :
    (cmdWord o rd rs low).getLsbD j =
      if j < 20 then low.getLsbD j
      else if j < 23 then (BitVec.ofFin (w := 3) rs).getLsbD (j - 20)
      else if j < 26 then (BitVec.ofFin (w := 3) rd).getLsbD (j - 23)
      else o.code.getLsbD (j - 26) := by
  simp only [cmdWord, BitVec.getLsbD_append]
  split
  · rfl
  · have e1 : j - 20 < 3 ↔ j < 23 := by omega
    have e2 : j - 20 - 3 = j - 23 := by omega
    have e3 : j - 23 < 3 ↔ j < 26 := by omega
    have e4 : j - 23 - 3 = j - 26 := by omega
    simp only [e1, e2, e3, e4]

/-- A word whose `op` is a command's and whose must-be-zero bits are zero selects it (30_encoding.md R74). -/
theorem selects_of_fields {w : CmdWord} {o : Opcode} (h1 : opField w = o.code)
    (h2 : ∀ j, j < 32 → (w.getLsbD j && o.mustBeZero.getLsbD j) = false) : w &&& o.maskWord = o.matchWord := by
  have e : w &&& 0xFC000000#32 = o.matchWord := by
    apply BitVec.eq_of_getLsbD_eq
    intro j hj
    have h3 : ∀ k, (opField w).getLsbD k = o.code.getLsbD k := by rw [h1]; simp
    simp only [opField, cmdField, BitVec.getLsbD_extractLsb'] at h3
    by_cases hj2 : j < 26
    · simp only [Opcode.matchWord, BitVec.getLsbD_append, hj2, BitVec.getLsbD_and]
      interval_cases j <;> simp
    · have h4 := h3 (j-26)
      have : 26 + (j-26) = j := by omega
      rw [this] at h4
      have h5 : j - 26 < 6 := by omega
      simp only [h5, decide_true, Bool.true_and] at h4
      simp only [Opcode.matchWord, BitVec.getLsbD_append, hj2, h4, BitVec.getLsbD_and]
      interval_cases j <;> simp
  rw [Opcode.maskWord]
  have : w &&& (0xFC000000#32 ||| o.mustBeZero) = (w &&& 0xFC000000#32) ||| (w &&& o.mustBeZero) := by
    ext j hj; simp [Bool.and_or_distrib_left]
  have z : w &&& o.mustBeZero = 0#32 := BitVec.eq_of_getLsbD_eq fun j hj => by simp [h2 j hj]
  rw [this, e, z]; simp

end Sys2Proof
end

