-- ==== Sys2Proof/Laws/OnBuild.lean ====
section
/-! SUPPORT. This hardware is the machine of Sys2Proof/Machine/OnBuild.lean at the build `Build.des`, and the quantities of that
build. -/

namespace Sys2Proof

/-- The block of a build that fits is 1 to 8 bytes (00_scope.md R6). -/
theorem Build.Fits.blockBytes {B : Build} (h : B.Fits) : 0 < B.blockBytes ∧ B.blockBytes ≤ 8 := by
  obtain ⟨-, h1, h2⟩ := h
  unfold Build.blockBytes
  omega

/-- A build that fits passes the construction check (70_reset_and_hazards.md R221). -/
theorem Build.Fits.not_bad {B : Build} (h : B.Fits) : B.bad = false := by
  obtain ⟨h1, h2, -⟩ := h
  simp only [Build.bad, Bool.or_eq_false_iff, decide_eq_false_iff_not]
  omega

theorem Build.fits_des : Build.des.Fits := by
  unfold Build.Fits
  decide

namespace Machine

@[simp] theorem des_blockBytes : Build.des.blockBytes = 8 := rfl
@[simp] theorem des_halfBits : Build.des.halfBits = 32 := rfl
@[simp] theorem des_rounds : Build.des.rounds = 16 := rfl
@[simp] theorem des_bitOrder : Build.des.bitOrder = .msbFirst := rfl
@[simp] theorem des_tables : Build.des.tables = Rom.des := rfl
@[simp] theorem des_bad : Build.des.bad = false := rfl

/-- The IV of this hardware is the whole draw (20_memory.md R58). -/
@[simp] theorem ivOf_des (d : Draw) : ivOf Build.des d = d.toList := by
  simp [ivOf]

/-- `S_EIV` on this hardware writes the whole draw (45_cbc_stream.md R175 step 1). -/
theorem stepEiv_des (s : State) :
    stepEiv Build.des s = withDraw s fun d t =>
      withWrite d.toList t fun u => .next (u.loadChain (fromBytes .msbFirst d.toList) .eblk) := by
  simp only [stepEiv, ivOf_des, des_bitOrder]

theorem padIfShort_des (bs : List Byte) : padIfShort Build.des bs = if bs.length < 8 then pad 8 bs else bs := rfl

theorem emitCipher_des (n : Nat) (cur c : Buf) (s : State) :
    emitCipher Build.des n cur c s = withWrite (toBytes .msbFirst c 8) (s.withBlock cur (BitVec.ofNat 4 n)) fun u =>
      if n < 8 then finish (u.setChain c) else .next (u.setChain c) := rfl

/-- `S_EBLK` on this hardware (45_cbc_stream.md R175 step 2). -/
theorem stepEblk_des (s : State) :
    stepEblk Build.des s = withRead 8 s fun bs t =>
      if bs.length = 0 then finish t
      else
        let cur := fromBytes .msbFirst (padIfShort Build.des bs) ^^^ t.stream.chain
        emitCipher Build.des bs.length cur (encryptBlock Build.des cur t.key.v) t := rfl

/-- `S_DIV` on this hardware (45_cbc_stream.md R179 step 1). -/
theorem stepDiv_des (s : State) :
    stepDiv Build.des s = withRead 8 s fun iv t =>
      require (iv.length == 8) .format t (.next (t.loadChain (fromBytes .msbFirst iv) .dfirst)) := rfl

/-- `S_DFIRST` on this hardware (45_cbc_stream.md R179 step 2). -/
theorem stepDfirst_des (s : State) :
    stepDfirst Build.des s = withRead 8 s fun bs t =>
      if bs.length = 0 then finish t
      else
        require (bs.length == 8) .format t
          (.next (t.loadCur (fromBytes .msbFirst bs) (BitVec.ofNat 4 bs.length))) := rfl

theorem plainOf_des (s : State) (last : Bool) :
    plainOf Build.des s last =
      if last then
        unpad 8 (toBytes .msbFirst (decryptBlock Build.des s.stream.cur s.key.v ^^^ s.stream.chain) 8)
      else toBytes .msbFirst (decryptBlock Build.des s.stream.cur s.key.v ^^^ s.stream.chain) 8 := rfl

/-- `S_DBLK` on this hardware (45_cbc_stream.md R179 step 3). -/
theorem stepDblk_des (s : State) :
    stepDblk Build.des s = withRead 8 s fun bs t =>
      require (bs.length == 0 || bs.length == 8) .format t
        (emitPlain bs.length (fromBytes .msbFirst bs) (plainOf Build.des t (bs.length == 0)) t) := rfl

/-- `exec` is the parametric machine's at `Build.des`. -/
theorem exec_eq_execOn (i : Instr) (s : State) : exec i s = execOn Build.des i s := by
  cases i <;> rfl

/-- `step` is the parametric machine's at `Build.des`. -/
theorem step_eq_stepOn (s : State) : step s = stepOn Build.des s := by
  have h : exec = execOn Build.des := funext fun i => funext fun t => exec_eq_execOn i t
  simp only [step, stepOn, h]

end Machine

end Sys2Proof
end

