-- ==== Sys2Proof/Laws/State.lean ====
section
/-! SUPPORT. One lemma per field per update of State, each true by rfl, so that no later proof unfolds a record update; and
what a register of the file holds after a write. -/

namespace Sys2Proof.Machine

@[simp] theorem State.writeBuf_bufs (s : State) (r : Reg) (v : Buf) : (s.writeBuf r v).bufs = s.bufs.set r { isOpen := true, v := v } := rfl
@[simp] theorem State.writeBuf_key (s : State) (r : Reg) (v : Buf) : (s.writeBuf r v).key = s.key := rfl
@[simp] theorem State.writeBuf_res (s : State) (r : Reg) (v : Buf) : (s.writeBuf r v).res = s.res := rfl
@[simp] theorem State.writeBuf_status (s : State) (r : Reg) (v : Buf) : (s.writeBuf r v).status = s.status := rfl
@[simp] theorem State.writeBuf_fcode (s : State) (r : Reg) (v : Buf) : (s.writeBuf r v).fcode = s.fcode := rfl
@[simp] theorem State.writeBuf_fcmd (s : State) (r : Reg) (v : Buf) : (s.writeBuf r v).fcmd = s.fcmd := rfl
@[simp] theorem State.writeBuf_round (s : State) (r : Reg) (v : Buf) : (s.writeBuf r v).round = s.round := rfl
@[simp] theorem State.writeBuf_stream (s : State) (r : Reg) (v : Buf) : (s.writeBuf r v).stream = s.stream := rfl
@[simp] theorem State.writeBuf_test (s : State) (r : Reg) (v : Buf) : (s.writeBuf r v).test = s.test := rfl
@[simp] theorem State.writeBuf_inq (s : State) (r : Reg) (v : Buf) : (s.writeBuf r v).inq = s.inq := rfl
@[simp] theorem State.writeBuf_out (s : State) (r : Reg) (v : Buf) : (s.writeBuf r v).out = s.out := rfl
@[simp] theorem State.writeBuf_rng (s : State) (r : Reg) (v : Buf) : (s.writeBuf r v).rng = s.rng := rfl
@[simp] theorem State.writeBuf_nwrites (s : State) (r : Reg) (v : Buf) : (s.writeBuf r v).nwrites = s.nwrites := rfl
@[simp] theorem State.writeBuf_cmd (s : State) (r : Reg) (v : Buf) : (s.writeBuf r v).cmd = s.cmd := rfl
@[simp] theorem State.writeBuf_cip (s : State) (r : Reg) (v : Buf) : (s.writeBuf r v).cip = s.cip := rfl
@[simp] theorem State.writeBuf_outFail (s : State) (r : Reg) (v : Buf) : (s.writeBuf r v).outFail = s.outFail := rfl
@[simp] theorem State.writeBuf_testen (s : State) (r : Reg) (v : Buf) : (s.writeBuf r v).testen = s.testen := rfl
@[simp] theorem State.writeBuf_resetPin (s : State) (r : Reg) (v : Buf) : (s.writeBuf r v).resetPin = s.resetPin := rfl

@[simp] theorem State.closeBuf_bufs (s : State) (r : Reg) : (s.closeBuf r).bufs = s.bufs.set r BufReg.closed := rfl
@[simp] theorem State.closeBuf_key (s : State) (r : Reg) : (s.closeBuf r).key = s.key := rfl
@[simp] theorem State.closeBuf_res (s : State) (r : Reg) : (s.closeBuf r).res = s.res := rfl
@[simp] theorem State.closeBuf_status (s : State) (r : Reg) : (s.closeBuf r).status = s.status := rfl
@[simp] theorem State.closeBuf_fcode (s : State) (r : Reg) : (s.closeBuf r).fcode = s.fcode := rfl
@[simp] theorem State.closeBuf_fcmd (s : State) (r : Reg) : (s.closeBuf r).fcmd = s.fcmd := rfl
@[simp] theorem State.closeBuf_round (s : State) (r : Reg) : (s.closeBuf r).round = s.round := rfl
@[simp] theorem State.closeBuf_stream (s : State) (r : Reg) : (s.closeBuf r).stream = s.stream := rfl
@[simp] theorem State.closeBuf_test (s : State) (r : Reg) : (s.closeBuf r).test = s.test := rfl
@[simp] theorem State.closeBuf_inq (s : State) (r : Reg) : (s.closeBuf r).inq = s.inq := rfl
@[simp] theorem State.closeBuf_out (s : State) (r : Reg) : (s.closeBuf r).out = s.out := rfl
@[simp] theorem State.closeBuf_rng (s : State) (r : Reg) : (s.closeBuf r).rng = s.rng := rfl
@[simp] theorem State.closeBuf_nwrites (s : State) (r : Reg) : (s.closeBuf r).nwrites = s.nwrites := rfl
@[simp] theorem State.closeBuf_cmd (s : State) (r : Reg) : (s.closeBuf r).cmd = s.cmd := rfl
@[simp] theorem State.closeBuf_cip (s : State) (r : Reg) : (s.closeBuf r).cip = s.cip := rfl
@[simp] theorem State.closeBuf_outFail (s : State) (r : Reg) : (s.closeBuf r).outFail = s.outFail := rfl
@[simp] theorem State.closeBuf_testen (s : State) (r : Reg) : (s.closeBuf r).testen = s.testen := rfl
@[simp] theorem State.closeBuf_resetPin (s : State) (r : Reg) : (s.closeBuf r).resetPin = s.resetPin := rfl

@[simp] theorem State.writeRes_bufs (s : State) (n : BitVec 7) : (s.writeRes n).bufs = s.bufs := rfl
@[simp] theorem State.writeRes_key (s : State) (n : BitVec 7) : (s.writeRes n).key = s.key := rfl
@[simp] theorem State.writeRes_res (s : State) (n : BitVec 7) : (s.writeRes n).res = n := rfl
@[simp] theorem State.writeRes_status (s : State) (n : BitVec 7) : (s.writeRes n).status = s.status := rfl
@[simp] theorem State.writeRes_fcode (s : State) (n : BitVec 7) : (s.writeRes n).fcode = s.fcode := rfl
@[simp] theorem State.writeRes_fcmd (s : State) (n : BitVec 7) : (s.writeRes n).fcmd = s.fcmd := rfl
@[simp] theorem State.writeRes_round (s : State) (n : BitVec 7) : (s.writeRes n).round = s.round := rfl
@[simp] theorem State.writeRes_stream (s : State) (n : BitVec 7) : (s.writeRes n).stream = s.stream := rfl
@[simp] theorem State.writeRes_test (s : State) (n : BitVec 7) : (s.writeRes n).test = s.test := rfl
@[simp] theorem State.writeRes_inq (s : State) (n : BitVec 7) : (s.writeRes n).inq = s.inq := rfl
@[simp] theorem State.writeRes_out (s : State) (n : BitVec 7) : (s.writeRes n).out = s.out := rfl
@[simp] theorem State.writeRes_rng (s : State) (n : BitVec 7) : (s.writeRes n).rng = s.rng := rfl
@[simp] theorem State.writeRes_nwrites (s : State) (n : BitVec 7) : (s.writeRes n).nwrites = s.nwrites := rfl
@[simp] theorem State.writeRes_cmd (s : State) (n : BitVec 7) : (s.writeRes n).cmd = s.cmd := rfl
@[simp] theorem State.writeRes_cip (s : State) (n : BitVec 7) : (s.writeRes n).cip = s.cip := rfl
@[simp] theorem State.writeRes_outFail (s : State) (n : BitVec 7) : (s.writeRes n).outFail = s.outFail := rfl
@[simp] theorem State.writeRes_testen (s : State) (n : BitVec 7) : (s.writeRes n).testen = s.testen := rfl
@[simp] theorem State.writeRes_resetPin (s : State) (n : BitVec 7) : (s.writeRes n).resetPin = s.resetPin := rfl

@[simp] theorem State.writeKey_bufs (s : State) (k : KeyReg) : (s.writeKey k).bufs = s.bufs := rfl
@[simp] theorem State.writeKey_key (s : State) (k : KeyReg) : (s.writeKey k).key = k := rfl
@[simp] theorem State.writeKey_res (s : State) (k : KeyReg) : (s.writeKey k).res = s.res := rfl
@[simp] theorem State.writeKey_status (s : State) (k : KeyReg) : (s.writeKey k).status = s.status := rfl
@[simp] theorem State.writeKey_fcode (s : State) (k : KeyReg) : (s.writeKey k).fcode = s.fcode := rfl
@[simp] theorem State.writeKey_fcmd (s : State) (k : KeyReg) : (s.writeKey k).fcmd = s.fcmd := rfl
@[simp] theorem State.writeKey_round (s : State) (k : KeyReg) : (s.writeKey k).round = s.round := rfl
@[simp] theorem State.writeKey_stream (s : State) (k : KeyReg) : (s.writeKey k).stream = s.stream := rfl
@[simp] theorem State.writeKey_test (s : State) (k : KeyReg) : (s.writeKey k).test = s.test := rfl
@[simp] theorem State.writeKey_inq (s : State) (k : KeyReg) : (s.writeKey k).inq = s.inq := rfl
@[simp] theorem State.writeKey_out (s : State) (k : KeyReg) : (s.writeKey k).out = s.out := rfl
@[simp] theorem State.writeKey_rng (s : State) (k : KeyReg) : (s.writeKey k).rng = s.rng := rfl
@[simp] theorem State.writeKey_nwrites (s : State) (k : KeyReg) : (s.writeKey k).nwrites = s.nwrites := rfl
@[simp] theorem State.writeKey_cmd (s : State) (k : KeyReg) : (s.writeKey k).cmd = s.cmd := rfl
@[simp] theorem State.writeKey_cip (s : State) (k : KeyReg) : (s.writeKey k).cip = s.cip := rfl
@[simp] theorem State.writeKey_outFail (s : State) (k : KeyReg) : (s.writeKey k).outFail = s.outFail := rfl
@[simp] theorem State.writeKey_testen (s : State) (k : KeyReg) : (s.writeKey k).testen = s.testen := rfl
@[simp] theorem State.writeKey_resetPin (s : State) (k : KeyReg) : (s.writeKey k).resetPin = s.resetPin := rfl

@[simp] theorem State.scrubRound_bufs (s : State) : (s.scrubRound).bufs = s.bufs := rfl
@[simp] theorem State.scrubRound_key (s : State) : (s.scrubRound).key = s.key := rfl
@[simp] theorem State.scrubRound_res (s : State) : (s.scrubRound).res = s.res := rfl
@[simp] theorem State.scrubRound_status (s : State) : (s.scrubRound).status = s.status := rfl
@[simp] theorem State.scrubRound_fcode (s : State) : (s.scrubRound).fcode = s.fcode := rfl
@[simp] theorem State.scrubRound_fcmd (s : State) : (s.scrubRound).fcmd = s.fcmd := rfl
@[simp] theorem State.scrubRound_round (s : State) : (s.scrubRound).round = RoundRegs.zero := rfl
@[simp] theorem State.scrubRound_stream (s : State) : (s.scrubRound).stream = s.stream := rfl
@[simp] theorem State.scrubRound_test (s : State) : (s.scrubRound).test = s.test := rfl
@[simp] theorem State.scrubRound_inq (s : State) : (s.scrubRound).inq = s.inq := rfl
@[simp] theorem State.scrubRound_out (s : State) : (s.scrubRound).out = s.out := rfl
@[simp] theorem State.scrubRound_rng (s : State) : (s.scrubRound).rng = s.rng := rfl
@[simp] theorem State.scrubRound_nwrites (s : State) : (s.scrubRound).nwrites = s.nwrites := rfl
@[simp] theorem State.scrubRound_cmd (s : State) : (s.scrubRound).cmd = s.cmd := rfl
@[simp] theorem State.scrubRound_cip (s : State) : (s.scrubRound).cip = s.cip := rfl
@[simp] theorem State.scrubRound_outFail (s : State) : (s.scrubRound).outFail = s.outFail := rfl
@[simp] theorem State.scrubRound_testen (s : State) : (s.scrubRound).testen = s.testen := rfl
@[simp] theorem State.scrubRound_resetPin (s : State) : (s.scrubRound).resetPin = s.resetPin := rfl

@[simp] theorem State.scrubStream_bufs (s : State) : (s.scrubStream).bufs = s.bufs := rfl
@[simp] theorem State.scrubStream_key (s : State) : (s.scrubStream).key = s.key := rfl
@[simp] theorem State.scrubStream_res (s : State) : (s.scrubStream).res = s.res := rfl
@[simp] theorem State.scrubStream_status (s : State) : (s.scrubStream).status = s.status := rfl
@[simp] theorem State.scrubStream_fcode (s : State) : (s.scrubStream).fcode = s.fcode := rfl
@[simp] theorem State.scrubStream_fcmd (s : State) : (s.scrubStream).fcmd = s.fcmd := rfl
@[simp] theorem State.scrubStream_round (s : State) : (s.scrubStream).round = s.round := rfl
@[simp] theorem State.scrubStream_stream (s : State) : (s.scrubStream).stream = StreamRegs.zero := rfl
@[simp] theorem State.scrubStream_test (s : State) : (s.scrubStream).test = s.test := rfl
@[simp] theorem State.scrubStream_inq (s : State) : (s.scrubStream).inq = s.inq := rfl
@[simp] theorem State.scrubStream_out (s : State) : (s.scrubStream).out = s.out := rfl
@[simp] theorem State.scrubStream_rng (s : State) : (s.scrubStream).rng = s.rng := rfl
@[simp] theorem State.scrubStream_nwrites (s : State) : (s.scrubStream).nwrites = s.nwrites := rfl
@[simp] theorem State.scrubStream_cmd (s : State) : (s.scrubStream).cmd = s.cmd := rfl
@[simp] theorem State.scrubStream_cip (s : State) : (s.scrubStream).cip = s.cip := rfl
@[simp] theorem State.scrubStream_outFail (s : State) : (s.scrubStream).outFail = s.outFail := rfl
@[simp] theorem State.scrubStream_testen (s : State) : (s.scrubStream).testen = s.testen := rfl
@[simp] theorem State.scrubStream_resetPin (s : State) : (s.scrubStream).resetPin = s.resetPin := rfl

@[simp] theorem State.raise_bufs (s : State) (c : FaultCode) : (s.raise c).bufs = s.bufs := rfl
@[simp] theorem State.raise_key (s : State) (c : FaultCode) : (s.raise c).key = s.key := rfl
@[simp] theorem State.raise_res (s : State) (c : FaultCode) : (s.raise c).res = s.res := rfl
@[simp] theorem State.raise_status (s : State) (c : FaultCode) : (s.raise c).status = { busy := false, halt := true } := rfl
@[simp] theorem State.raise_fcode (s : State) (c : FaultCode) : (s.raise c).fcode = c.code := rfl
@[simp] theorem State.raise_fcmd (s : State) (c : FaultCode) : (s.raise c).fcmd = s.cip := rfl
@[simp] theorem State.raise_round (s : State) (c : FaultCode) : (s.raise c).round = RoundRegs.zero := rfl
@[simp] theorem State.raise_stream (s : State) (c : FaultCode) : (s.raise c).stream = StreamRegs.zero := rfl
@[simp] theorem State.raise_test (s : State) (c : FaultCode) : (s.raise c).test = s.test := rfl
@[simp] theorem State.raise_inq (s : State) (c : FaultCode) : (s.raise c).inq = s.inq := rfl
@[simp] theorem State.raise_out (s : State) (c : FaultCode) : (s.raise c).out = s.out := rfl
@[simp] theorem State.raise_rng (s : State) (c : FaultCode) : (s.raise c).rng = s.rng := rfl
@[simp] theorem State.raise_nwrites (s : State) (c : FaultCode) : (s.raise c).nwrites = s.nwrites := rfl
@[simp] theorem State.raise_cmd (s : State) (c : FaultCode) : (s.raise c).cmd = s.cmd := rfl
@[simp] theorem State.raise_cip (s : State) (c : FaultCode) : (s.raise c).cip = 0 := rfl
@[simp] theorem State.raise_outFail (s : State) (c : FaultCode) : (s.raise c).outFail = s.outFail := rfl
@[simp] theorem State.raise_testen (s : State) (c : FaultCode) : (s.raise c).testen = s.testen := rfl
@[simp] theorem State.raise_resetPin (s : State) (c : FaultCode) : (s.raise c).resetPin = s.resetPin := rfl

@[simp] theorem State.complete_bufs (s : State) : (s.complete).bufs = s.bufs := rfl
@[simp] theorem State.complete_key (s : State) : (s.complete).key = s.key := rfl
@[simp] theorem State.complete_res (s : State) : (s.complete).res = s.res := rfl
@[simp] theorem State.complete_status (s : State) : (s.complete).status = { s.status with busy := false } := rfl
@[simp] theorem State.complete_fcode (s : State) : (s.complete).fcode = s.fcode := rfl
@[simp] theorem State.complete_fcmd (s : State) : (s.complete).fcmd = s.fcmd := rfl
@[simp] theorem State.complete_round (s : State) : (s.complete).round = s.round := rfl
@[simp] theorem State.complete_stream (s : State) : (s.complete).stream = s.stream := rfl
@[simp] theorem State.complete_test (s : State) : (s.complete).test = s.test := rfl
@[simp] theorem State.complete_inq (s : State) : (s.complete).inq = s.inq := rfl
@[simp] theorem State.complete_out (s : State) : (s.complete).out = s.out := rfl
@[simp] theorem State.complete_rng (s : State) : (s.complete).rng = s.rng := rfl
@[simp] theorem State.complete_nwrites (s : State) : (s.complete).nwrites = s.nwrites := rfl
@[simp] theorem State.complete_cmd (s : State) : (s.complete).cmd = s.cmd := rfl
@[simp] theorem State.complete_cip (s : State) : (s.complete).cip = 0 := rfl
@[simp] theorem State.complete_outFail (s : State) : (s.complete).outFail = s.outFail := rfl
@[simp] theorem State.complete_testen (s : State) : (s.complete).testen = s.testen := rfl
@[simp] theorem State.complete_resetPin (s : State) : (s.complete).resetPin = s.resetPin := rfl

@[simp] theorem State.finish_bufs (s : State) : (s.finish).bufs = s.bufs := rfl
@[simp] theorem State.finish_key (s : State) : (s.finish).key = s.key := rfl
@[simp] theorem State.finish_res (s : State) : (s.finish).res = s.res := rfl
@[simp] theorem State.finish_status (s : State) : (s.finish).status = { s.status with busy := false } := rfl
@[simp] theorem State.finish_fcode (s : State) : (s.finish).fcode = s.fcode := rfl
@[simp] theorem State.finish_fcmd (s : State) : (s.finish).fcmd = s.fcmd := rfl
@[simp] theorem State.finish_round (s : State) : (s.finish).round = RoundRegs.zero := rfl
@[simp] theorem State.finish_stream (s : State) : (s.finish).stream = StreamRegs.zero := rfl
@[simp] theorem State.finish_test (s : State) : (s.finish).test = s.test := rfl
@[simp] theorem State.finish_inq (s : State) : (s.finish).inq = s.inq := rfl
@[simp] theorem State.finish_out (s : State) : (s.finish).out = s.out := rfl
@[simp] theorem State.finish_rng (s : State) : (s.finish).rng = s.rng := rfl
@[simp] theorem State.finish_nwrites (s : State) : (s.finish).nwrites = s.nwrites := rfl
@[simp] theorem State.finish_cmd (s : State) : (s.finish).cmd = s.cmd := rfl
@[simp] theorem State.finish_cip (s : State) : (s.finish).cip = 0 := rfl
@[simp] theorem State.finish_outFail (s : State) : (s.finish).outFail = s.outFail := rfl
@[simp] theorem State.finish_testen (s : State) : (s.finish).testen = s.testen := rfl
@[simp] theorem State.finish_resetPin (s : State) : (s.finish).resetPin = s.resetPin := rfl

@[simp] theorem State.accept_bufs (s : State) (w : CmdWord) : (s.accept w).bufs = s.bufs := rfl
@[simp] theorem State.accept_key (s : State) (w : CmdWord) : (s.accept w).key = s.key := rfl
@[simp] theorem State.accept_res (s : State) (w : CmdWord) : (s.accept w).res = s.res := rfl
@[simp] theorem State.accept_status (s : State) (w : CmdWord) : (s.accept w).status = { s.status with busy := true } := rfl
@[simp] theorem State.accept_fcode (s : State) (w : CmdWord) : (s.accept w).fcode = s.fcode := rfl
@[simp] theorem State.accept_fcmd (s : State) (w : CmdWord) : (s.accept w).fcmd = s.fcmd := rfl
@[simp] theorem State.accept_round (s : State) (w : CmdWord) : (s.accept w).round = s.round := rfl
@[simp] theorem State.accept_stream (s : State) (w : CmdWord) : (s.accept w).stream = s.stream := rfl
@[simp] theorem State.accept_test (s : State) (w : CmdWord) : (s.accept w).test = s.test := rfl
@[simp] theorem State.accept_inq (s : State) (w : CmdWord) : (s.accept w).inq = s.inq := rfl
@[simp] theorem State.accept_out (s : State) (w : CmdWord) : (s.accept w).out = s.out := rfl
@[simp] theorem State.accept_rng (s : State) (w : CmdWord) : (s.accept w).rng = s.rng := rfl
@[simp] theorem State.accept_nwrites (s : State) (w : CmdWord) : (s.accept w).nwrites = s.nwrites := rfl
@[simp] theorem State.accept_cmd (s : State) (w : CmdWord) : (s.accept w).cmd = s.cmd := rfl
@[simp] theorem State.accept_cip (s : State) (w : CmdWord) : (s.accept w).cip = w := rfl
@[simp] theorem State.accept_outFail (s : State) (w : CmdWord) : (s.accept w).outFail = s.outFail := rfl
@[simp] theorem State.accept_testen (s : State) (w : CmdWord) : (s.accept w).testen = s.testen := rfl
@[simp] theorem State.accept_resetPin (s : State) (w : CmdWord) : (s.accept w).resetPin = s.resetPin := rfl

/-- The register written holds the value and is open (00_scope.md R16). -/
@[simp] theorem State.writeBuf_self (s : State) (r : Reg) (v : Buf) :
    (s.writeBuf r v).bufs[r] = { isOpen := true, v := v } := by
  simp [State.writeBuf]

/-- Every other register is unchanged (10_state.md R20). -/
theorem State.writeBuf_other (s : State) {r q : Reg} (v : Buf) (h : q ≠ r) :
    (s.writeBuf r v).bufs[q] = s.bufs[q] := by
  have : r.val ≠ q.val := fun e => h (Fin.ext e.symm)
  simp [State.writeBuf, this]

/-- The register closed is released and zero (10_state.md R23). -/
@[simp] theorem State.closeBuf_self (s : State) (r : Reg) : (s.closeBuf r).bufs[r] = BufReg.closed := by
  simp [State.closeBuf]

/-- Every other register is unchanged (10_state.md R20). -/
theorem State.closeBuf_other (s : State) {r q : Reg} (h : q ≠ r) : (s.closeBuf r).bufs[q] = s.bufs[q] := by
  have : r.val ≠ q.val := fun e => h (Fin.ext e.symm)
  simp [State.closeBuf, this]

/-- What any register holds after a write. -/
theorem State.writeBuf_get (s : State) (r q : Reg) (v : Buf) :
    (s.writeBuf r v).bufs[q] = if q = r then { isOpen := true, v := v } else s.bufs[q] := by
  split
  · next h => subst h; simp
  · next h => exact State.writeBuf_other s v h

/-- What any register holds after a close. -/
theorem State.closeBuf_get (s : State) (r q : Reg) :
    (s.closeBuf r).bufs[q] = if q = r then BufReg.closed else s.bufs[q] := by
  split
  · next h => subst h; simp
  · next h => exact State.closeBuf_other s h

end Sys2Proof.Machine
end

