-- ==== Sys2Proof/Laws/Ops.lean ====
section
/-! SUPPORT. For each shared operation, the one lemma that says everything it can do (if it answers a next state, then one of
these cases holds), and its equations where the case is known. Later proofs cite these instead of unfolding it. -/

namespace Sys2Proof.Machine

@[simp] theorem trap_eq (c : FaultCode) (s : State) : trap c s = .next (s.raise c) := rfl

@[simp] theorem done_eq (s : State) : done s = .next s.complete := rfl

@[simp] theorem finish_eq (s : State) : finish s = .next s.finish := rfl

@[simp] theorem stall_eq (s : State) : stall s = .next s := rfl

@[simp] theorem illegalWord_eq (s : State) : illegalWord s = .next (s.raise .illegal) := rfl

@[simp] theorem require_true (c : FaultCode) (s : State) (k : Result) : require true c s k = k := rfl

@[simp] theorem require_false (c : FaultCode) (s : State) (k : Result) : require false c s k = .next (s.raise c) := rfl

/-- Everything a check can do (40_bit_buffer.md R100). -/
theorem require_cases {ok : Bool} {c : FaultCode} {s t : State} {k : Result} (h : require ok c s k = .next t) :
    (ok = true ∧ k = .next t) ∨ (ok = false ∧ t = s.raise c) := by
  cases ok
  · right; simpa [eq_comm] using h
  · left; simpa using h

/-- A read of an open register goes on with its value (00_scope.md R16). -/
theorem withBuf_open {r : Reg} {s : State} (k : Buf → Result) (h : s.bufs[r].isOpen = true) :
    withBuf r s k = k s.bufs[r].v := by
  rw [withBuf, h, require_true]

/-- A read of a closed register faults `E_ARG` (40_bit_buffer.md R100 item 2). -/
theorem withBuf_closed {r : Reg} {s : State} (k : Buf → Result) (h : s.bufs[r].isOpen = false) :
    withBuf r s k = .next (s.raise .arg) := by
  rw [withBuf, h, require_false]

/-- Everything a register read can do. -/
theorem withBuf_cases {r : Reg} {s t : State} {k : Buf → Result} (h : withBuf r s k = .next t) :
    (s.bufs[r].isOpen = true ∧ k s.bufs[r].v = .next t) ∨ (s.bufs[r].isOpen = false ∧ t = s.raise .arg) :=
  require_cases h

/-- Everything `InRead` can do (20_memory.md R56). -/
theorem withRead_cases {n : Nat} {s t : State} {k : List Byte → State → Result} (h : withRead n s k = .next t) :
    (∃ bs rest, readFully n s.inq = .bytes bs rest ∧ k bs { s with inq := rest } = .next t) ∨
    (∃ rest, readFully n s.inq = .failed rest ∧ t = { s with inq := rest }.raise .io) ∨
    (readFully n s.inq = .starved ∧ t = s) := by
  unfold withRead at h
  split at h
  · next bs rest e => exact .inl ⟨bs, rest, e, h⟩
  · next rest e => exact .inr (.inl ⟨rest, e, by simpa [eq_comm] using h⟩)
  · next e => exact .inr (.inr ⟨e, by simpa [eq_comm] using h⟩)

/-- Everything `OutWrite` can do (20_memory.md R57). -/
theorem withWrite_cases {bs : List Byte} {s t : State} {k : State → Result} (h : withWrite bs s k = .next t) :
    (bs = [] ∧ k s = .next t) ∨
    (bs ≠ [] ∧ s.outFail = some s.nwrites ∧ t = { s with nwrites := s.nwrites + 1 }.raise .io) ∨
    (bs ≠ [] ∧ s.outFail ≠ some s.nwrites ∧
      k { s with nwrites := s.nwrites + 1, out := s.out ++ bs } = .next t) := by
  unfold withWrite at h
  split at h
  · next e => exact .inl ⟨e, h⟩
  · next e =>
    split at h
    · next f => exact .inr (.inl ⟨e, f, by simpa [eq_comm] using h⟩)
    · next f => exact .inr (.inr ⟨e, f, h⟩)

/-- Everything `RngDraw` can do (20_memory.md R58). -/
theorem withDraw_cases {s t : State} {k : Draw → State → Result} (h : withDraw s k = .next t) :
    (∃ d rest, s.rng = d :: rest ∧ k d { s with rng := rest } = .next t) ∨ (s.rng = [] ∧ t = s) := by
  unfold withDraw at h
  split at h
  · next e => exact .inr ⟨e, by simpa [eq_comm] using h⟩
  · next d rest e => exact .inl ⟨d, rest, e, h⟩

/-- What a read that succeeds has consumed: its bytes, and an `eos` when it is short (20_memory.md R56). -/
theorem readFully_bytes {n : Nat} {q : List InItem} {bs : List Byte} {rest : List InItem}
    (h : readFully n q = .bytes bs rest) :
    (bs.length = n ∧ q = bs.map InItem.byte ++ rest) ∨
    (bs.length < n ∧ q = bs.map InItem.byte ++ InItem.eos :: rest) := by
  induction n generalizing q bs rest with
  | zero =>
    simp only [readFully, ReadResult.bytes.injEq] at h
    obtain ⟨rfl, rfl⟩ := h
    simp
  | succ n ih =>
    cases q with
    | nil => simp [readFully] at h
    | cons x q =>
      cases x with
      | eos =>
        simp only [readFully, ReadResult.bytes.injEq] at h
        obtain ⟨rfl, rfl⟩ := h
        simp
      | err => simp [readFully] at h
      | byte b =>
        cases e : readFully n q with
        | bytes cs rest' =>
          simp only [readFully, e, ReadResult.bytes.injEq] at h
          obtain ⟨rfl, rfl⟩ := h
          rcases ih e with ⟨h1, h2⟩ | ⟨h1, h2⟩
          · left; simp [h1, h2]
          · right; simp [h1, h2]
        | failed _ => simp [readFully, e] at h
        | starved => simp [readFully, e] at h

/-- A read never returns more bytes than it asked for (20_memory.md R56). -/
theorem readFully_length_le {n : Nat} {q : List InItem} {bs : List Byte} {rest : List InItem}
    (h : readFully n q = .bytes bs rest) : bs.length ≤ n := by
  rcases readFully_bytes h with ⟨h1, -⟩ | ⟨h1, -⟩ <;> omega

/-- What a read that fails has consumed: the bytes before the `err`, and the `err` (20_memory.md R56). -/
theorem readFully_failed {n : Nat} {q rest : List InItem} (h : readFully n q = .failed rest) :
    ∃ bs : List Byte, bs.length < n ∧ q = bs.map InItem.byte ++ InItem.err :: rest := by
  induction n generalizing q with
  | zero => simp [readFully] at h
  | succ n ih =>
    cases q with
    | nil => simp [readFully] at h
    | cons x q =>
      cases x with
      | eos => simp [readFully] at h
      | err =>
        simp only [readFully, ReadResult.failed.injEq] at h
        subst h
        exact ⟨[], by simp, by simp⟩
      | byte b =>
        cases e : readFully n q with
        | bytes _ _ => simp [readFully, e] at h
        | failed _ =>
          simp only [readFully, e, ReadResult.failed.injEq] at h
          subst h
          obtain ⟨cs, h1, h2⟩ := ih e
          exact ⟨b :: cs, by simp [h1], by simp [h2]⟩
        | starved => simp [readFully, e] at h

/-- A read that stalls has a queue of too few bytes and nothing after them (20_memory.md R56). -/
theorem readFully_starved {n : Nat} {q : List InItem} (h : readFully n q = .starved) :
    ∃ bs : List Byte, bs.length < n ∧ q = bs.map InItem.byte := by
  induction n generalizing q with
  | zero => simp [readFully] at h
  | succ n ih =>
    cases q with
    | nil => exact ⟨[], by simp, by simp⟩
    | cons x q =>
      cases x with
      | eos => simp [readFully] at h
      | err => simp [readFully] at h
      | byte b =>
        cases e : readFully n q with
        | bytes _ _ => simp [readFully, e] at h
        | failed _ => simp [readFully, e] at h
        | starved =>
          obtain ⟨cs, h1, h2⟩ := ih e
          exact ⟨b :: cs, by simp [h1], by simp [h2]⟩

/-- What is left of a queue after a read is its end: items leave in queue order (20_memory.md R62). -/
theorem readFully_rest {n : Nat} {q : List InItem} {bs : List Byte} {rest : List InItem}
    (h : readFully n q = .bytes bs rest) : rest <:+ q := by
  rcases readFully_bytes h with ⟨-, rfl⟩ | ⟨-, rfl⟩
  · exact List.suffix_append _ _
  · exact ⟨bs.map InItem.byte ++ [InItem.eos], by simp⟩

/-- The same after a read that fails (20_memory.md R56, R62). -/
theorem readFully_failed_rest {n : Nat} {q rest : List InItem} (h : readFully n q = .failed rest) : rest <:+ q := by
  obtain ⟨cs, -, rfl⟩ := readFully_failed h
  exact ⟨cs.map InItem.byte ++ [InItem.err], by simp⟩

end Sys2Proof.Machine
end

