-- ==== Sys2Proof/Laws/Stream.lean ====
section
/-! SUPPORT. The updates of the stream steps, one lemma per field, and for each step of the chaining state machine the one
lemma that says everything it can do (spec/45_cbc_stream.md R173). -/

namespace Sys2Proof.Machine

@[simp] theorem State.beginStream_bufs (s : State) (f : Sst) : (s.beginStream f).bufs = s.bufs := rfl
@[simp] theorem State.beginStream_key (s : State) (f : Sst) : (s.beginStream f).key = s.key := rfl
@[simp] theorem State.beginStream_res (s : State) (f : Sst) : (s.beginStream f).res = s.res := rfl
@[simp] theorem State.beginStream_status (s : State) (f : Sst) : (s.beginStream f).status = { s.status with busy := true } := rfl
@[simp] theorem State.beginStream_fcode (s : State) (f : Sst) : (s.beginStream f).fcode = s.fcode := rfl
@[simp] theorem State.beginStream_fcmd (s : State) (f : Sst) : (s.beginStream f).fcmd = s.fcmd := rfl
@[simp] theorem State.beginStream_round (s : State) (f : Sst) : (s.beginStream f).round = s.round := rfl
@[simp] theorem State.beginStream_stream (s : State) (f : Sst) : (s.beginStream f).stream = { s.stream with sst := f } := rfl
@[simp] theorem State.beginStream_test (s : State) (f : Sst) : (s.beginStream f).test = s.test := rfl
@[simp] theorem State.beginStream_inq (s : State) (f : Sst) : (s.beginStream f).inq = s.inq := rfl
@[simp] theorem State.beginStream_out (s : State) (f : Sst) : (s.beginStream f).out = s.out := rfl
@[simp] theorem State.beginStream_rng (s : State) (f : Sst) : (s.beginStream f).rng = s.rng := rfl
@[simp] theorem State.beginStream_nwrites (s : State) (f : Sst) : (s.beginStream f).nwrites = s.nwrites := rfl
@[simp] theorem State.beginStream_cmd (s : State) (f : Sst) : (s.beginStream f).cmd = s.cmd := rfl
@[simp] theorem State.beginStream_cip (s : State) (f : Sst) : (s.beginStream f).cip = s.cip := rfl
@[simp] theorem State.beginStream_outFail (s : State) (f : Sst) : (s.beginStream f).outFail = s.outFail := rfl
@[simp] theorem State.beginStream_testen (s : State) (f : Sst) : (s.beginStream f).testen = s.testen := rfl
@[simp] theorem State.beginStream_resetPin (s : State) (f : Sst) : (s.beginStream f).resetPin = s.resetPin := rfl

@[simp] theorem State.loadChain_bufs (s : State) (c : Buf) (f : Sst) : (s.loadChain c f).bufs = s.bufs := rfl
@[simp] theorem State.loadChain_key (s : State) (c : Buf) (f : Sst) : (s.loadChain c f).key = s.key := rfl
@[simp] theorem State.loadChain_res (s : State) (c : Buf) (f : Sst) : (s.loadChain c f).res = s.res := rfl
@[simp] theorem State.loadChain_status (s : State) (c : Buf) (f : Sst) : (s.loadChain c f).status = s.status := rfl
@[simp] theorem State.loadChain_fcode (s : State) (c : Buf) (f : Sst) : (s.loadChain c f).fcode = s.fcode := rfl
@[simp] theorem State.loadChain_fcmd (s : State) (c : Buf) (f : Sst) : (s.loadChain c f).fcmd = s.fcmd := rfl
@[simp] theorem State.loadChain_round (s : State) (c : Buf) (f : Sst) : (s.loadChain c f).round = s.round := rfl
@[simp] theorem State.loadChain_stream (s : State) (c : Buf) (f : Sst) : (s.loadChain c f).stream = { s.stream with chain := c, sst := f } := rfl
@[simp] theorem State.loadChain_test (s : State) (c : Buf) (f : Sst) : (s.loadChain c f).test = s.test := rfl
@[simp] theorem State.loadChain_inq (s : State) (c : Buf) (f : Sst) : (s.loadChain c f).inq = s.inq := rfl
@[simp] theorem State.loadChain_out (s : State) (c : Buf) (f : Sst) : (s.loadChain c f).out = s.out := rfl
@[simp] theorem State.loadChain_rng (s : State) (c : Buf) (f : Sst) : (s.loadChain c f).rng = s.rng := rfl
@[simp] theorem State.loadChain_nwrites (s : State) (c : Buf) (f : Sst) : (s.loadChain c f).nwrites = s.nwrites := rfl
@[simp] theorem State.loadChain_cmd (s : State) (c : Buf) (f : Sst) : (s.loadChain c f).cmd = s.cmd := rfl
@[simp] theorem State.loadChain_cip (s : State) (c : Buf) (f : Sst) : (s.loadChain c f).cip = s.cip := rfl
@[simp] theorem State.loadChain_outFail (s : State) (c : Buf) (f : Sst) : (s.loadChain c f).outFail = s.outFail := rfl
@[simp] theorem State.loadChain_testen (s : State) (c : Buf) (f : Sst) : (s.loadChain c f).testen = s.testen := rfl
@[simp] theorem State.loadChain_resetPin (s : State) (c : Buf) (f : Sst) : (s.loadChain c f).resetPin = s.resetPin := rfl

@[simp] theorem State.loadCur_bufs (s : State) (b : Buf) (n : BitVec 4) : (s.loadCur b n).bufs = s.bufs := rfl
@[simp] theorem State.loadCur_key (s : State) (b : Buf) (n : BitVec 4) : (s.loadCur b n).key = s.key := rfl
@[simp] theorem State.loadCur_res (s : State) (b : Buf) (n : BitVec 4) : (s.loadCur b n).res = s.res := rfl
@[simp] theorem State.loadCur_status (s : State) (b : Buf) (n : BitVec 4) : (s.loadCur b n).status = s.status := rfl
@[simp] theorem State.loadCur_fcode (s : State) (b : Buf) (n : BitVec 4) : (s.loadCur b n).fcode = s.fcode := rfl
@[simp] theorem State.loadCur_fcmd (s : State) (b : Buf) (n : BitVec 4) : (s.loadCur b n).fcmd = s.fcmd := rfl
@[simp] theorem State.loadCur_round (s : State) (b : Buf) (n : BitVec 4) : (s.loadCur b n).round = s.round := rfl
@[simp] theorem State.loadCur_stream (s : State) (b : Buf) (n : BitVec 4) : (s.loadCur b n).stream = { s.stream with cur := b, curn := n, sst := .dblk } := rfl
@[simp] theorem State.loadCur_test (s : State) (b : Buf) (n : BitVec 4) : (s.loadCur b n).test = s.test := rfl
@[simp] theorem State.loadCur_inq (s : State) (b : Buf) (n : BitVec 4) : (s.loadCur b n).inq = s.inq := rfl
@[simp] theorem State.loadCur_out (s : State) (b : Buf) (n : BitVec 4) : (s.loadCur b n).out = s.out := rfl
@[simp] theorem State.loadCur_rng (s : State) (b : Buf) (n : BitVec 4) : (s.loadCur b n).rng = s.rng := rfl
@[simp] theorem State.loadCur_nwrites (s : State) (b : Buf) (n : BitVec 4) : (s.loadCur b n).nwrites = s.nwrites := rfl
@[simp] theorem State.loadCur_cmd (s : State) (b : Buf) (n : BitVec 4) : (s.loadCur b n).cmd = s.cmd := rfl
@[simp] theorem State.loadCur_cip (s : State) (b : Buf) (n : BitVec 4) : (s.loadCur b n).cip = s.cip := rfl
@[simp] theorem State.loadCur_outFail (s : State) (b : Buf) (n : BitVec 4) : (s.loadCur b n).outFail = s.outFail := rfl
@[simp] theorem State.loadCur_testen (s : State) (b : Buf) (n : BitVec 4) : (s.loadCur b n).testen = s.testen := rfl
@[simp] theorem State.loadCur_resetPin (s : State) (b : Buf) (n : BitVec 4) : (s.loadCur b n).resetPin = s.resetPin := rfl

@[simp] theorem State.withBlock_bufs (s : State) (c : Buf) (n : BitVec 4) : (s.withBlock c n).bufs = s.bufs := rfl
@[simp] theorem State.withBlock_key (s : State) (c : Buf) (n : BitVec 4) : (s.withBlock c n).key = s.key := rfl
@[simp] theorem State.withBlock_res (s : State) (c : Buf) (n : BitVec 4) : (s.withBlock c n).res = s.res := rfl
@[simp] theorem State.withBlock_status (s : State) (c : Buf) (n : BitVec 4) : (s.withBlock c n).status = s.status := rfl
@[simp] theorem State.withBlock_fcode (s : State) (c : Buf) (n : BitVec 4) : (s.withBlock c n).fcode = s.fcode := rfl
@[simp] theorem State.withBlock_fcmd (s : State) (c : Buf) (n : BitVec 4) : (s.withBlock c n).fcmd = s.fcmd := rfl
@[simp] theorem State.withBlock_round (s : State) (c : Buf) (n : BitVec 4) : (s.withBlock c n).round = RoundRegs.zero := rfl
@[simp] theorem State.withBlock_stream (s : State) (c : Buf) (n : BitVec 4) : (s.withBlock c n).stream = { s.stream with cur := c, curn := n } := rfl
@[simp] theorem State.withBlock_test (s : State) (c : Buf) (n : BitVec 4) : (s.withBlock c n).test = s.test := rfl
@[simp] theorem State.withBlock_inq (s : State) (c : Buf) (n : BitVec 4) : (s.withBlock c n).inq = s.inq := rfl
@[simp] theorem State.withBlock_out (s : State) (c : Buf) (n : BitVec 4) : (s.withBlock c n).out = s.out := rfl
@[simp] theorem State.withBlock_rng (s : State) (c : Buf) (n : BitVec 4) : (s.withBlock c n).rng = s.rng := rfl
@[simp] theorem State.withBlock_nwrites (s : State) (c : Buf) (n : BitVec 4) : (s.withBlock c n).nwrites = s.nwrites := rfl
@[simp] theorem State.withBlock_cmd (s : State) (c : Buf) (n : BitVec 4) : (s.withBlock c n).cmd = s.cmd := rfl
@[simp] theorem State.withBlock_cip (s : State) (c : Buf) (n : BitVec 4) : (s.withBlock c n).cip = s.cip := rfl
@[simp] theorem State.withBlock_outFail (s : State) (c : Buf) (n : BitVec 4) : (s.withBlock c n).outFail = s.outFail := rfl
@[simp] theorem State.withBlock_testen (s : State) (c : Buf) (n : BitVec 4) : (s.withBlock c n).testen = s.testen := rfl
@[simp] theorem State.withBlock_resetPin (s : State) (c : Buf) (n : BitVec 4) : (s.withBlock c n).resetPin = s.resetPin := rfl

@[simp] theorem State.setChain_bufs (s : State) (c : Buf) : (s.setChain c).bufs = s.bufs := rfl
@[simp] theorem State.setChain_key (s : State) (c : Buf) : (s.setChain c).key = s.key := rfl
@[simp] theorem State.setChain_res (s : State) (c : Buf) : (s.setChain c).res = s.res := rfl
@[simp] theorem State.setChain_status (s : State) (c : Buf) : (s.setChain c).status = s.status := rfl
@[simp] theorem State.setChain_fcode (s : State) (c : Buf) : (s.setChain c).fcode = s.fcode := rfl
@[simp] theorem State.setChain_fcmd (s : State) (c : Buf) : (s.setChain c).fcmd = s.fcmd := rfl
@[simp] theorem State.setChain_round (s : State) (c : Buf) : (s.setChain c).round = s.round := rfl
@[simp] theorem State.setChain_stream (s : State) (c : Buf) : (s.setChain c).stream = { s.stream with chain := c } := rfl
@[simp] theorem State.setChain_test (s : State) (c : Buf) : (s.setChain c).test = s.test := rfl
@[simp] theorem State.setChain_inq (s : State) (c : Buf) : (s.setChain c).inq = s.inq := rfl
@[simp] theorem State.setChain_out (s : State) (c : Buf) : (s.setChain c).out = s.out := rfl
@[simp] theorem State.setChain_rng (s : State) (c : Buf) : (s.setChain c).rng = s.rng := rfl
@[simp] theorem State.setChain_nwrites (s : State) (c : Buf) : (s.setChain c).nwrites = s.nwrites := rfl
@[simp] theorem State.setChain_cmd (s : State) (c : Buf) : (s.setChain c).cmd = s.cmd := rfl
@[simp] theorem State.setChain_cip (s : State) (c : Buf) : (s.setChain c).cip = s.cip := rfl
@[simp] theorem State.setChain_outFail (s : State) (c : Buf) : (s.setChain c).outFail = s.outFail := rfl
@[simp] theorem State.setChain_testen (s : State) (c : Buf) : (s.setChain c).testen = s.testen := rfl
@[simp] theorem State.setChain_resetPin (s : State) (c : Buf) : (s.setChain c).resetPin = s.resetPin := rfl

@[simp] theorem State.withLookAhead_bufs (s : State) (b : Buf) (n : BitVec 4) : (s.withLookAhead b n).bufs = s.bufs := rfl
@[simp] theorem State.withLookAhead_key (s : State) (b : Buf) (n : BitVec 4) : (s.withLookAhead b n).key = s.key := rfl
@[simp] theorem State.withLookAhead_res (s : State) (b : Buf) (n : BitVec 4) : (s.withLookAhead b n).res = s.res := rfl
@[simp] theorem State.withLookAhead_status (s : State) (b : Buf) (n : BitVec 4) : (s.withLookAhead b n).status = s.status := rfl
@[simp] theorem State.withLookAhead_fcode (s : State) (b : Buf) (n : BitVec 4) : (s.withLookAhead b n).fcode = s.fcode := rfl
@[simp] theorem State.withLookAhead_fcmd (s : State) (b : Buf) (n : BitVec 4) : (s.withLookAhead b n).fcmd = s.fcmd := rfl
@[simp] theorem State.withLookAhead_round (s : State) (b : Buf) (n : BitVec 4) : (s.withLookAhead b n).round = RoundRegs.zero := rfl
@[simp] theorem State.withLookAhead_stream (s : State) (b : Buf) (n : BitVec 4) : (s.withLookAhead b n).stream = { s.stream with nxt := b, nxtn := n } := rfl
@[simp] theorem State.withLookAhead_test (s : State) (b : Buf) (n : BitVec 4) : (s.withLookAhead b n).test = s.test := rfl
@[simp] theorem State.withLookAhead_inq (s : State) (b : Buf) (n : BitVec 4) : (s.withLookAhead b n).inq = s.inq := rfl
@[simp] theorem State.withLookAhead_out (s : State) (b : Buf) (n : BitVec 4) : (s.withLookAhead b n).out = s.out := rfl
@[simp] theorem State.withLookAhead_rng (s : State) (b : Buf) (n : BitVec 4) : (s.withLookAhead b n).rng = s.rng := rfl
@[simp] theorem State.withLookAhead_nwrites (s : State) (b : Buf) (n : BitVec 4) : (s.withLookAhead b n).nwrites = s.nwrites := rfl
@[simp] theorem State.withLookAhead_cmd (s : State) (b : Buf) (n : BitVec 4) : (s.withLookAhead b n).cmd = s.cmd := rfl
@[simp] theorem State.withLookAhead_cip (s : State) (b : Buf) (n : BitVec 4) : (s.withLookAhead b n).cip = s.cip := rfl
@[simp] theorem State.withLookAhead_outFail (s : State) (b : Buf) (n : BitVec 4) : (s.withLookAhead b n).outFail = s.outFail := rfl
@[simp] theorem State.withLookAhead_testen (s : State) (b : Buf) (n : BitVec 4) : (s.withLookAhead b n).testen = s.testen := rfl
@[simp] theorem State.withLookAhead_resetPin (s : State) (b : Buf) (n : BitVec 4) : (s.withLookAhead b n).resetPin = s.resetPin := rfl

@[simp] theorem State.advance_bufs (s : State) : (s.advance).bufs = s.bufs := rfl
@[simp] theorem State.advance_key (s : State) : (s.advance).key = s.key := rfl
@[simp] theorem State.advance_res (s : State) : (s.advance).res = s.res := rfl
@[simp] theorem State.advance_status (s : State) : (s.advance).status = s.status := rfl
@[simp] theorem State.advance_fcode (s : State) : (s.advance).fcode = s.fcode := rfl
@[simp] theorem State.advance_fcmd (s : State) : (s.advance).fcmd = s.fcmd := rfl
@[simp] theorem State.advance_round (s : State) : (s.advance).round = s.round := rfl
@[simp] theorem State.advance_stream (s : State) : (s.advance).stream = { s.stream with cur := s.stream.nxt, curn := s.stream.nxtn } := rfl
@[simp] theorem State.advance_test (s : State) : (s.advance).test = s.test := rfl
@[simp] theorem State.advance_inq (s : State) : (s.advance).inq = s.inq := rfl
@[simp] theorem State.advance_out (s : State) : (s.advance).out = s.out := rfl
@[simp] theorem State.advance_rng (s : State) : (s.advance).rng = s.rng := rfl
@[simp] theorem State.advance_nwrites (s : State) : (s.advance).nwrites = s.nwrites := rfl
@[simp] theorem State.advance_cmd (s : State) : (s.advance).cmd = s.cmd := rfl
@[simp] theorem State.advance_cip (s : State) : (s.advance).cip = s.cip := rfl
@[simp] theorem State.advance_outFail (s : State) : (s.advance).outFail = s.outFail := rfl
@[simp] theorem State.advance_testen (s : State) : (s.advance).testen = s.testen := rfl
@[simp] theorem State.advance_resetPin (s : State) : (s.advance).resetPin = s.resetPin := rfl

/-- Everything the first step of a stream command can do (45_cbc_stream.md R174). -/
theorem startStream_cases {f : Sst} {s t : State} (h : startStream f s = .next t) :
    (keyOk s.key = true ∧ t = s.beginStream f) ∨ (keyOk s.key = false ∧ t = s.raise .arg) := by
  rcases require_cases h with ⟨h1, h2⟩ | h2
  · exact .inl ⟨h1, by simpa [eq_comm] using h2⟩
  · exact .inr h2

/-- Everything `S_EIV` can do (45_cbc_stream.md R175 step 1): wait, fail the write, or go on to `S_EBLK`. -/
theorem stepEiv_cases {B : Build} {s t : State} (hB : 0 < B.blockBytes) (h : stepEiv B s = .next t) :
    (s.rng = [] ∧ t = s) ∨
    (∃ d rest, s.rng = d :: rest ∧ s.outFail = some s.nwrites ∧
      t = { s with rng := rest, nwrites := s.nwrites + 1 }.raise .io) ∨
    (∃ d rest, s.rng = d :: rest ∧ s.outFail ≠ some s.nwrites ∧
      t = { s with rng := rest, nwrites := s.nwrites + 1, out := s.out ++ ivOf B d }.loadChain
        (fromBytes B.bitOrder (ivOf B d)) .eblk) := by
  rcases withDraw_cases h with ⟨d, rest, e, h⟩ | h
  · have ne : ivOf B d ≠ [] := by
      intro e
      have := congrArg List.length e
      simp [ivOf] at this
      omega
    rcases withWrite_cases h with ⟨h1, -⟩ | ⟨-, h2, h3⟩ | ⟨-, h2, h3⟩
    · exact absurd h1 ne
    · exact .inr (.inl ⟨d, rest, e, h2, h3⟩)
    · exact .inr (.inr ⟨d, rest, e, h2, (Host.Outcome.next.inj h3).symm⟩)
  · exact .inl h

/-- Everything the end of an encryption step can do (45_cbc_stream.md R175 step 2). -/
theorem emitCipher_cases {B : Build} {n : Nat} {cur c : Buf} {s t : State} (hB : 0 < B.blockBytes)
    (h : emitCipher B n cur c s = .next t) :
    (s.outFail = some s.nwrites ∧
      t = { s.withBlock cur (BitVec.ofNat 4 n) with nwrites := s.nwrites + 1 }.raise .io) ∨
    (s.outFail ≠ some s.nwrites ∧ ∃ u,
      u = { s.withBlock cur (BitVec.ofNat 4 n) with
            nwrites := s.nwrites + 1, out := s.out ++ toBytes B.bitOrder c B.blockBytes }.setChain c ∧
      ((n < B.blockBytes ∧ t = u.finish) ∨ (B.blockBytes ≤ n ∧ t = u))) := by
  rcases withWrite_cases h with ⟨h1, -⟩ | ⟨-, h2, h3⟩ | ⟨-, h2, h3⟩
  · exact absurd (congrArg List.length h1) (by simp [toBytes]; omega)
  · exact .inl ⟨h2, h3⟩
  · refine .inr ⟨h2, _, rfl, ?_⟩
    by_cases hn : n < B.blockBytes
    · rw [if_pos hn] at h3
      exact .inl ⟨hn, (Host.Outcome.next.inj h3).symm⟩
    · rw [if_neg hn] at h3
      exact .inr ⟨Nat.le_of_not_lt hn, (Host.Outcome.next.inj h3).symm⟩

/-- Everything `S_EBLK` can do before the block is encrypted (45_cbc_stream.md R175 step 2). -/
theorem stepEblk_cases {B : Build} {s t : State} (h : stepEblk B s = .next t) :
    (readFully B.blockBytes s.inq = .starved ∧ t = s) ∨
    (∃ rest, readFully B.blockBytes s.inq = .failed rest ∧ t = { s with inq := rest }.raise .io) ∨
    (∃ rest, readFully B.blockBytes s.inq = .bytes [] rest ∧ t = { s with inq := rest }.finish) ∨
    (∃ bs rest cur, readFully B.blockBytes s.inq = .bytes bs rest ∧ 0 < bs.length ∧
      cur = fromBytes B.bitOrder (padIfShort B bs) ^^^ s.stream.chain ∧
      emitCipher B bs.length cur (encryptBlock B cur s.key.v) { s with inq := rest } = .next t) := by
  rcases withRead_cases h with ⟨bs, rest, e, h⟩ | h | h
  · by_cases hb : bs.length = 0
    · rw [if_pos hb] at h
      rw [List.length_eq_zero_iff.1 hb] at e
      exact .inr (.inr (.inl ⟨rest, e, (Host.Outcome.next.inj h).symm⟩))
    · rw [if_neg hb] at h
      exact .inr (.inr (.inr ⟨bs, rest, _, e, Nat.pos_of_ne_zero hb, rfl, h⟩))
  · exact .inr (.inl h)
  · exact .inl h

/-- Everything `S_DIV` can do (45_cbc_stream.md R179 step 1). -/
theorem stepDiv_cases {B : Build} {s t : State} (h : stepDiv B s = .next t) :
    (readFully B.blockBytes s.inq = .starved ∧ t = s) ∨
    (∃ rest, readFully B.blockBytes s.inq = .failed rest ∧ t = { s with inq := rest }.raise .io) ∨
    (∃ bs rest, readFully B.blockBytes s.inq = .bytes bs rest ∧ bs.length ≠ B.blockBytes ∧ t = { s with inq := rest }.raise .format) ∨
    (∃ bs rest, readFully B.blockBytes s.inq = .bytes bs rest ∧ bs.length = B.blockBytes ∧
      t = { s with inq := rest }.loadChain (fromBytes B.bitOrder bs) .dfirst) := by
  rcases withRead_cases h with ⟨bs, rest, e, h⟩ | h | h
  · rcases require_cases h with ⟨h1, h2⟩ | ⟨h1, h2⟩
    · exact .inr (.inr (.inr ⟨bs, rest, e, by simpa using h1, (Host.Outcome.next.inj h2).symm⟩))
    · exact .inr (.inr (.inl ⟨bs, rest, e, by simpa using h1, h2⟩))
  · exact .inr (.inl h)
  · exact .inl h

/-- Everything `S_DFIRST` can do (45_cbc_stream.md R179 step 2). -/
theorem stepDfirst_cases {B : Build} {s t : State} (h : stepDfirst B s = .next t) :
    (readFully B.blockBytes s.inq = .starved ∧ t = s) ∨
    (∃ rest, readFully B.blockBytes s.inq = .failed rest ∧ t = { s with inq := rest }.raise .io) ∨
    (∃ rest, readFully B.blockBytes s.inq = .bytes [] rest ∧ t = { s with inq := rest }.finish) ∨
    (∃ bs rest, readFully B.blockBytes s.inq = .bytes bs rest ∧ 0 < bs.length ∧ bs.length ≠ B.blockBytes ∧
      t = { s with inq := rest }.raise .format) ∨
    (∃ bs rest, readFully B.blockBytes s.inq = .bytes bs rest ∧ bs.length = B.blockBytes ∧
      t = { s with inq := rest }.loadCur (fromBytes B.bitOrder bs) (BitVec.ofNat 4 bs.length)) := by
  rcases withRead_cases h with ⟨bs, rest, e, h⟩ | h | h
  · by_cases hb : bs.length = 0
    · rw [if_pos hb] at h
      rw [List.length_eq_zero_iff.1 hb] at e
      exact .inr (.inr (.inl ⟨rest, e, (Host.Outcome.next.inj h).symm⟩))
    · rw [if_neg hb] at h
      rcases require_cases h with ⟨h1, h2⟩ | ⟨h1, h2⟩
      · exact .inr (.inr (.inr (.inr ⟨bs, rest, e, by simpa using h1, (Host.Outcome.next.inj h2).symm⟩)))
      · exact .inr (.inr (.inr (.inl ⟨bs, rest, e, Nat.pos_of_ne_zero hb, by simpa using h1, h2⟩)))
  · exact .inr (.inl h)
  · exact .inl h

/-- What `DECS` writes is never empty (45_cbc_stream.md R181). -/
theorem unpad_ne_nil {n : Nat} (hn : 0 < n) {p : List Byte} (h : p.length = n) : unpad n p ≠ [] := by
  intro e
  have e' := congrArg List.length e
  simp only [unpad] at e'
  split at e'
  · next hv =>
    have := hv.1
    rw [List.length_take, h] at e'
    simp only [List.length_nil] at e'
    omega
  · simp only [List.length_nil] at e'
    omega

theorem plainOf_ne_nil {B : Build} (hB : 0 < B.blockBytes) (s : State) (last : Bool) : plainOf B s last ≠ [] := by
  cases last
  · intro e
    have := congrArg List.length e
    simp [plainOf, toBytes] at this
    omega
  · exact unpad_ne_nil hB (by simp [toBytes])

/-- Everything the end of a decryption step can do, its plaintext not empty (45_cbc_stream.md R179 step 3). -/
theorem emitPlain_cases {n : Nat} {nxt : Buf} {p : List Byte} {s t : State} (hp : p ≠ [])
    (h : emitPlain n nxt p s = .next t) :
    (s.outFail = some s.nwrites ∧
      t = { s.withLookAhead nxt (BitVec.ofNat 4 n) with nwrites := s.nwrites + 1 }.raise .io) ∨
    (s.outFail ≠ some s.nwrites ∧ ∃ u,
      u = { s.withLookAhead nxt (BitVec.ofNat 4 n) with
            nwrites := s.nwrites + 1, out := s.out ++ p }.setChain s.stream.cur ∧
      ((n = 0 ∧ t = u.finish) ∨ (n ≠ 0 ∧ t = u.advance))) := by
  rcases withWrite_cases h with ⟨h1, -⟩ | ⟨-, h2, h3⟩ | ⟨-, h2, h3⟩
  · exact absurd h1 hp
  · exact .inl ⟨h2, h3⟩
  · refine .inr ⟨h2, _, rfl, ?_⟩
    by_cases hn : n = 0
    · rw [if_pos hn] at h3
      exact .inl ⟨hn, (Host.Outcome.next.inj h3).symm⟩
    · rw [if_neg hn] at h3
      exact .inr ⟨hn, (Host.Outcome.next.inj h3).symm⟩

/-- Everything `S_DBLK` can do before the plaintext is written (45_cbc_stream.md R179 step 3). -/
theorem stepDblk_cases {B : Build} {s t : State} (h : stepDblk B s = .next t) :
    (readFully B.blockBytes s.inq = .starved ∧ t = s) ∨
    (∃ rest, readFully B.blockBytes s.inq = .failed rest ∧ t = { s with inq := rest }.raise .io) ∨
    (∃ bs rest, readFully B.blockBytes s.inq = .bytes bs rest ∧ 0 < bs.length ∧ bs.length ≠ B.blockBytes ∧
      t = { s with inq := rest }.raise .format) ∨
    (∃ bs rest, readFully B.blockBytes s.inq = .bytes bs rest ∧ (bs.length = 0 ∨ bs.length = B.blockBytes) ∧
      emitPlain bs.length (fromBytes B.bitOrder bs) (plainOf B s (bs.length == 0)) { s with inq := rest } =
        .next t) := by
  rcases withRead_cases h with ⟨bs, rest, e, h⟩ | h | h
  · rcases require_cases h with ⟨h1, h2⟩ | ⟨h1, h2⟩
    · exact .inr (.inr (.inr ⟨bs, rest, e, by simpa using h1, h2⟩))
    · have h3 : bs.length ≠ 0 ∧ bs.length ≠ B.blockBytes := by simpa using h1
      exact .inr (.inr (.inl ⟨bs, rest, e, Nat.pos_of_ne_zero h3.1, h3.2, h2⟩))
  · exact .inr (.inl h)
  · exact .inl h

end Sys2Proof.Machine
end

