-- ==== Sys2Proof/Laws/Exec.lean ====
section
/-! SUPPORT. Said once: everything one atomic step of a command can do (`exec_effect`). A command stalls, ends, faults, or, for
the stream commands, finishes or goes on to the next state of spec/45_cbc_stream.md R173; in each case the state it has reached
differs from the old one only as the command may (`Moves`). Every invariant and frame is read off this. -/

namespace Sys2Proof.Machine

/-- `u` differs from `s` only as the command `i` may make it differ before it ends or faults. -/
structure Moves (i : Instr) (s u : State) : Prop where
  /-- Only the command's own registers change (40_bit_buffer.md R124). -/
  bufs : ∀ r : Reg, r ∉ i.writes → u.bufs[r] = s.bufs[r]
  /-- A register that changes is open, or has been closed by `CLOSE` (10_state.md R23). -/
  bufsOpen : ∀ r : Reg, u.bufs[r] = s.bufs[r] ∨ u.bufs[r].isOpen = true ∨ (i = .close r ∧ u.bufs[r] = BufReg.closed)
  /-- `KEY` is written by `LDK` and `KCLOSE` (10_state.md R25). -/
  key : u.key = s.key ∨ (∃ n, i = .ldk n ∧ u.key.isOpen = true) ∨ (i = .kclose ∧ u.key = KeyReg.closed)
  /-- `RES` is written by `GETB` and `LEN` (10_state.md R26). -/
  res : u.res = s.res ∨ (∃ rd p, i = .getb rd p ∧ u.res.toNat ≤ 1) ∨ (∃ rd, i = .len rd ∧ u.res.toNat ≤ 64)
  /-- `IN` is read from its front. -/
  inqSuffix : u.inq <:+ s.inq
  /-- `IN` is read by four commands (20_memory.md R60). -/
  inq : u.inq = s.inq ∨ (∃ rd n, i = .ldb rd n) ∨ (∃ n, i = .ldk n) ∨ i = .encs ∨ i = .decs
  /-- `OUT` grows at its end. -/
  outPrefix : s.out <+: u.out
  /-- `NWRITES` counts up. -/
  nwrites : s.nwrites ≤ u.nwrites
  /-- `OUT` is written by four commands (20_memory.md R60). -/
  out : (u.out = s.out ∧ u.nwrites = s.nwrites) ∨ (∃ rs n, i = .stb rs n) ∨ (∃ rs sel, i = .dbg rs sel) ∨
    i = .encs ∨ i = .decs
  /-- `RNG` is read from its front. -/
  rngSuffix : u.rng <:+ s.rng
  /-- `RNG` is read in `S_EIV` only (45_cbc_stream.md R175). -/
  rng : u.rng = s.rng ∨ ((i = .encs ∨ i = .decs) ∧ s.stream.sst = .eiv)
  /-- Nothing else moves before the command ends or faults. -/
  rest : u.test = s.test ∧ u.testen = s.testen ∧ u.outFail = s.outFail ∧ u.cmd = s.cmd ∧ u.resetPin = s.resetPin ∧
    u.cip = s.cip ∧ u.fcode = s.fcode ∧ u.fcmd = s.fcmd ∧ u.status.halt = s.status.halt

theorem Moves.refl (i : Instr) (s : State) : Moves i s s := by
  constructor <;> simp

/-- Items leave `IN`. -/
theorem Moves.readIn {i : Instr} {s : State} {q : List InItem} (h : q <:+ s.inq)
    (hi : (∃ rd n, i = .ldb rd n) ∨ (∃ n, i = .ldk n) ∨ i = .encs ∨ i = .decs) : Moves i s { s with inq := q } := by
  constructor <;> first | exact .inr hi | simp [h]

/-- One of the command's registers is written. -/
theorem Moves.writeBuf {i : Instr} {s u : State} {r : Reg} (hr : r ∈ i.writes) (v : Buf) (h : Moves i s u) :
    Moves i s (u.writeBuf r v) :=
  { h with
    bufs := fun q hq => by
      rw [State.writeBuf_other _ _ (by rintro rfl; exact hq hr)]
      exact h.bufs q hq
    bufsOpen := fun q => by
      by_cases hq : q = r
      · subst hq; simp
      · rw [State.writeBuf_other _ _ hq]
        exact h.bufsOpen q }

/-- A register is closed. -/
theorem Moves.closeBuf (rd : Reg) (s : State) : Moves (.close rd) s (s.closeBuf rd) :=
  { Moves.refl (.close rd) s with
    bufs := fun q hq => State.closeBuf_other s (by simpa [Instr.writes] using hq)
    bufsOpen := fun q => by
      by_cases hq : q = rd
      · subst hq; exact .inr (.inr ⟨rfl, State.closeBuf_self s q⟩)
      · exact .inl (State.closeBuf_other s hq) }

/-- `RES` is written. -/
theorem Moves.writeRes {i : Instr} {s : State} {n : BitVec 7}
    (h : (∃ rd p, i = .getb rd p ∧ n.toNat ≤ 1) ∨ (∃ rd, i = .len rd ∧ n.toNat ≤ 64)) : Moves i s (s.writeRes n) :=
  { Moves.refl i s with res := .inr h }

/-- `KEY` is written. -/
theorem Moves.writeKey {i : Instr} {s u : State} {k : KeyReg} (m : Moves i s u)
    (h : (∃ n, i = .ldk n ∧ k.isOpen = true) ∨ (i = .kclose ∧ k = KeyReg.closed)) : Moves i s (u.writeKey k) :=
  { m with key := .inr h }

/-- A write to `OUT` is counted, and appends nothing when it fails (20_memory.md R57). -/
theorem Moves.writeOut {i : Instr} {s u : State} (h : Moves i s u) (bs : List Byte)
    (hi : (∃ rs n, i = .stb rs n) ∨ (∃ rs sel, i = .dbg rs sel) ∨ i = .encs ∨ i = .decs) :
    Moves i s { u with nwrites := u.nwrites + 1, out := u.out ++ bs } :=
  { h with
    outPrefix := h.outPrefix.trans (List.prefix_append _ _)
    nwrites := Nat.le_succ_of_le h.nwrites
    out := .inr hi }

theorem Moves.failOut {i : Instr} {s u : State} (h : Moves i s u)
    (hi : (∃ rs n, i = .stb rs n) ∨ (∃ rs sel, i = .dbg rs sel) ∨ i = .encs ∨ i = .decs) :
    Moves i s { u with nwrites := u.nwrites + 1 } :=
  { h with nwrites := Nat.le_succ_of_le h.nwrites, out := .inr hi }

/-- The working registers and `BUSY` are no part of `Moves`. -/
theorem Moves.working {i : Instr} {s u : State} (h : Moves i s u) (ρ : RoundRegs) (σ : StreamRegs) (b : Bool) :
    Moves i s { u with round := ρ, stream := σ, status := { u.status with busy := b } } :=
  { h with }

/-- The successor states of the table of 45_cbc_stream.md R173; `first` is where the command begins. -/
def Sst.Follows (first : Sst) : Sst → Sst → Prop
  | .idle, b => b = first
  | .eiv, b => b = .eblk
  | .eblk, b => b = .eblk
  | .div, b => b = .dfirst
  | .dfirst, b => b = .dblk
  | .dblk, b => b = .dblk

/-- The fault `c` from the state `u` that the command has reached (60_exceptions.md R203, R208). -/
def FaultsFrom (i : Instr) (s t : State) : Prop :=
  ∃ u c, Moves i s u ∧ u.bufs = s.bufs ∧ u.key = s.key ∧ u.res = s.res ∧ c ≠ .constraint ∧ t = u.raise c ∧
    (c = .arg ∨ c = .illegal ∨ c = .cap → u.inq = s.inq ∧ u.out = s.out ∧ u.rng = s.rng ∧ u.nwrites = s.nwrites)

/-- The command ends from the state `u` it has reached. -/
def EndsFrom (i : Instr) (s t : State) : Prop :=
  ∃ u, Moves i s u ∧ u.stream = s.stream ∧ t = u.complete ∧
    (u.round = s.round ∨ u.round = RoundRegs.zero ∨ u.round = { s.round with wt := 0, wrk := 0 })

/-- A stream command finishes from the state `u` it has reached, or goes on to its next state there. -/
def StreamsFrom (first : Sst) (i : Instr) (s t : State) : Prop :=
  ∃ u, Moves i s u ∧ u.bufs = s.bufs ∧ u.key = s.key ∧ u.res = s.res ∧
    (t = u.finish ∨
      (t = u ∧ Sst.Follows first s.stream.sst u.stream.sst ∧ (u.round = s.round ∨ u.round = RoundRegs.zero) ∧
        (u.status.busy = true ∨ u.status.busy = s.status.busy) ∧
        (s.stream.curn.toNat ≤ 8 → s.stream.nxtn.toNat ≤ 8 → u.stream.curn.toNat ≤ 8 ∧ u.stream.nxtn.toNat ≤ 8)))

/-- A command that is one atomic step: it stalls, ends or faults. -/
def Effect (i : Instr) (s : State) (r : Result) : Prop :=
  ∀ t, r = .next t → t = s ∨ EndsFrom i s t ∨ FaultsFrom i s t

theorem FaultsFrom.raise {i : Instr} {s : State} {c : FaultCode} (hc : c ≠ .constraint) : FaultsFrom i s (s.raise c) :=
  ⟨s, c, Moves.refl i s, rfl, rfl, rfl, hc, rfl, fun _ => ⟨rfl, rfl, rfl, rfl⟩⟩

/-- A fault of a port, after it has moved (60_exceptions.md R208). -/
theorem FaultsFrom.port {i : Instr} {s u : State} {c : FaultCode} (m : Moves i s u) (hb : u.bufs = s.bufs)
    (hk : u.key = s.key) (hr : u.res = s.res) (hc : c = .io ∨ c = .format) : FaultsFrom i s (u.raise c) :=
  ⟨u, c, m, hb, hk, hr, by rcases hc with rfl | rfl <;> simp, rfl, by rcases hc with rfl | rfl <;> simp⟩

theorem effect_withBuf {i : Instr} {s : State} {r : Reg} {k : Buf → Result} (h : Effect i s (k s.bufs[r].v)) :
    Effect i s (withBuf r s k) := fun t ht => by
  rcases withBuf_cases ht with ⟨-, h2⟩ | ⟨-, rfl⟩
  · exact h t h2
  · exact .inr (.inr (FaultsFrom.raise (by simp)))

theorem effect_require {i : Instr} {s : State} {ok : Bool} {c : FaultCode} {k : Result} (hc : c ≠ .constraint)
    (h : Effect i s k) : Effect i s (require ok c s k) := fun t ht => by
  rcases require_cases ht with ⟨-, h2⟩ | ⟨-, rfl⟩
  · exact h t h2
  · exact .inr (.inr (FaultsFrom.raise hc))

theorem effect_done {i : Instr} {s u : State} (m : Moves i s u) (h : u.stream = s.stream)
    (hr : u.round = s.round ∨ u.round = RoundRegs.zero ∨ u.round = { s.round with wt := 0, wrk := 0 }) :
    Effect i s (done u) := fun t ht => by
  cases ht
  exact .inr (.inl ⟨u, m, h, rfl, hr⟩)

theorem effect_withRead {i : Instr} {s : State} {n : Nat} {k : List Byte → State → Result}
    (hi : (∃ rd n, i = .ldb rd n) ∨ (∃ n, i = .ldk n) ∨ i = .encs ∨ i = .decs)
    (h : ∀ bs q, Moves i s { s with inq := q } → Effect i s (k bs { s with inq := q })) :
    Effect i s (withRead n s k) := fun t ht => by
  rcases withRead_cases ht with ⟨bs, rest, e, hk⟩ | ⟨rest, e, rfl⟩ | ⟨-, rfl⟩
  · exact h bs rest (Moves.readIn (readFully_rest e) hi) t hk
  · exact .inr (.inr (FaultsFrom.port (Moves.readIn (readFully_failed_rest e) hi) rfl rfl rfl (.inl rfl)))
  · exact .inl rfl

theorem effect_withWrite {i : Instr} {s : State} {bs : List Byte}
    (hi : (∃ rs n, i = .stb rs n) ∨ (∃ rs sel, i = .dbg rs sel) ∨ i = .encs ∨ i = .decs) :
    Effect i s (withWrite bs s done) := fun t ht => by
  have m := Moves.refl i s
  rcases withWrite_cases ht with ⟨-, hk⟩ | ⟨-, -, rfl⟩ | ⟨-, -, hk⟩
  · exact effect_done m rfl (.inl rfl) t hk
  · exact .inr (.inr (FaultsFrom.port (m.failOut hi) rfl rfl rfl (.inl rfl)))
  · exact effect_done (m.writeOut bs hi) rfl (.inl rfl) t hk

/-- A command that ends by writing one of its registers. -/
theorem effect_writes {i : Instr} {s : State} {rd : Reg} (v : Buf) (hr : rd ∈ i.writes) :
    Effect i s (done (s.writeBuf rd v)) :=
  effect_done ((Moves.refl i s).writeBuf hr v) rfl (.inl rfl)

theorem effect_mutate {i : Instr} {s : State} {rd : Reg} (f : Buf → Buf) (hr : rd ∈ i.writes) :
    Effect i s (mutate rd f s) :=
  effect_withBuf (effect_writes _ hr)

theorem effect_combine {i : Instr} {s : State} {rd rs : Reg} (f : Buf → Buf → Buf) (hr : rd ∈ i.writes) :
    Effect i s (combine rd rs f s) :=
  effect_withBuf (effect_withBuf (effect_writes _ hr))

theorem effect_keyHook {i : Instr} {s : State} {rd rs : Reg} {r : BitVec 4} (f : Buf → Nat → Buf × BitVec 48)
    (hr : rd ∈ i.writes) (hs : rs ∈ i.writes) : Effect i s (keyHook f rd rs r s) :=
  effect_withBuf (effect_require (by simp)
    (effect_done (((Moves.refl i s).writeBuf hs _).writeBuf hr _) rfl (.inl rfl)))

theorem effect_block {i : Instr} {s : State} {rd rs rt : Reg} (f : Buf → Buf → Buf) (hr : rd ∈ i.writes) :
    Effect i s (withTwoBufs rd rs rt s fun x y => done (s.scrubRound.writeBuf rd (f x y))) :=
  effect_withBuf (effect_withBuf (effect_require (by simp)
    (effect_done (((Moves.refl i s).working RoundRegs.zero s.stream s.status.busy).writeBuf hr _) rfl
      (.inr (.inl rfl)))))

/-- `Len` never exceeds the 64 positions (10_state.md R26). -/
theorem len_le (v : Buf) : len v ≤ 64 := by
  unfold len
  split
  · exact Nat.zero_le _
  · next h =>
    have h1 : v.toNat ≠ 0 := fun e => h (BitVec.eq_of_toNat_eq (by simpa using e))
    have := (Nat.log2_lt h1 (k := 64)).2 v.isLt
    omega

theorem toNat_resOfLen (v : Buf) : (resOfLen v).toNat = len v := by
  have := len_le v
  rw [resOfLen, BitVec.toNat_ofNat]
  omega

theorem toNat_resOfBit (b : Bool) : (resOfBit b).toNat ≤ 1 := by
  cases b <;> decide

/-- Everything a command that is one atomic step can do, on any build. -/
theorem execOn_effect (B : Build) (i : Instr) (s : State) (h1 : i ≠ .encs) (h2 : i ≠ .decs) :
    Effect i s (execOn B i s) := by
  cases i <;> simp only [execOn]
  case new rd => exact effect_writes _ (by simp [Instr.writes])
  case ldb rd n =>
    exact effect_withRead (.inl ⟨rd, n, rfl⟩) fun bs q m =>
      effect_done (m.writeBuf (by simp [Instr.writes]) _) rfl (.inl rfl)
  case clone rd rs => exact effect_withBuf (effect_writes _ (by simp [Instr.writes]))
  case copy rd rs => exact effect_combine _ (by simp [Instr.writes])
  case clr rd => exact effect_mutate _ (by simp [Instr.writes])
  case close rd => exact effect_done (Moves.closeBuf rd s) rfl (.inl rfl)
  case setb rd p v => exact effect_mutate _ (by simp [Instr.writes])
  case flipb rd p => exact effect_mutate _ (by simp [Instr.writes])
  case getb rd p =>
    exact effect_withBuf (effect_done (Moves.writeRes (.inl ⟨rd, p, rfl, toNat_resOfBit _⟩)) rfl (.inl rfl))
  case setr rd lo hi v => exact effect_withBuf (effect_require (by simp) (effect_writes _ (by simp [Instr.writes])))
  case flipr rd lo hi => exact effect_withBuf (effect_require (by simp) (effect_writes _ (by simp [Instr.writes])))
  case getr rd rs lo hi => exact effect_withBuf (effect_require (by simp) (effect_writes _ (by simp [Instr.writes])))
  case and rd rs => exact effect_combine _ (by simp [Instr.writes])
  case or rd rs => exact effect_combine _ (by simp [Instr.writes])
  case xor rd rs => exact effect_combine _ (by simp [Instr.writes])
  case andn rd rs => exact effect_combine _ (by simp [Instr.writes])
  case ovw rd rs pos sfrom n =>
    exact effect_withBuf (effect_withBuf (effect_require (by simp) (effect_writes _ (by simp [Instr.writes]))))
  case rol rd n ring => exact effect_withBuf (effect_require (by simp) (effect_writes _ (by simp [Instr.writes])))
  case ror rd n ring => exact effect_withBuf (effect_require (by simp) (effect_writes _ (by simp [Instr.writes])))
  case len rd =>
    exact effect_withBuf (effect_done
      (Moves.writeRes (.inr ⟨rd, rfl, by rw [toNat_resOfLen]; exact len_le _⟩)) rfl (.inl rfl))
  case stb rs n => exact effect_withBuf (effect_withWrite (.inl ⟨rs, n, rfl⟩))
  case dbg rs sel => exact effect_require (by simp) (effect_withWrite (.inr (.inl ⟨rs, sel, rfl⟩)))
  case perm rd t => exact effect_withBuf (effect_writes _ (by simp [Instr.writes]))
  case sbox rd k x y => exact effect_withBuf (effect_writes _ (by simp [Instr.writes]))
  case sub6 rd k => exact effect_withBuf (effect_writes _ (by simp [Instr.writes]))
  case kse rd rs r => exact effect_keyHook _ (by simp [Instr.writes]) (by simp [Instr.writes])
  case ksd rd rs r => exact effect_keyHook _ (by simp [Instr.writes]) (by simp [Instr.writes])
  case ffn rd rs rt =>
    unfold ffnOn withTwoBufs
    exact effect_withBuf (effect_withBuf (effect_require (by simp)
      (effect_done (((Moves.refl _ s).working { s.round with wt := 0, wrk := 0 } s.stream s.status.busy).writeBuf
        (by simp [Instr.writes]) _) rfl (.inr (.inr rfl)))))
  case encb rd rs rt => exact effect_block _ (by simp [Instr.writes])
  case decb rd rs rt => exact effect_block _ (by simp [Instr.writes])
  case ldk n =>
    exact effect_withRead (.inr (.inl ⟨n, rfl⟩)) fun bs q m =>
      effect_done (m.writeKey (.inl ⟨n, rfl, rfl⟩)) rfl (.inl rfl)
  case kclose => exact effect_done ((Moves.refl _ s).writeKey (.inr ⟨rfl, rfl⟩)) rfl (.inl rfl)
  case encs => exact absurd rfl h1
  case decs => exact absurd rfl h2

/-- Everything a command that is one atomic step can do on this hardware. -/
theorem exec_effect (i : Instr) (s : State) (h1 : i ≠ .encs) (h2 : i ≠ .decs) : Effect i s (exec i s) := by
  rw [exec_eq_execOn]
  exact execOn_effect Build.des i s h1 h2

/-- A byte count of a block fits its register (10_state.md R28). -/
theorem toNat_count {n : Nat} (h : n ≤ 8) : (BitVec.ofNat 4 n).toNat ≤ 8 := by
  rw [BitVec.toNat_ofNat]
  omega

/-- A stream command goes on, from the state it has reached, with new stream registers. -/
theorem StreamsFrom.goesOn {first : Sst} {i : Instr} {s u : State} (ρ : RoundRegs) (σ : StreamRegs) (b : Bool)
    (m : Moves i s u) (hb : u.bufs = s.bufs) (hk : u.key = s.key) (hr : u.res = s.res)
    (hf : Sst.Follows first s.stream.sst σ.sst) (hρ : ρ = s.round ∨ ρ = RoundRegs.zero)
    (hbusy : b = true ∨ b = s.status.busy)
    (hn : s.stream.curn.toNat ≤ 8 → s.stream.nxtn.toNat ≤ 8 → σ.curn.toNat ≤ 8 ∧ σ.nxtn.toNat ≤ 8) :
    StreamsFrom first i s { u with round := ρ, stream := σ, status := { u.status with busy := b } } :=
  ⟨_, m.working ρ σ b, hb, hk, hr, .inr ⟨rfl, hf, hρ, hbusy, hn⟩⟩

/-- A stream command finishes from the state it has reached. -/
theorem StreamsFrom.ends {first : Sst} {i : Instr} {s u : State} (m : Moves i s u) (hb : u.bufs = s.bufs)
    (hk : u.key = s.key) (hr : u.res = s.res) : StreamsFrom first i s u.finish :=
  ⟨u, m, hb, hk, hr, .inl rfl⟩

/-- What one step of a stream command may come to. -/
def StreamEffect (first : Sst) (i : Instr) (s t : State) : Prop :=
  t = s ∨ FaultsFrom i s t ∨ StreamsFrom first i s t

theorem startStream_effect {first : Sst} {i : Instr} {s t : State} (e : s.stream.sst = .idle)
    (h : startStream first s = .next t) : StreamEffect first i s t := by
  rcases startStream_cases h with ⟨-, rfl⟩ | ⟨-, rfl⟩
  · exact .inr (.inr (StreamsFrom.goesOn s.round { s.stream with sst := first } true (Moves.refl i s) rfl rfl rfl
      (by rw [e]; exact rfl) (.inl rfl) (.inl rfl) fun a b => ⟨a, b⟩))
  · exact .inr (.inl (FaultsFrom.raise (by simp)))

/-- A step that has read `IN` and stalls, fails or ends. -/
theorem stream_read_fails {first : Sst} {i : Instr} {s t : State} (hi : i = .encs ∨ i = .decs) {n : Nat} {c : FaultCode}
    (h : ∃ rest, (readFully n s.inq = .failed rest ∨ ∃ bs, readFully n s.inq = .bytes bs rest) ∧
      (c = .io ∨ c = .format) ∧ t = { s with inq := rest }.raise c) : StreamEffect first i s t := by
  obtain ⟨rest, e, hc, rfl⟩ := h
  have hs : rest <:+ s.inq := by
    rcases e with e | ⟨bs, e⟩
    · exact readFully_failed_rest e
    · exact readFully_rest e
  exact .inr (.inl (FaultsFrom.port (Moves.readIn hs (.inr (.inr hi))) rfl rfl rfl hc))

theorem stepEiv_effect {B : Build} (hB : B.Fits) {first : Sst} {i : Instr} {s t : State} (hi : i = .encs ∨ i = .decs) (e : s.stream.sst = .eiv)
    (h : stepEiv B s = .next t) : StreamEffect first i s t := by
  have hr : ∀ iv rest, s.rng = iv :: rest → Moves i s { s with rng := rest } := fun iv rest er =>
    { Moves.refl i s with
      rngSuffix := by rw [er]; exact List.suffix_cons _ _
      rng := .inr ⟨hi, e⟩ }
  rcases stepEiv_cases hB.blockBytes.1 h with ⟨-, rfl⟩ | ⟨d, rest, er, -, rfl⟩ | ⟨d, rest, er, -, rfl⟩
  · exact .inl rfl
  · exact .inr (.inl (FaultsFrom.port ((hr d rest er).failOut (.inr (.inr hi))) rfl rfl rfl (.inl rfl)))
  · exact .inr (.inr (StreamsFrom.goesOn s.round { s.stream with chain := fromBytes B.bitOrder (ivOf B d), sst := .eblk }
      s.status.busy ((hr d rest er).writeOut (ivOf B d) (.inr (.inr hi))) rfl rfl rfl (by rw [e]; exact rfl) (.inl rfl)
      (.inr rfl) fun a b => ⟨a, b⟩))

theorem emitCipher_effect {B : Build} (hB : B.Fits) {first : Sst} {i : Instr} {s t : State} (hi : i = .encs ∨ i = .decs) (e : s.stream.sst = .eblk)
    {n : Nat} (hn : n ≤ 8) (cur c : Buf) {rest : List InItem} (hs : rest <:+ s.inq)
    (h : emitCipher B n cur c { s with inq := rest } = .next t) : StreamEffect first i s t := by
  have m := Moves.readIn hs (.inr (.inr hi) : (∃ rd n, i = .ldb rd n) ∨ _)
  have hout : (∃ rs n, i = .stb rs n) ∨ (∃ rs sel, i = .dbg rs sel) ∨ i = .encs ∨ i = .decs := .inr (.inr hi)
  rcases emitCipher_cases hB.blockBytes.1 h with ⟨-, rfl⟩ | ⟨-, u, rfl, ⟨-, rfl⟩ | ⟨-, rfl⟩⟩
  · exact .inr (.inl (FaultsFrom.port ((m.working RoundRegs.zero
      { s.stream with cur := cur, curn := BitVec.ofNat 4 n } s.status.busy).failOut hout) rfl rfl rfl (.inl rfl)))
  · exact .inr (.inr (StreamsFrom.ends ((m.writeOut (toBytes B.bitOrder c B.blockBytes) hout).working RoundRegs.zero
      { s.stream with chain := c, cur := cur, curn := BitVec.ofNat 4 n } s.status.busy) rfl rfl rfl))
  · exact .inr (.inr ⟨_, (m.writeOut (toBytes B.bitOrder c B.blockBytes) hout).working RoundRegs.zero
      { s.stream with chain := c, cur := cur, curn := BitVec.ofNat 4 n } s.status.busy, rfl, rfl, rfl,
      .inr ⟨rfl, show Sst.Follows first s.stream.sst s.stream.sst by rw [e]; exact rfl, .inr rfl, .inr rfl,
        fun _ b => ⟨toNat_count hn, b⟩⟩⟩)

theorem stepEblk_effect {B : Build} (hB : B.Fits) {first : Sst} {i : Instr} {s t : State} (hi : i = .encs ∨ i = .decs) (e : s.stream.sst = .eblk)
    (h : stepEblk B s = .next t) : StreamEffect first i s t := by
  rcases stepEblk_cases h with ⟨-, rfl⟩ | ⟨rest, er, rfl⟩ | ⟨rest, er, rfl⟩ | ⟨bs, rest, cur, er, -, -, h⟩
  · exact .inl rfl
  · exact stream_read_fails hi ⟨rest, .inl er, .inl rfl, rfl⟩
  · exact .inr (.inr (StreamsFrom.ends (Moves.readIn (readFully_rest er) (.inr (.inr hi))) rfl rfl rfl))
  · exact emitCipher_effect hB hi e ((readFully_length_le er).trans hB.blockBytes.2) _ _ (readFully_rest er) h

theorem stepDiv_effect {B : Build} {first : Sst} {i : Instr} {s t : State} (hi : i = .encs ∨ i = .decs) (e : s.stream.sst = .div)
    (h : stepDiv B s = .next t) : StreamEffect first i s t := by
  rcases stepDiv_cases h with ⟨-, rfl⟩ | ⟨rest, er, rfl⟩ | ⟨bs, rest, er, -, rfl⟩ | ⟨bs, rest, er, -, rfl⟩
  · exact .inl rfl
  · exact stream_read_fails hi ⟨rest, .inl er, .inl rfl, rfl⟩
  · exact stream_read_fails hi ⟨rest, .inr ⟨bs, er⟩, .inr rfl, rfl⟩
  · exact .inr (.inr (StreamsFrom.goesOn s.round { s.stream with chain := fromBytes B.bitOrder bs, sst := .dfirst }
      s.status.busy (Moves.readIn (readFully_rest er) (.inr (.inr hi))) rfl rfl rfl (by rw [e]; exact rfl) (.inl rfl)
      (.inr rfl) fun a b => ⟨a, b⟩))

theorem stepDfirst_effect {B : Build} (hB : B.Fits) {first : Sst} {i : Instr} {s t : State} (hi : i = .encs ∨ i = .decs) (e : s.stream.sst = .dfirst)
    (h : stepDfirst B s = .next t) : StreamEffect first i s t := by
  rcases stepDfirst_cases h with ⟨-, rfl⟩ | ⟨rest, er, rfl⟩ | ⟨rest, er, rfl⟩ | ⟨bs, rest, er, -, -, rfl⟩ |
    ⟨bs, rest, er, -, rfl⟩
  · exact .inl rfl
  · exact stream_read_fails hi ⟨rest, .inl er, .inl rfl, rfl⟩
  · exact .inr (.inr (StreamsFrom.ends (Moves.readIn (readFully_rest er) (.inr (.inr hi))) rfl rfl rfl))
  · exact stream_read_fails hi ⟨rest, .inr ⟨bs, er⟩, .inr rfl, rfl⟩
  · exact .inr (.inr (StreamsFrom.goesOn s.round
      { s.stream with cur := fromBytes B.bitOrder bs, curn := BitVec.ofNat 4 bs.length, sst := .dblk } s.status.busy
      (Moves.readIn (readFully_rest er) (.inr (.inr hi))) rfl rfl rfl (by rw [e]; exact rfl) (.inl rfl) (.inr rfl)
      fun _ b => ⟨toNat_count ((readFully_length_le er).trans hB.blockBytes.2), b⟩))

theorem emitPlain_effect {first : Sst} {i : Instr} {s t : State} (hi : i = .encs ∨ i = .decs) (e : s.stream.sst = .dblk)
    {n : Nat} (hn : n ≤ 8) (nxt : Buf) {p : List Byte} (hp : p ≠ []) {rest : List InItem} (hs : rest <:+ s.inq)
    (h : emitPlain n nxt p { s with inq := rest } = .next t) : StreamEffect first i s t := by
  have m := Moves.readIn hs (.inr (.inr hi) : (∃ rd n, i = .ldb rd n) ∨ _)
  have hout : (∃ rs n, i = .stb rs n) ∨ (∃ rs sel, i = .dbg rs sel) ∨ i = .encs ∨ i = .decs := .inr (.inr hi)
  rcases emitPlain_cases hp h with ⟨-, rfl⟩ | ⟨-, u, rfl, ⟨-, rfl⟩ | ⟨-, rfl⟩⟩
  · exact .inr (.inl (FaultsFrom.port ((m.working RoundRegs.zero
      { s.stream with nxt := nxt, nxtn := BitVec.ofNat 4 n } s.status.busy).failOut hout) rfl rfl rfl (.inl rfl)))
  · exact .inr (.inr (StreamsFrom.ends ((m.writeOut p hout).working RoundRegs.zero
      { s.stream with nxt := nxt, nxtn := BitVec.ofNat 4 n, chain := s.stream.cur } s.status.busy) rfl rfl rfl))
  · exact .inr (.inr ⟨_, (m.writeOut p hout).working RoundRegs.zero
      { s.stream with
        nxt := nxt, nxtn := BitVec.ofNat 4 n, chain := s.stream.cur, cur := nxt, curn := BitVec.ofNat 4 n } s.status.busy,
      rfl, rfl, rfl,
      .inr ⟨rfl, show Sst.Follows first s.stream.sst s.stream.sst by rw [e]; exact rfl, .inr rfl, .inr rfl,
        fun _ _ => ⟨toNat_count hn, toNat_count hn⟩⟩⟩)

theorem stepDblk_effect {B : Build} (hB : B.Fits) {first : Sst} {i : Instr} {s t : State} (hi : i = .encs ∨ i = .decs) (e : s.stream.sst = .dblk)
    (h : stepDblk B s = .next t) : StreamEffect first i s t := by
  rcases stepDblk_cases h with ⟨-, rfl⟩ | ⟨rest, er, rfl⟩ | ⟨bs, rest, er, -, -, rfl⟩ | ⟨bs, rest, er, -, h⟩
  · exact .inl rfl
  · exact stream_read_fails hi ⟨rest, .inl er, .inl rfl, rfl⟩
  · exact stream_read_fails hi ⟨rest, .inr ⟨bs, er⟩, .inr rfl, rfl⟩
  · exact emitPlain_effect hi e ((readFully_length_le er).trans hB.blockBytes.2) _ (plainOf_ne_nil hB.blockBytes.1 _ _) (readFully_rest er) h

/-- Everything one step of the chaining state machine can do, for either stream command (45_cbc_stream.md R173). -/
theorem streamStep_effect {B : Build} (hB : B.Fits) {first : Sst} {i : Instr} {s t : State} (hi : i = .encs ∨ i = .decs)
    (h : streamStep B first s = .next t) : StreamEffect first i s t := by
  unfold streamStep at h
  split at h
  · next e => exact startStream_effect e h
  · next e => exact stepEiv_effect hB hi e h
  · next e => exact stepEblk_effect hB hi e h
  · next e => exact stepDiv_effect hi e h
  · next e => exact stepDfirst_effect hB hi e h
  · next e => exact stepDblk_effect hB hi e h

/-- Everything one atomic step of a command can do, on any build that fits: it stalls, ends, faults, or goes through a state of
the chaining machine. -/
theorem execOn_cases {B : Build} (hB : B.Fits) {i : Instr} {s t : State} (h : execOn B i s = .next t) :
    t = s ∨ FaultsFrom i s t ∨ (i ≠ .encs ∧ i ≠ .decs ∧ EndsFrom i s t) ∨
    (i = .encs ∧ StreamsFrom .eiv i s t) ∨ (i = .decs ∧ StreamsFrom .div i s t) := by
  by_cases h1 : i = .encs
  · subst h1
    rcases streamStep_effect hB (.inl rfl) (h : streamStep B .eiv s = .next t) with e | e | e
    · exact .inl e
    · exact .inr (.inl e)
    · exact .inr (.inr (.inr (.inl ⟨rfl, e⟩)))
  · by_cases h2 : i = .decs
    · subst h2
      rcases streamStep_effect hB (.inr rfl) (h : streamStep B .div s = .next t) with e | e | e
      · exact .inl e
      · exact .inr (.inl e)
      · exact .inr (.inr (.inr (.inr ⟨rfl, e⟩)))
    · rcases execOn_effect B i s h1 h2 t h with e | e | e
      · exact .inl e
      · exact .inr (.inr (.inl ⟨h1, h2, e⟩))
      · exact .inr (.inl e)

/-- Everything one atomic step of a command can do on this hardware. -/
theorem exec_cases {i : Instr} {s t : State} (h : exec i s = .next t) :
    t = s ∨ FaultsFrom i s t ∨ (i ≠ .encs ∧ i ≠ .decs ∧ EndsFrom i s t) ∨
    (i = .encs ∧ StreamsFrom .eiv i s t) ∨ (i = .decs ∧ StreamsFrom .div i s t) :=
  execOn_cases Build.fits_des (by rw [← exec_eq_execOn]; exact h)

end Sys2Proof.Machine
end

