-- ==== Sys2Proof/Laws/Feistel.lean ====
section
/-! SUPPORT. The round sequencer, position by position: how a block is split into halves and how the halves come together again
(spec/44_feistel.md R162), on any build. -/

namespace Sys2Proof.Machine

/-- Position `i` of `WL` after the split. -/
theorem getLsbD_loadBlock_wl (half : Nat) (h : Hooks) (b k : Buf) (i : Nat) (hi : i < 32) :
    (loadBlock half h b k).wl.getLsbD i = (decide (i < half) && (h.initialPermutation b).getLsbD i) := by
  simp [loadBlock, hi]

/-- Position `i` of `WR` after the split. -/
theorem getLsbD_loadBlock_wr (half : Nat) (h : Hooks) (b k : Buf) (i : Nat) (hi : i < 32) :
    (loadBlock half h b k).wr.getLsbD i = (decide (i < half) && (h.initialPermutation b).getLsbD (half + i)) := by
  simp [loadBlock, hi]

@[simp] theorem loadBlock_wks (half : Nat) (h : Hooks) (b k : Buf) : (loadBlock half h b k).wks = k := rfl
@[simp] theorem loadBlock_rnd (half : Nat) (h : Hooks) (b k : Buf) : (loadBlock half h b k).rnd = 0 := rfl

/-- With halves of 32 positions the output is the final permutation of the halves concatenated, `WR` first. -/
theorem blockOutput_32 (h : Hooks) (w : RoundRegs) : blockOutput 32 h w = h.finalPermutation (w.wl ++ w.wr) := by
  refine congrArg h.finalPermutation (buf_ext fun i hi => ?_)
  rw [getLsbD_ofBits, BitVec.getLsbD_append]
  by_cases hl : i < 32 <;> simp [hi, hl]

/-- With halves of 32 positions the split keeps every position: the halves concatenated are the permuted block. -/
theorem loadBlock_32 (h : Hooks) (b k : Buf) :
    (loadBlock 32 h b k).wr ++ (loadBlock 32 h b k).wl = h.initialPermutation b := by
  refine buf_ext fun i hi => ?_
  rw [BitVec.getLsbD_append]
  split
  · next hl => rw [getLsbD_loadBlock_wl _ _ _ _ _ hl]; simp [hl]
  · next hl =>
    have h2 : i - 32 < 32 := by omega
    rw [getLsbD_loadBlock_wr _ _ _ _ _ h2]
    simp [h2, Nat.add_sub_cancel' (Nat.le_of_not_lt hl)]

/-- The block primitive of this hardware: sixteen rounds on halves of 32 positions. -/
theorem cryptBlock_des (keyHook : Buf → Nat → Buf × BitVec 48) (b k : Buf) :
    cryptBlock Build.des keyHook b k =
      blockOutput 32 (desHooks Rom.des) (rounds (desHooks Rom.des) keyHook 16 (loadBlock 32 (desHooks Rom.des) b k)) := rfl

/-- One more round at the end of a run of rounds. -/
theorem rounds_succ (h : Hooks) (keyHook : Buf → Nat → Buf × BitVec 48) (n : Nat) (w : RoundRegs) :
    rounds h keyHook (n + 1) w = roundStep h keyHook (rounds h keyHook n w) := by
  induction n generalizing w with
  | zero => rfl
  | succ n ih => exact ih (roundStep h keyHook w)

end Sys2Proof.Machine
end

