-- ==== Sys2Proof/Laws/PerInstr.lean ====
section
/-! SUPPORT. One lemma per command: the encoded word of any command selects that command and no must-be-zero bit of it is 1
(spec/30_encoding.md R74, R76). -/

namespace Sys2Proof.Laws.EncodedWord

/-- `w & mask = match` for the word of the command (30_encoding.md R74). -/
def Statement (i : Instr) : Prop := encode i &&& i.opcode.maskWord = i.opcode.matchWord

theorem new (rd : Reg) : Statement (.new rd) := by
  refine selects_of_fields (by simp [encode, Instr.opcode]) fun j hj => ?_
  simp only [encode, getLsbD_cmdWord, Instr.opcode, Opcode.mustBeZero, Opcode.format,
    Format.mustBeZero]
  interval_cases j <;> simp

theorem ldb (rd : Reg) (n : BitVec 4) : Statement (.ldb rd n) := by
  refine selects_of_fields (by simp [encode, Instr.opcode]) fun j hj => ?_
  simp only [encode, getLsbD_cmdWord, BitVec.getLsbD_append, Instr.opcode, Opcode.mustBeZero, Opcode.format,
    Format.mustBeZero]
  interval_cases j <;> simp

theorem clone (rd rs : Reg) : Statement (.clone rd rs) := by
  refine selects_of_fields (by simp [encode, Instr.opcode]) fun j hj => ?_
  simp only [encode, getLsbD_cmdWord, Instr.opcode, Opcode.mustBeZero, Opcode.format,
    Format.mustBeZero]
  interval_cases j <;> simp

theorem copy (rd rs : Reg) : Statement (.copy rd rs) := by
  refine selects_of_fields (by simp [encode, Instr.opcode]) fun j hj => ?_
  simp only [encode, getLsbD_cmdWord, Instr.opcode, Opcode.mustBeZero, Opcode.format,
    Format.mustBeZero]
  interval_cases j <;> simp

theorem clr (rd : Reg) : Statement (.clr rd) := by
  refine selects_of_fields (by simp [encode, Instr.opcode]) fun j hj => ?_
  simp only [encode, getLsbD_cmdWord, Instr.opcode, Opcode.mustBeZero, Opcode.format,
    Format.mustBeZero]
  interval_cases j <;> simp

theorem close (rd : Reg) : Statement (.close rd) := by
  refine selects_of_fields (by simp [encode, Instr.opcode]) fun j hj => ?_
  simp only [encode, getLsbD_cmdWord, Instr.opcode, Opcode.mustBeZero, Opcode.format,
    Format.mustBeZero]
  interval_cases j <;> simp

theorem setb (rd : Reg) (p : BitVec 6) (v : Bool) : Statement (.setb rd p v) := by
  refine selects_of_fields (by simp [encode, Instr.opcode]) fun j hj => ?_
  simp only [encode, getLsbD_cmdWord, BitVec.getLsbD_append, Instr.opcode, Opcode.mustBeZero, Opcode.format,
    Format.mustBeZero]
  interval_cases j <;> simp

theorem flipb (rd : Reg) (p : BitVec 6) : Statement (.flipb rd p) := by
  refine selects_of_fields (by simp [encode, Instr.opcode]) fun j hj => ?_
  simp only [encode, getLsbD_cmdWord, BitVec.getLsbD_append, Instr.opcode, Opcode.mustBeZero, Opcode.format,
    Format.mustBeZero]
  interval_cases j <;> simp

theorem getb (rd : Reg) (p : BitVec 6) : Statement (.getb rd p) := by
  refine selects_of_fields (by simp [encode, Instr.opcode]) fun j hj => ?_
  simp only [encode, getLsbD_cmdWord, BitVec.getLsbD_append, Instr.opcode, Opcode.mustBeZero, Opcode.format,
    Format.mustBeZero]
  interval_cases j <;> simp

theorem setr (rd : Reg) (lo hi : BitVec 7) (v : Bool) : Statement (.setr rd lo hi v) := by
  refine selects_of_fields (by simp [encode, Instr.opcode]) fun j hj => ?_
  simp only [encode, getLsbD_cmdWord, BitVec.getLsbD_append, Instr.opcode, Opcode.mustBeZero, Opcode.format,
    Format.mustBeZero]
  interval_cases j <;> simp

theorem flipr (rd : Reg) (lo hi : BitVec 7) : Statement (.flipr rd lo hi) := by
  refine selects_of_fields (by simp [encode, Instr.opcode]) fun j hj => ?_
  simp only [encode, getLsbD_cmdWord, BitVec.getLsbD_append, Instr.opcode, Opcode.mustBeZero, Opcode.format,
    Format.mustBeZero]
  interval_cases j <;> simp

theorem getr (rd rs : Reg) (lo hi : BitVec 7) : Statement (.getr rd rs lo hi) := by
  refine selects_of_fields (by simp [encode, Instr.opcode]) fun j hj => ?_
  simp only [encode, getLsbD_cmdWord, BitVec.getLsbD_append, Instr.opcode, Opcode.mustBeZero, Opcode.format,
    Format.mustBeZero]
  interval_cases j <;> simp

theorem and (rd rs : Reg) : Statement (.and rd rs) := by
  refine selects_of_fields (by simp [encode, Instr.opcode]) fun j hj => ?_
  simp only [encode, getLsbD_cmdWord, Instr.opcode, Opcode.mustBeZero, Opcode.format,
    Format.mustBeZero]
  interval_cases j <;> simp

theorem or (rd rs : Reg) : Statement (.or rd rs) := by
  refine selects_of_fields (by simp [encode, Instr.opcode]) fun j hj => ?_
  simp only [encode, getLsbD_cmdWord, Instr.opcode, Opcode.mustBeZero, Opcode.format,
    Format.mustBeZero]
  interval_cases j <;> simp

theorem xor (rd rs : Reg) : Statement (.xor rd rs) := by
  refine selects_of_fields (by simp [encode, Instr.opcode]) fun j hj => ?_
  simp only [encode, getLsbD_cmdWord, Instr.opcode, Opcode.mustBeZero, Opcode.format,
    Format.mustBeZero]
  interval_cases j <;> simp

theorem andn (rd rs : Reg) : Statement (.andn rd rs) := by
  refine selects_of_fields (by simp [encode, Instr.opcode]) fun j hj => ?_
  simp only [encode, getLsbD_cmdWord, Instr.opcode, Opcode.mustBeZero, Opcode.format,
    Format.mustBeZero]
  interval_cases j <;> simp

theorem ovw (rd rs : Reg) (pos sfrom : BitVec 6) (n : BitVec 7) : Statement (.ovw rd rs pos sfrom n) := by
  refine selects_of_fields (by simp [encode, Instr.opcode]) fun j hj => ?_
  simp only [encode, getLsbD_cmdWord, BitVec.getLsbD_append, Instr.opcode, Opcode.mustBeZero, Opcode.format,
    Format.mustBeZero]
  interval_cases j <;> simp

theorem rol (rd : Reg) (n ring : BitVec 7) : Statement (.rol rd n ring) := by
  refine selects_of_fields (by simp [encode, Instr.opcode]) fun j hj => ?_
  simp only [encode, getLsbD_cmdWord, BitVec.getLsbD_append, Instr.opcode, Opcode.mustBeZero, Opcode.format,
    Format.mustBeZero]
  interval_cases j <;> simp

theorem ror (rd : Reg) (n ring : BitVec 7) : Statement (.ror rd n ring) := by
  refine selects_of_fields (by simp [encode, Instr.opcode]) fun j hj => ?_
  simp only [encode, getLsbD_cmdWord, BitVec.getLsbD_append, Instr.opcode, Opcode.mustBeZero, Opcode.format,
    Format.mustBeZero]
  interval_cases j <;> simp

theorem len (rd : Reg) : Statement (.len rd) := by
  refine selects_of_fields (by simp [encode, Instr.opcode]) fun j hj => ?_
  simp only [encode, getLsbD_cmdWord, Instr.opcode, Opcode.mustBeZero, Opcode.format,
    Format.mustBeZero]
  interval_cases j <;> simp

theorem stb (rs : Reg) (n : BitVec 4) : Statement (.stb rs n) := by
  refine selects_of_fields (by simp [encode, Instr.opcode]) fun j hj => ?_
  simp only [encode, getLsbD_cmdWord, BitVec.getLsbD_append, Instr.opcode, Opcode.mustBeZero, Opcode.format,
    Format.mustBeZero]
  interval_cases j <;> simp

theorem dbg (rs : Reg) (sel : Bool) : Statement (.dbg rs sel) := by
  refine selects_of_fields (by simp [encode, Instr.opcode]) fun j hj => ?_
  simp only [encode, getLsbD_cmdWord, BitVec.getLsbD_append, Instr.opcode, Opcode.mustBeZero, Opcode.format,
    Format.mustBeZero]
  interval_cases j <;> simp

theorem perm (rd : Reg) (t : PermTable) : Statement (.perm rd t) := by
  refine selects_of_fields (by simp [encode, Instr.opcode]) fun j hj => ?_
  simp only [encode, getLsbD_cmdWord, BitVec.getLsbD_append, Instr.opcode, Opcode.mustBeZero, Opcode.format,
    Format.mustBeZero]
  interval_cases j <;> simp

theorem sbox (rd : Reg) (k : BitVec 3) (x : BitVec 4) (y : BitVec 2) : Statement (.sbox rd k x y) := by
  refine selects_of_fields (by simp [encode, Instr.opcode]) fun j hj => ?_
  simp only [encode, getLsbD_cmdWord, BitVec.getLsbD_append, Instr.opcode, Opcode.mustBeZero, Opcode.format,
    Format.mustBeZero]
  interval_cases j <;> simp

theorem sub6 (rd : Reg) (k : BitVec 3) : Statement (.sub6 rd k) := by
  refine selects_of_fields (by simp [encode, Instr.opcode]) fun j hj => ?_
  simp only [encode, getLsbD_cmdWord, BitVec.getLsbD_append, Instr.opcode, Opcode.mustBeZero, Opcode.format,
    Format.mustBeZero]
  interval_cases j <;> simp

theorem kse (rd rs : Reg) (r : BitVec 4) : Statement (.kse rd rs r) := by
  refine selects_of_fields (by simp [encode, Instr.opcode]) fun j hj => ?_
  simp only [encode, getLsbD_cmdWord, BitVec.getLsbD_append, Instr.opcode, Opcode.mustBeZero, Opcode.format,
    Format.mustBeZero]
  interval_cases j <;> simp

theorem ksd (rd rs : Reg) (r : BitVec 4) : Statement (.ksd rd rs r) := by
  refine selects_of_fields (by simp [encode, Instr.opcode]) fun j hj => ?_
  simp only [encode, getLsbD_cmdWord, BitVec.getLsbD_append, Instr.opcode, Opcode.mustBeZero, Opcode.format,
    Format.mustBeZero]
  interval_cases j <;> simp

theorem ffn (rd rs rt : Reg) : Statement (.ffn rd rs rt) := by
  refine selects_of_fields (by simp [encode, Instr.opcode]) fun j hj => ?_
  simp only [encode, getLsbD_cmdWord, BitVec.getLsbD_append, Instr.opcode, Opcode.mustBeZero, Opcode.format,
    Format.mustBeZero]
  interval_cases j <;> simp

theorem encb (rd rs rt : Reg) : Statement (.encb rd rs rt) := by
  refine selects_of_fields (by simp [encode, Instr.opcode]) fun j hj => ?_
  simp only [encode, getLsbD_cmdWord, BitVec.getLsbD_append, Instr.opcode, Opcode.mustBeZero, Opcode.format,
    Format.mustBeZero]
  interval_cases j <;> simp

theorem decb (rd rs rt : Reg) : Statement (.decb rd rs rt) := by
  refine selects_of_fields (by simp [encode, Instr.opcode]) fun j hj => ?_
  simp only [encode, getLsbD_cmdWord, BitVec.getLsbD_append, Instr.opcode, Opcode.mustBeZero, Opcode.format,
    Format.mustBeZero]
  interval_cases j <;> simp

theorem ldk (n : BitVec 4) : Statement (.ldk n) := by
  refine selects_of_fields (by simp [encode, Instr.opcode]) fun j hj => ?_
  simp only [encode, getLsbD_cmdWord, BitVec.getLsbD_append, Instr.opcode, Opcode.mustBeZero, Opcode.format,
    Format.mustBeZero]
  interval_cases j <;> simp

theorem kclose : Statement .kclose := by
  refine selects_of_fields (by simp [encode, Instr.opcode]) fun j hj => ?_
  simp only [encode, getLsbD_cmdWord, Instr.opcode, Opcode.mustBeZero, Opcode.format,
    Format.mustBeZero]
  interval_cases j <;> simp

theorem encs : Statement .encs := by
  refine selects_of_fields (by simp [encode, Instr.opcode]) fun j hj => ?_
  simp only [encode, getLsbD_cmdWord, Instr.opcode, Opcode.mustBeZero, Opcode.format,
    Format.mustBeZero]
  interval_cases j <;> simp

theorem decs : Statement .decs := by
  refine selects_of_fields (by simp [encode, Instr.opcode]) fun j hj => ?_
  simp only [encode, getLsbD_cmdWord, Instr.opcode, Opcode.mustBeZero, Opcode.format,
    Format.mustBeZero]
  interval_cases j <;> simp

end Sys2Proof.Laws.EncodedWord
end

