-- ==== Sys2Proof/Laws/Run.lean ====
section
/-! SUPPORT. Runs of several steps: how they are taken apart and put together. -/

namespace Sys2Proof.Machine

@[simp] theorem runBy_zero (move : State → Result) (s : State) : runBy move 0 s = .next s := rfl

/-- A run goes on from where its first step leads, whatever takes the steps. -/
theorem runBy_succ {move : State → Result} {s t : State} (h : move s = .next t) (n : Nat) :
    runBy move (n + 1) s = runBy move n t := by
  simp only [runBy, h]

@[simp] theorem runSteps_zero (s : State) : runSteps 0 s = .next s := rfl

/-- A run goes on from where its first step leads. -/
theorem runSteps_succ {s t : State} (h : step s = .next t) (n : Nat) : runSteps (n + 1) s = runSteps n t :=
  runBy_succ h n

/-- Two runs, the second from where the first ends, are one run. -/
theorem runSteps_add {m : Nat} {s t : State} (h : runSteps m s = .next t) (n : Nat) :
    runSteps (m + n) s = runSteps n t := by
  induction m generalizing s with
  | zero =>
    simp only [runSteps_zero, Host.Outcome.next.injEq] at h
    rw [h, Nat.zero_add]
  | succ m ih =>
    cases e : step s with
    | next u =>
      rw [runSteps_succ e] at h
      rw [Nat.add_right_comm, runSteps_succ e, ih h]
    | fault r => exact r.casesOn
    | refused r => simp [runSteps, runBy, e] at h

/-- One more step of a host's run, whatever the machine. -/
theorem host_run_succ (M : Host.Core) (n : Nat) (s t : M.State) (h : M.step s = .next t) :
    M.run (n + 1) s = M.run n t := by
  simp only [Host.Core.run, h]

/-- A run of the model is a run of the host's interface. -/
theorem core_run_of_runSteps (n : Nat) {s t : State} (h : runSteps n s = .next t) : core.run n s = .next t := by
  induction n generalizing s with
  | zero => exact h
  | succ n ih =>
    cases e : step s with
    | next u =>
      rw [runSteps_succ e] at h
      exact (host_run_succ core n s u e).trans (ih h)
    | fault r => exact r.casesOn
    | refused r => simp [runSteps, runBy, e] at h

end Sys2Proof.Machine
end

