-- ==== Sys2Proof/Laws/Step.lean ====
section
/-! SUPPORT. Said once: everything one step can do, on any build and whatever runs the commands. -/

namespace Sys2Proof.Machine

/-- Everything the command in progress can come to (30_encoding.md R75). -/
theorem runCommand_cases {run : Instr → State → Result} {s t : State} (h : runCommand run s = .next t) :
    (∃ i, decode s.cip = .ok i ∧ run i s = .next t) ∨ (∃ e, decode s.cip = .error e ∧ t = s.raise .illegal) := by
  unfold runCommand at h
  split at h
  · next i e => exact .inl ⟨i, e, h⟩
  · next e he => exact .inr ⟨e, he, by simpa [eq_comm] using h⟩

/-- Everything a step can do: reset, wait, lose a word while halted, or go on with a command (`u` is the state it runs in). -/
theorem stepBy_cases {B : Build} {run : Instr → State → Result} {s t : State} (h : stepBy B run s = .next t) :
    (s.resetPin = true ∧ t = s.resetOn B) ∨
    (s.resetPin = false ∧ t = s) ∨
    (s.resetPin = false ∧ s.status.halt = true ∧ ∃ w rest, s.cmd = w :: rest ∧ t = { s with cmd := rest }) ∨
    (s.resetPin = false ∧ s.status.halt = false ∧ ∃ u, runCommand run u = .next t ∧
      ((s.status.busy = true ∧ u = s) ∨
        (s.status.busy = false ∧ ∃ w rest, s.cmd = w :: rest ∧ u = { s with cmd := rest }.accept w))) := by
  unfold stepBy fetchOn at h
  cases hr : s.resetPin with
  | true => simp only [hr, if_true, Host.Outcome.next.injEq] at h; exact .inl ⟨rfl, h.symm⟩
  | false =>
    refine .inr ?_
    cases hh : s.status.halt <;> cases hb : s.status.busy <;> cases hc : s.cmd <;>
      simp only [hr, hh, hb, hc, State.offer, Bool.not_true, Bool.not_false, Bool.and_true, Bool.and_false, Bool.or_true,
        Bool.or_false, Bool.false_eq_true, if_true, if_false, Host.Outcome.next.injEq] at h
    · exact .inl ⟨rfl, h.symm⟩
    · next w rest => exact .inr (.inr ⟨rfl, rfl, _, h, .inr ⟨rfl, w, rest, rfl, rfl⟩⟩)
    · exact .inr (.inr ⟨rfl, rfl, s, h, .inl ⟨rfl, rfl⟩⟩)
    · exact .inr (.inr ⟨rfl, rfl, s, h, .inl ⟨rfl, rfl⟩⟩)
    · exact .inl ⟨rfl, h.symm⟩
    · next w rest => exact .inr (.inl ⟨rfl, rfl, w, rest, rfl, h.symm⟩)
    · exact .inl ⟨rfl, h.symm⟩
    · next w rest => exact .inr (.inl ⟨rfl, rfl, w, rest, rfl, h.symm⟩)

/-- Everything a step of this hardware can do. -/
theorem step_cases {s t : State} (h : step s = .next t) :
    (s.resetPin = true ∧ t = s.onReset) ∨
    (s.resetPin = false ∧ t = s) ∨
    (s.resetPin = false ∧ s.status.halt = true ∧ ∃ w rest, s.cmd = w :: rest ∧ t = { s with cmd := rest }) ∨
    (s.resetPin = false ∧ s.status.halt = false ∧ ∃ u, runCommand exec u = .next t ∧
      ((s.status.busy = true ∧ u = s) ∨
        (s.status.busy = false ∧ ∃ w rest, s.cmd = w :: rest ∧ u = { s with cmd := rest }.accept w))) :=
  stepBy_cases h

end Sys2Proof.Machine
end

