-- ==== Sys2Proof/Tests/Slice0.lean ====
section
/-! SUPPORT. The model's own tests. Expected values are those of spec/95_test_vectors.md (the vector is named at each test), of
the words and tables of spec/30_encoding.md and spec/opcode_table.json, or worked out by hand from the rule named; and for
every obligation with hypotheses one theorem `witness_<name>` that meets them, clause by clause. -/

namespace Sys2Proof.Tests

open Sys2Proof Sys2Proof.Machine

set_option Elab.async false

/-- The registers `B0, B1, ..` open with the given byte strings (zeros above), the others closed. -/
def regs (l : List (List Byte)) : State :=
  { State.reset with
    bufs := Vector.ofFn fun i =>
      match l[i.val]? with
      | some bs => { isOpen := true, v := fromBytes .msbFirst bs }
      | none => BufReg.closed }

/-- The state one step leads to from `s` with the word `w` presented. -/
def after (w : CmdWord) (s : State) : State :=
  match step (s.placeWord w) with
  | .next t => t
  | .fault _ => s
  | .refused _ => s

/-- A register as the vectors print it, zeros to eight bytes; `none` when closed. -/
def shown (r : Reg) (s : State) : Option (List Byte) :=
  if s.bufs[r].isOpen then some (toBytes .msbFirst s.bufs[r].v 8) else none

/-- A byte string with zeros to eight bytes. -/
def pad8 (bs : List Byte) : List Byte := bs ++ List.replicate (8 - bs.length) 0

/-- `FCODE`, `FCMD`, `HALT`, `BUSY`. -/
def faultOf (s : State) : BitVec 3 × CmdWord × Bool × Bool := (s.fcode, s.fcmd, s.status.halt, s.status.busy)

/-- The key of V-KS-1, the block of V-ENC-1 and the stand-in key of section 2.6. -/
def theKey : List Byte := [0x13, 0x34, 0x57, 0x79, 0x9B, 0xBC, 0xDF, 0xF1]
def theBlock : List Byte := [0x01, 0x23, 0x45, 0x67, 0x89, 0xAB, 0xCD, 0xEF]
def standIn : List Byte := [0x70, 0x61, 0x73, 0x73, 0x77, 0x6F, 0x72, 0x64]
def theDraw : Draw := #v[0x00, 0x01, 0x02, 0x03, 0x04, 0x05, 0x06, 0x07]

/-- The items of a byte string. -/
def items (bs : List Byte) : List InItem := bs.map InItem.byte

/-- The stand-in key loaded, `IN` and `RNG` as given. -/
def keyed (q : List InItem) (draws : List Draw) : State :=
  { State.reset with key := { isOpen := true, len := 8, v := fromBytes .msbFirst standIn }, inq := q, rng := draws }

/-! ## Well-formedness: an ill-formed term for each check (30_encoding.md R72, R75 step 2) -/

theorem test_illformed_ldb : (Instr.ldb 0 9).wellFormed = false := by decide
theorem test_illformed_setr_from : (Instr.setr 0 65 64 true).wellFormed = false := by decide
theorem test_illformed_setr_to : (Instr.setr 0 0 65 true).wellFormed = false := by decide
theorem test_illformed_flipr_from : (Instr.flipr 0 127 0).wellFormed = false := by decide
theorem test_illformed_flipr_to : (Instr.flipr 0 0 65).wellFormed = false := by decide
theorem test_illformed_getr_from : (Instr.getr 0 1 65 64).wellFormed = false := by decide
theorem test_illformed_getr_to : (Instr.getr 0 1 0 65).wellFormed = false := by decide
theorem test_illformed_ovw : (Instr.ovw 0 0 0 0 65).wellFormed = false := by decide
theorem test_illformed_rol_n : (Instr.rol 0 70 64).wellFormed = false := by decide
theorem test_illformed_rol_ring : (Instr.rol 0 0 65).wellFormed = false := by decide
theorem test_illformed_ror_n : (Instr.ror 0 65 64).wellFormed = false := by decide
theorem test_illformed_ror_ring : (Instr.ror 0 0 80).wellFormed = false := by decide
theorem test_illformed_dbg : (Instr.dbg 1 true).wellFormed = false := by decide
theorem test_wellformed_bounds : (Instr.setr 0 64 64 true).wellFormed = true ∧ (Instr.ldb 0 8).wellFormed = true ∧
    (Instr.dbg 0 true).wellFormed = true ∧ (Instr.dbg 7 false).wellFormed = true := by decide

/-! ## Decoding: one word per command, written out from 30_encoding.md R71, R73 (and its worked words) -/

theorem test_decode_new : decode 0x04000000#32 = .ok (.new 0) := by decide
theorem test_decode_ldb : decode 0x08800002#32 = .ok (.ldb 1 2) := by decide
theorem test_decode_clone : decode 0x0D100000#32 = .ok (.clone 2 1) := by decide
theorem test_decode_copy : decode 0x10100000#32 = .ok (.copy 0 1) := by decide
theorem test_decode_clr : decode 0x14000000#32 = .ok (.clr 0) := by decide
theorem test_decode_close : decode 0x19800000#32 = .ok (.close 3) := by decide
theorem test_decode_setb : decode 0x20000047#32 = .ok (.setb 0 7 true) := by decide
theorem test_decode_flipb : decode 0x24000000#32 = .ok (.flipb 0 0) := by decide
theorem test_decode_getb : decode 0x28000007#32 = .ok (.getb 0 7) := by decide
theorem test_decode_setr : decode 0x2C004604#32 = .ok (.setr 0 4 12 true) := by decide
theorem test_decode_flipr : decode 0x30000800#32 = .ok (.flipr 0 0 16) := by decide
theorem test_decode_getr : decode 0x35100808#32 = .ok (.getr 2 1 8 16) := by decide
theorem test_decode_and : decode 0x41100000#32 = .ok (.and 2 1) := by decide
theorem test_decode_or : decode 0x45900000#32 = .ok (.or 3 1) := by decide
theorem test_decode_xor : decode 0x48A00000#32 = .ok (.xor 1 2) := by decide
theorem test_decode_andn : decode 0x4E900000#32 = .ok (.andn 5 1) := by decide
theorem test_decode_ovw : decode 0x50108408#32 = .ok (.ovw 0 1 4 8 8) := by decide
theorem test_decode_rol : decode 0x55800E02#32 = .ok (.rol 3 2 28) := by decide
theorem test_decode_ror : decode 0x58000403#32 = .ok (.ror 0 3 8) := by decide
theorem test_decode_len : decode 0x5F000000#32 = .ok (.len 6) := by decide
theorem test_decode_stb : decode 0x6010000F#32 = .ok (.stb 1 15) := by decide
theorem test_decode_dbg : decode 0x64300000#32 = .ok (.dbg 3 false) ∧ decode 0x64000001#32 = .ok (.dbg 0 true) := by decide
theorem test_decode_perm : decode 0x80000000#32 = .ok (.perm 0 .ip) ∧ decode 0x80000001#32 = .ok (.perm 0 .fp) ∧
    decode 0x80000002#32 = .ok (.perm 0 .pc1) ∧ decode 0x80000003#32 = .ok (.perm 0 .pc2) ∧
    decode 0x80000004#32 = .ok (.perm 0 .e) ∧ decode 0x80000005#32 = .ok (.perm 0 .p) := by decide
theorem test_decode_sbox : decode 0x840000E8#32 = .ok (.sbox 0 0 13 1) := by decide
theorem test_decode_sub6 : decode 0x89800007#32 = .ok (.sub6 3 7) := by decide
theorem test_decode_kse : decode 0xA080000F#32 = .ok (.kse 1 0 15) := by decide
theorem test_decode_ksd : decode 0xA4800003#32 = .ok (.ksd 1 0 3) := by decide
theorem test_decode_ffn : decode 0xA9020000#32 = .ok (.ffn 2 0 1) := by decide
theorem test_decode_encb : decode 0xAFEA0000#32 = .ok (.encb 7 6 5) := by decide
theorem test_decode_decb : decode 0xB1A20000#32 = .ok (.decb 3 2 1) := by decide
theorem test_decode_ldk : decode 0xC000000F#32 = .ok (.ldk 15) := by decide
theorem test_decode_kclose : decode 0xC4000000#32 = .ok .kclose := by decide
theorem test_decode_encs : decode 0xC8000000#32 = .ok .encs := by decide
theorem test_decode_decs : decode 0xCC000000#32 = .ok .decs := by decide

/-- The words of V-FLT-1 (but the two `DBG` rows): each is rejected. -/
theorem test_illegal_words :
    ([0x00000000#32, 0xFFFFFFFF#32, 0x1C000000#32, 0x68000000#32, 0x8C000000#32, 0xD0000000#32, 0x04100000#32,
      0x04000001#32, 0x54002846#32, 0x54802846#32, 0x2C006080#32, 0x50000041#32, 0x80000006#32, 0x80000007#32,
      0xA0000010#32, 0x08000009#32, 0x60800001#32, 0xC8800000#32, 0x64100001#32, 0xAD020001#32].all
      fun w => !(decode w).isOk) = true := by decide

/-- The mask and match of some rows of spec/opcode_table.json. -/
theorem test_masks : (Opcode.new.maskWord, Opcode.new.matchWord) = (0xFC7FFFFF#32, 0x04000000#32) ∧
    (Opcode.dbg.maskWord, Opcode.dbg.matchWord) = (0xFF8FFFFE#32, 0x64000000#32) ∧
    (Opcode.decs.maskWord, Opcode.decs.matchWord) = (0xFFFFFFFF#32, 0xCC000000#32) := by decide

theorem test_table_word : decodeTableWord 32 0x55800E02 = some (.rol 3 2 28) ∧ decodeTableWord 32 0 = none := by decide

/-! ## Bytes and tables (20_memory.md R53, R54; 41_permutation.md R131, 42_substitution.md R141) -/

/-- Position 0 is the most significant bit of the first byte (20_memory.md R53), worked by hand. -/
theorem test_byte_order : fromBytes .msbFirst [0x80] = 1#64 ∧ fromBytes .msbFirst [0x01, 0x80] = 0x180#64 ∧
    fromBytes .lsbFirst [0x80, 0x01] = 0x180#64 ∧ toBytes .msbFirst 0x180#64 3 = [0x01, 0x80, 0x00] := by decide +kernel

/-- The sums of the permutation tables of 41_permutation.md R131, and of every box, V-SUB-3. -/
theorem test_table_sums : Rom.ip.sum = 2016 ∧ Rom.fp.sum = 2016 ∧ Rom.pc1.sum = 1736 ∧ Rom.pc2.sum = 1304 ∧
    Rom.e.sum = 744 ∧ Rom.p.sum = 496 ∧ Rom.shift = [1, 1, 2, 2, 2, 2, 2, 2, 1, 2, 2, 2, 2, 2, 2, 1] ∧
    Rom.des.sbox.map (fun b => b.flatten.sum) = [480, 480, 480, 480, 480, 480, 480, 480] := by decide +kernel

/-- The corners of the boxes, V-SUB-3 (columns `(15,0)`, `(0,1)`, `(15,2)`, `(15,3)`). -/
theorem test_box_corners :
    (List.range 8).map (fun k => [sboxEntry Rom.des k 15 0, sboxEntry Rom.des k 0 1, sboxEntry Rom.des k 15 2,
      sboxEntry Rom.des k 15 3]) =
      [[7, 0, 0, 13], [10, 3, 15, 9], [8, 13, 7, 12], [15, 13, 4, 14], [9, 14, 14, 3], [11, 10, 6, 13], [1, 13, 2, 12],
       [7, 1, 8, 11]] := by decide +kernel

/-! ## One step per command -/

/-- `NEW B0` from closed (V-BUF-1). -/
theorem test_new : shown 0 (after 0x04000000#32 State.reset) = some (pad8 []) := by decide +kernel
/-- `LDB B2, 8` meets `eos` after one byte (V-IO-1). -/
theorem test_ldb : shown 2 (after 0x09000008#32 { State.reset with inq := [.byte 0x11, .eos, .byte 0x22] }) = some (pad8 [0x11]) ∧
    (after 0x09000008#32 { State.reset with inq := [.byte 0x11, .eos, .byte 0x22] }).inq = [.byte 0x22] := by decide +kernel
/-- `LDB B0, 4` meets `err` (V-FLT-3). -/
theorem test_ldb_err : faultOf (after 0x08000004#32 { State.reset with inq := items [0xAA, 0xBB] ++ [.err, .byte 0xCC, .eos] }) =
    (2, 0x08000004, true, false) ∧
    (after 0x08000004#32 { State.reset with inq := items [0xAA, 0xBB] ++ [.err, .byte 0xCC, .eos] }).inq = [.byte 0xCC, .eos] := by
  decide +kernel
/-- `CLONE B2, B0` (V-BUF-2). -/
theorem test_clone : shown 2 (after 0x0D000000#32 (regs [[0xF0, 0xF0], [0xFF, 0x00]])) = some (pad8 [0xF0, 0xF0]) := by
  decide +kernel
/-- `COPY B1, B1` keeps the value (V-BUF-2); `COPY B1, B0` needs an open receiver (V-FLT-2). -/
theorem test_copy : shown 1 (after 0x10900000#32 (regs [[0xF0, 0xF0], [0xFF, 0x00]])) = some (pad8 [0xFF]) := by decide +kernel
theorem test_copy_closed : faultOf (after 0x10800000#32 (regs [[0xFF]])) = (1, 0x10800000, true, false) := by decide +kernel
/-- `CLR B0` (V-BUF-1). -/
theorem test_clr : shown 0 (after 0x14000000#32 (regs [[0x01]])) = some (pad8 []) := by decide +kernel
/-- `CLOSE B0` scrubs the storage (40_bit_buffer.md R106). -/
theorem test_close : (after 0x18000000#32 (regs [[0xDE, 0xAD]])).bufs[0] = { isOpen := false, v := 0 } := by decide +kernel
/-- `SETB B0, 63, 1` (V-BUF-1). -/
theorem test_setb : shown 0 (after 0x2000007F#32 (regs [[]])) = some [0, 0, 0, 0, 0, 0, 0, 1] := by decide +kernel
/-- `FLIPB B0, 0` (V-BUF-1). -/
theorem test_flipb : shown 0 (after 0x24000000#32 (regs [[0x81]])) = some (pad8 [0x01]) := by decide +kernel
/-- `GETB B0, 7` and `GETB B0, 6` of `01` (V-BUF-1). -/
theorem test_getb : (after 0x28000007#32 (regs [[0x01]])).res = 1 ∧ (after 0x28000006#32 (regs [[0x01]])).res = 0 := by
  decide +kernel
/-- `SETR B0, 4, 12, 1` of `01` (V-BUF-1); `from > to` (V-FLT-2). -/
theorem test_setr : shown 0 (after 0x2C004604#32 (regs [[0x01]])) = some (pad8 [0x0F, 0xF0]) := by decide +kernel
theorem test_setr_order : faultOf (after 0x2C004205#32 (regs [[0xFF]])) = (1, 0x2C004205, true, false) := by decide +kernel
/-- `FLIPR B0, 0, 16` (V-BUF-1). -/
theorem test_flipr : shown 0 (after 0x30000800#32 (regs [[0x0F, 0xF0]])) = some (pad8 [0xF0, 0x0F]) := by decide +kernel
/-- `GETR B1, B0, 2, 14` and the empty range `GETR B2, B0, 5, 5` (V-BUF-1). -/
theorem test_getr : shown 1 (after 0x34800702#32 (regs [[0xF0, 0x0F]])) = some (pad8 [0xC0, 0x30]) ∧
    shown 2 (after 0x35000285#32 (regs [[0xF0, 0x0F]])) = some (pad8 []) := by decide +kernel
/-- `AND B2, B1`, `OR B3, B1`, `XOR B4, B1`, `ANDN B5, B1` (V-BUF-2). -/
theorem test_and : shown 2 (after 0x41100000#32 (regs [[], [0xFF, 0x00], [0xF0, 0xF0]])) = some (pad8 [0xF0]) := by decide +kernel
theorem test_or : shown 0 (after 0x44100000#32 (regs [[0xF0, 0xF0], [0xFF, 0x00]])) = some (pad8 [0xFF, 0xF0]) := by decide +kernel
theorem test_xor : shown 0 (after 0x48100000#32 (regs [[0xF0, 0xF0], [0xFF, 0x00]])) = some (pad8 [0x0F, 0xF0]) := by decide +kernel
theorem test_andn : shown 0 (after 0x4C100000#32 (regs [[0xF0, 0xF0], [0xFF, 0x00]])) = some (pad8 [0x00, 0xF0]) := by decide +kernel
/-- `OVW B0, B1, 4, 8, 8` (V-BUF-3); the smallest overrun is `E_CAP` (V-FLT-2). -/
theorem test_ovw : shown 0 (after 0x50108408#32 (regs [[0xFF, 0xFF, 0xFF, 0xFF], [0x00, 0xA5]])) =
    some (pad8 [0xFA, 0x5F, 0xFF, 0xFF]) := by decide +kernel
theorem test_ovw_cap : faultOf (after 0x5027E002#32 (regs [[0xFF], [], [0x80]])) = (5, 0x5027E002, true, false) := by decide +kernel
/-- `ROL B0, 3, 8` (V-ROT-1) and the third row of V-ROT-2. -/
theorem test_rol : shown 0 (after 0x54000403#32 (regs [[0xB1, 0xC3]])) = some (pad8 [0x8D, 0xC3]) ∧
    toBytes .msbFirst (rotLeft (fromBytes .msbFirst [0xBA, 0x19, 0x8C, 0xA9, 0xAE, 0x20, 0x9B, 0x70]) 5 13) 8 =
      [0x43, 0xB9, 0x8C, 0xA9, 0xAE, 0x20, 0x9B, 0x70] := by decide +kernel
/-- `ROR B0, 4, 12` (V-ROT-1); `n > ring` (V-FLT-2). -/
theorem test_ror : shown 0 (after 0x58000604#32 (regs [[0x63, 0x87]])) = some (pad8 [0x86, 0x37]) := by decide +kernel
theorem test_ror_ring : faultOf (after 0x58000001#32 (regs [[0xFF]])) = (1, 0x58000001, true, false) := by decide +kernel
/-- `LEN B0` (V-BUF-1). -/
theorem test_len : (after 0x5C000000#32 (regs [[0x0F, 0xF0]])).res = 12 ∧ (after 0x5C000000#32 (regs [[]])).res = 0 ∧
    (after 0x5C000000#32 (regs [[0, 0, 0, 0, 0, 0, 0, 1]])).res = 64 := by decide +kernel
/-- `STB B0, 3` and `STB B0, 15` of `01 23` (V-IO-2). -/
theorem test_stb : (after 0x60000003#32 (regs [[0x01, 0x23]])).out = [0x01, 0x23, 0x00] ∧
    (after 0x6000000F#32 (regs [[0x01, 0x23]])).out = [0x01, 0x23] ++ List.replicate 13 0 := by decide +kernel
/-- `STB B0, 1` with `OUTFAIL = 0` (V-FLT-3); `STB B0, 0` is no write (V-IO-2). -/
theorem test_stb_fail : faultOf (after 0x60000001#32 { regs [[0xA5]] with outFail := some 0 }) = (2, 0x60000001, true, false) ∧
    (after 0x60000001#32 { regs [[0xA5]] with outFail := some 0 }).nwrites = 1 ∧
    (after 0x60000000#32 { regs [[0xA5]] with outFail := some 0 }).nwrites = 0 := by decide +kernel
/-- `DBG B0` in test mode (P5 command 3) and in normal mode (V-FLT-1). -/
theorem test_dbg : (after 0x64000000#32 { regs [[0xDE, 0xAD, 0xBE, 0xEF]] with test := true }).out =
    pad8 [0xDE, 0xAD, 0xBE, 0xEF] ∧
    faultOf (after 0x64000000#32 (regs [[0xDE]])) = (4, 0x64000000, true, false) := by decide +kernel
/-- `DBG KEY` (P5 command 7). -/
theorem test_dbg_key : (after 0x64000001#32 { keyed [] [] with test := true }).out = standIn := by decide +kernel
/-- `PERM B0, IP` (V-PERM-1) and `PERM B0, PC1` (V-PERM-3). -/
theorem test_perm : shown 0 (after 0x80000000#32 (regs [theBlock])) =
    some [0xCC, 0x00, 0xCC, 0xFF, 0xF0, 0xAA, 0xF0, 0xAA] ∧
    shown 0 (after 0x80000002#32 (regs [theKey])) = some (pad8 [0xF0, 0xCC, 0xAA, 0xF5, 0x56, 0x67, 0x8F]) := by decide +kernel
/-- `PERM B0, PC2` (V-PERM-8), `PERM B0, E` (V-PERM-5b), `PERM B0, P` (V-PERM-6). -/
theorem test_perm_narrow : shown 0 (after 0x80000003#32 (regs [List.replicate 8 0xFF])) = some (pad8 (List.replicate 6 0xFF)) ∧
    shown 0 (after 0x80000004#32 (regs [[0x80, 0x00, 0x00, 0x01]])) = some (pad8 [0xC0, 0x00, 0x00, 0x00, 0x00, 0x03]) ∧
    shown 0 (after 0x80000005#32 (regs [[0x5C, 0x82, 0xB5, 0x97]])) = some (pad8 [0x23, 0x4A, 0xA9, 0xBB]) := by decide +kernel
/-- `SBOX B0, S1, 13, 1` (V-SUB-2.1) and `SBOX B0, S7, 15, 3` (V-SUB-2.7). -/
theorem test_sbox : shown 0 (after 0x840000E8#32 (regs [List.replicate 8 0xFF])) = some (pad8 [0x50]) ∧
    shown 0 (after 0x840001FE#32 (regs [[0xAA]])) = some (pad8 [0xC0]) := by decide +kernel
/-- `SUB6` of `6F` by `S1` (V-SUB-1.2), of `84` by `S5` (V-SUB-1.7), of `A8` by `S3` (V-SUB-1.9). -/
theorem test_sub6 : shown 0 (after 0x88000000#32 (regs [[0x6F]])) = some (pad8 [0x50]) ∧
    shown 0 (after 0x88000004#32 (regs [[0x84]])) = some (pad8 [0xB0]) ∧
    shown 0 (after 0x88000002#32 (regs [[0xA8]])) = some (pad8 [0xF0]) := by decide +kernel
/-- `KSE B1, B0, 0` (V-KS-1 row 0) and round 2 from the state of row 1. -/
theorem test_kse : (shown 0 (after 0xA0800000#32 (regs [theKey])), shown 1 (after 0xA0800000#32 (regs [theKey]))) =
    (some (pad8 [0xE1, 0x99, 0x55, 0xFA, 0xAC, 0xCF, 0x1E]), some (pad8 [0x1B, 0x02, 0xEF, 0xFC, 0x70, 0x72])) := by decide +kernel
theorem test_kse_two : shown 1 (after 0xA0800002#32 (regs [[0xC3, 0x32, 0xAB, 0xF5, 0x59, 0x9E, 0x3D]])) =
    some (pad8 [0x55, 0xFC, 0x8A, 0x42, 0xCF, 0x99]) := by decide +kernel
/-- `KSD B1, B0, 0` (V-KS-2 row 0) and round 1 from its state. -/
theorem test_ksd : (shown 0 (after 0xA4800000#32 (regs [theKey])), shown 1 (after 0xA4800000#32 (regs [theKey]))) =
    (some (pad8 [0xF0, 0xCC, 0xAA, 0xF5, 0x56, 0x67, 0x8F]), some (pad8 [0xCB, 0x3D, 0x8B, 0x0E, 0x17, 0xF5])) := by decide +kernel
theorem test_ksd_one : (shown 0 (after 0xA4800001#32 (regs [[0xF0, 0xCC, 0xAA, 0xF5, 0x56, 0x67, 0x8F]])),
    shown 1 (after 0xA4800001#32 (regs [[0xF0, 0xCC, 0xAA, 0xF5, 0x56, 0x67, 0x8F]]))) =
    (some (pad8 [0xF8, 0x66, 0x55, 0x7A, 0xAB, 0x33, 0xC7]), some (pad8 [0xBF, 0x91, 0x8D, 0x3D, 0x3F, 0x0A])) := by decide +kernel
/-- `FFN B2, B0, B1` (V-F-1, V-F-2 row 3: the positions above are not read). -/
theorem test_ffn : shown 2 (after 0xA9020000#32 (regs [[0xF0, 0xAA, 0xF0, 0xAA, 0xFF, 0xFF, 0xFF, 0xFF],
    [0x1B, 0x02, 0xEF, 0xFC, 0x70, 0x72, 0xFF, 0xFF]])) = some (pad8 [0x23, 0x4A, 0xA9, 0xBB]) := by decide +kernel
/-- `FFN B0, B0, B1` (V-F-2 row 5). -/
theorem test_ffn_same : faultOf (after 0xA8020000#32 (regs [[0xF0], [0x1B]])) = (1, 0xA8020000, true, false) := by decide +kernel
/-- `ENCB B2, B0, B1` (V-ENC-1) and `rs = rt` (V-ENC-4 row 1). -/
theorem test_encb : shown 2 (after 0xAD020000#32 (regs [theBlock, theKey])) =
    some [0x85, 0xE8, 0x13, 0x54, 0x0F, 0x0A, 0xB4, 0x05] := by decide +kernel
theorem test_encb_self : shown 2 (after 0xAD000000#32 (regs [theKey])) =
    some [0x78, 0x7B, 0x78, 0x7D, 0x86, 0xC3, 0xA0, 0xFC] := by decide +kernel
/-- `DECB B2, B0, B1` of the ciphertext (V-ENC-2) and of the block itself (V-ENC-3 row 1). -/
theorem test_decb : shown 2 (after 0xB1020000#32 (regs [[0x85, 0xE8, 0x13, 0x54, 0x0F, 0x0A, 0xB4, 0x05], theKey])) =
    some theBlock := by decide +kernel
theorem test_decb_plain : shown 2 (after 0xB1020000#32 (regs [theBlock, theKey])) =
    some [0xEE, 0x0F, 0x7C, 0x12, 0xE0, 0xB0, 0x93, 0x38] := by decide +kernel
/-- `LDK 9` keeps eight bytes and records nine (V-KEY-1 row 3). -/
theorem test_ldk : (after 0xC0000009#32 { State.reset with inq := items (standIn ++ [0x39]) ++ [.eos] }).key =
    { isOpen := true, len := 9, v := fromBytes .msbFirst standIn } ∧
    (after 0xC0000009#32 { State.reset with inq := items (standIn ++ [0x39]) ++ [.eos] }).inq = [.eos] := by decide +kernel
/-- Three bytes and no `eos`: a stall, nothing consumed (V-KEY-1 row 7). -/
theorem test_ldk_stall : faultOf (after 0xC0000008#32 { State.reset with inq := items [0x70, 0x61, 0x73] }) = (0, 0, false, true) ∧
    (after 0xC0000008#32 { State.reset with inq := items [0x70, 0x61, 0x73] }).inq = items [0x70, 0x61, 0x73] := by decide +kernel
/-- `KCLOSE` (V-KEY-1 row 5). -/
theorem test_kclose : (after 0xC4000000#32 (keyed [] [])).key = { isOpen := false, len := 0, v := 0 } := by decide +kernel

/-- `ENCS` with no key is `E_ARG` (V-KEY-1 last row). -/
theorem test_encs_no_key : faultOf (after 0xC8000000#32 State.reset) = (1, 0xC8000000, true, false) := by decide +kernel

/-- `ENCS` in `S_EBLK`, the message "abc" and its end before it: the last block of V-CBC-2. -/
theorem test_encs_last : (match exec .encs { keyed (items [0x61, 0x62, 0x63] ++ [.eos]) [] with
      cip := 0xC8000000, status := { busy := true, halt := false }
      stream := { StreamRegs.zero with chain := fromBytes .msbFirst theDraw.toList, sst := .eblk } } with
    | .next t => (t.out, t.stream, t.status.busy)
    | .fault _ => ([], StreamRegs.zero, true)
    | .refused _ => ([], StreamRegs.zero, true)) =
    ([0x97, 0xE6, 0xAA, 0x93, 0x4F, 0xCF, 0x99, 0x4D], StreamRegs.zero, false) := by decide +kernel

/-- `DECS` in `S_DBLK`, the block of V-CBC-2 in `CUR` and `eos` before it: "abc" is written (P3 part 2). -/
theorem test_decs_last : (match exec .decs { keyed [.eos] [] with
      cip := 0xCC000000, status := { busy := true, halt := false }
      stream := { StreamRegs.zero with
        chain := fromBytes .msbFirst theDraw.toList
        cur := fromBytes .msbFirst [0x97, 0xE6, 0xAA, 0x93, 0x4F, 0xCF, 0x99, 0x4D], curn := 8, sst := .dblk } } with
    | .next t => (t.out, t.stream, t.status.busy)
    | .fault _ => ([], StreamRegs.zero, true)
    | .refused _ => ([], StreamRegs.zero, true)) =
    ([0x61, 0x62, 0x63], StreamRegs.zero, false) := by decide +kernel

/-- A fragment met by the look-ahead read writes nothing (V-FLT-4 row 14). -/
theorem test_decs_fragment : (match exec .decs { keyed (items [0x76, 0xB5, 0x09, 0x2B] ++ [.eos]) [] with
      cip := 0xCC000000, status := { busy := true, halt := false }
      stream := { StreamRegs.zero with sst := .dblk } } with
    | .next t => (t.out, faultOf t)
    | .fault _ => ([], faultOf State.reset)
    | .refused _ => ([], faultOf State.reset)) = ([], (6, 0xCC000000, true, false)) := by decide +kernel

/-- `Unpad` of the blocks of V-CBC-2, V-CBC-6, V-CBC-10, V-CBC-11 and V-CBC-13. -/
theorem test_unpad : unpad 8 [0x61, 0x62, 0x63, 5, 5, 5, 5, 5] = [0x61, 0x62, 0x63] ∧
    unpad 8 [7, 7, 7, 7, 7, 7, 7, 7] = [7, 7, 7, 7, 7, 7, 7, 7] ∧
    unpad 8 [0x41, 0x41, 0x41, 0x41, 0x41, 0x41, 2, 2] = [0x41, 0x41, 0x41, 0x41, 0x41, 0x41] ∧
    unpad 8 [0x41, 0x41, 0x41, 0x41, 0x41, 2, 2, 2] = [0x41, 0x41, 0x41, 0x41, 0x41, 2, 2, 2] ∧
    unpad 8 [8, 8, 8, 8, 8, 8, 8, 8] = [8, 8, 8, 8, 8, 8, 8, 8] := by decide +kernel

/-- The placed word is run by the very next step, from reset. -/
theorem test_with_fetch_word : (match step (State.reset.withFetchWord 32 0x04000000) with
    | .next t => t.bufs[0]
    | .fault _ => BufReg.closed
    | .refused _ => BufReg.closed) = { isOpen := true, v := 0 } := by decide +kernel

/-- The byte lane order is the build's: under `LSB_FIRST` the byte `01` sets position 0 (20_memory.md R53). -/
theorem test_build_lsb_first : (match execOn { Build.des with bitOrder := .lsbFirst } (.ldb 0 1)
      { State.reset with inq := [InItem.byte 0x01] } with
    | .next t => t.bufs[0].v
    | .fault _ => 0
    | .refused _ => 0) = 1 := by decide +kernel

/-- The round count is the build's: with no rounds the block passes `IP`, the swap of its halves and `FP` (44_feistel.md R162),
and a second pass undoes the first. -/
theorem test_build_no_rounds :
    encryptBlock { Build.des with nRounds := 0 } (encryptBlock { Build.des with nRounds := 0 } 0x0123456789ABCDEF 0) 0 =
      0x0123456789ABCDEF := by decide +kernel

/-! ## Witnesses: each theorem meets the hypotheses of the obligation it is named after, clause by clause -/

/-- Registers `B0 .. B7` all open. -/
def allOpen : State := regs [[0x01], [0x02], [0x03], [0x04], [0x05], [0x06], [0x07], [0x08]]

/-- `allOpen` with a reset asserted; in test mode; with its first write failed; halted. -/
def resetting : State := { allOpen with resetPin := true }
def testing : State := { allOpen with test := true }
def failing : State := { allOpen with outFail := some 0 }
def halted : State := { allOpen with status := { busy := false, halt := true }, fcode := 1, fcmd := 0x5C800000 }

/-- A stream command in progress, in the stream state `x`. -/
def streaming (w : CmdWord) (x : Sst) (q : List InItem) (draws : List Draw) : State :=
  { keyed q draws with
    cip := w
    status := { busy := true, halt := false }
    stream := { StreamRegs.zero with sst := x } }

theorem witness_StepRunsDecodedCommand :
    (allOpen.resetPin = false ∧ allOpen.status.halt = false) ∧
    ({ allOpen with cmd := [0x14000000] }.status.busy = false ∧ { allOpen with cmd := [0x14000000] }.cmd = 0x14000000 :: [] ∧
      decode 0x14000000 = .ok (.clr 0)) ∧
    ((streaming 0xC8000000 .eiv [] []).status.busy = true ∧ (streaming 0xC8000000 .eiv [] []).resetPin = false ∧
      (streaming 0xC8000000 .eiv [] []).status.halt = false ∧
      decode (streaming 0xC8000000 .eiv [] []).cip = .ok .encs) ∧
    (allOpen.status.busy = false ∧ allOpen.cmd = []) := by decide

theorem witness_IllegalWordsFault : { allOpen with cmd := [0x08000009] }.Ready ∧
    { allOpen with cmd := [0x08000009] }.cmd = 0x08000009 :: [] ∧ decode 0x08000009 = .error .fieldRange := by
  unfold State.Ready
  decide

theorem witness_DecodeOfEncode : (Instr.ovw 7 7 63 63 64).wellFormed = true ∧ (Instr.ldb 7 8).wellFormed = true ∧
    (Instr.dbg 0 true).wellFormed = true := by decide

theorem witness_EncodeOfDecode : decode 0x08000008 = .ok (.ldb 0 8) := by decide

theorem witness_WordSelectsOneCommand :
    0x48A00000#32 &&& Opcode.xor.maskWord = Opcode.xor.matchWord ∧ decode 0x48A00000 = .ok (.xor 1 2) := by decide

theorem witness_ResetEndsEverything : resetting.resetPin = true ∧ 0 < Build.des.nRounds ∧ 0 < Build.des.blockBits := by decide

theorem witness_ConstructionCheck :
    ({ Build.des with nRounds := 0 }.nRounds ≤ 0) ∧ ({ Build.des with blockBits := -1 }.blockBits ≤ 0) ∧
    (0 < { Build.des with nRounds := 1, blockBits := 1 }.nRounds ∧
      0 < { Build.des with nRounds := 1, blockBits := 1 }.blockBits) := by decide

theorem witness_FaultsArePrecise : allOpen.resetPin = false ∧ allOpen.status.halt = false ∧
    step { allOpen with cmd := [0x00000000] } = .next ({ allOpen with cmd := [], cip := 0 }.faulted 4) ∧
    ({ allOpen with cmd := [], cip := 0 }.faulted 4).status.halt = true :=
  ⟨by decide, by decide, rfl, by decide⟩

theorem witness_HaltIgnoresWords : halted.status.halt = true ∧ halted.resetPin = false ∧
    (streaming 0xC8000000 .eiv [] []).status.busy = true := by decide

theorem witness_StallWaits : readFully (1#4).toNat State.reset.inq = .starved ∧
    readFully (15#4).toNat State.reset.inq = .starved ∧
    ((streaming 0xC8000000 .eiv [] []).stream.sst = .eiv ∧ (streaming 0xC8000000 .eiv [] []).rng = []) ∧
    ((streaming 0xC8000000 .eblk (items [1, 2, 3, 4, 5, 6, 7]) []).stream.sst = .eblk ∧
      readFully 8 (streaming 0xC8000000 .eblk (items [1, 2, 3, 4, 5, 6, 7]) []).inq = .starved) ∧
    ((streaming 0xCC000000 .dblk [] []).stream.sst ∈ [Sst.div, .dfirst, .dblk] ∧
      readFully 8 (streaming 0xCC000000 .dblk [] []).inq = .starved) := by decide

/-- The missing bytes arrive: `LDB` of 8 and of 1, `LDK` of 15, a block of which 7 bytes or none were there, the draw. -/
theorem witness_StallWaits_supplied (x : Sst) :
    (([1, 2, 3, 4, 5, 6, 7] : List Byte).length + ([8] : List Byte).length = (8#4).toNat ∧ (8#4).toNat ≤ 8 ∧
      { allOpen with inq := items [1, 2, 3, 4, 5, 6, 7] }.inq = ([1, 2, 3, 4, 5, 6, 7] : List Byte).map InItem.byte) ∧
    (([] : List Byte).length + ([8] : List Byte).length = (1#4).toNat ∧
      allOpen.inq = ([] : List Byte).map InItem.byte) ∧
    (theBlock.length + ([1, 2, 3, 4, 5, 6, 7] : List Byte).length = (15#4).toNat ∧
      { allOpen with inq := items theBlock }.inq = theBlock.map InItem.byte) ∧
    (([] : List Byte).length + theBlock.length = 8 ∧ (streaming 0xC8000000 x [] []).stream.sst = x ∧
      (streaming 0xC8000000 x [] []).WriteOk ∧ (streaming 0xC8000000 x [] []).inq = ([] : List Byte).map InItem.byte ∧
      (streaming 0xC8000000 x [] []).rng = []) :=
  ⟨by decide, by decide, by decide, by decide, rfl, (fun e => nomatch e), rfl, rfl⟩

theorem witness_ModeGatesDbgOnly : exec (.new 0) allOpen = .next (allOpen.afterBuf 0 0) ∧
    (∀ rs sel, Instr.new 0 ≠ .dbg rs sel) ∧ allOpen.test = false := ⟨rfl, by intros; simp, by decide⟩

theorem witness_KeyHiddenInNormalMode : allOpen.test = false ∧ (∀ n, Instr.new 0 ≠ .ldk n) ∧ Instr.new 0 ≠ .kclose ∧
    Instr.new 0 ≠ .encs ∧ Instr.new 0 ≠ .decs ∧ exec (.new 0) allOpen = .next (allOpen.afterBuf 0 0) :=
  ⟨by decide, by intros; simp, by simp, by simp, by simp, rfl⟩

/-- The invariant holds at reset and in a state with a stream in progress. -/
theorem witness_StepKeepsInv : State.reset.Inv ∧ (streaming 0xC8000000 .eblk [] []).Inv ∧
    step State.reset = .next State.reset := by
  refine ⟨?_, ?_, rfl⟩ <;> constructor <;> decide

/-- This hardware's build fits, and so does the smallest one; the latter takes a step. -/
theorem witness_StepKeepsInv_builds : Build.des.Fits ∧ { Build.des with nRounds := 1, blockBits := 8 }.Fits ∧
    stepOn { Build.des with nRounds := 1, blockBits := 8 } State.reset = .next State.reset := by
  refine ⟨Build.fits_des, ?_, rfl⟩
  unfold Build.Fits
  decide

theorem witness_ClosedRegistersAreZero :
    (∀ r : Reg, (regs [[1]]).bufs[r].isOpen = false → (regs [[1]]).bufs[r].v = 0) ∧
    step (regs [[1]]) = .next (regs [[1]]) ∧ (regs [[1]]).bufs[(7 : Reg)].isOpen = false ∧
    exec (.close 0) (regs [[1]]) = .next ((regs [[1]]).closeBuf 0).complete ∧
    (regs [[1]]).bufs[(0 : Reg)].isOpen = true ∧ ((regs [[1]]).closeBuf 0).complete.bufs[(0 : Reg)].isOpen = false :=
  ⟨by decide, rfl, by decide, rfl, by decide, by decide⟩

theorem witness_OnlyOperandsWritten : exec (.new 0) allOpen = .next (allOpen.afterBuf 0 0) ∧ (1 : Reg) ∉ (Instr.new 0).writes ∧
    execOn Build.des (.new 0) allOpen = .next (allOpen.afterBuf 0 0) ∧ Build.des.Fits :=
  ⟨rfl, by decide, rfl, Build.fits_des⟩

theorem witness_KeyAndResWriters : exec (.new 0) allOpen = .next (allOpen.afterBuf 0 0) ∧ (∀ n, Instr.new 0 ≠ .ldk n) ∧
    Instr.new 0 ≠ .kclose ∧ (∀ rd p, Instr.new 0 ≠ .getb rd p) ∧ (∀ rd, Instr.new 0 ≠ .len rd) ∧
    exec (.getb 0 63) State.reset = .next (State.reset.faulted 1) ∧ exec (.len 7) State.reset = .next (State.reset.faulted 1) :=
  ⟨rfl, by intros; simp, by simp, by intros; simp, by intros; simp, rfl, rfl⟩

theorem witness_PortsMoveForward : exec (.new 0) allOpen = .next (allOpen.afterBuf 0 0) ∧
    ((∀ rd n, Instr.new 0 ≠ .ldb rd n) ∧ (∀ n, Instr.new 0 ≠ .ldk n) ∧ (∀ rs n, Instr.new 0 ≠ .stb rs n) ∧
      (∀ rs sel, Instr.new 0 ≠ .dbg rs sel) ∧ Instr.new 0 ≠ .encs ∧ Instr.new 0 ≠ .decs) ∧
    exec .decs (streaming 0xCC000000 .dblk [] []) = .next (streaming 0xCC000000 .dblk [] []) ∧
    (streaming 0xCC000000 .dblk [] []).stream.sst ≠ .eiv :=
  ⟨rfl, ⟨by intros; simp, by intros; simp, by intros; simp, by intros; simp, by simp, by simp⟩, rfl, by decide⟩

theorem witness_ClosedOperandFaults : (7 : Reg) ∈ (Instr.ffn 0 1 7).reads ∧ State.reset.bufs[(7 : Reg)].isOpen = false := by decide

theorem witness_NewClrCloseCommands : allOpen.bufs[(7 : Reg)].isOpen = true ∧ State.reset.bufs[(7 : Reg)].isOpen = false := by decide

/-- The counts 0 and 8, each outcome of the read. -/
theorem witness_LdbCommand : (0#4).toNat ≤ 8 ∧ (8#4).toNat ≤ 8 ∧
    (theBlock.length = (8#4).toNat ∧ { allOpen with inq := items theBlock ++ [InItem.eos] }.inq = theBlock.map .byte ++ [InItem.eos]) ∧
    (([] : List Byte).length = (0#4).toNat ∧ allOpen.inq = ([] : List Byte).map InItem.byte ++ []) ∧
    (([] : List Byte).length < (8#4).toNat ∧ { allOpen with inq := [InItem.eos] }.inq = ([] : List Byte).map .byte ++ InItem.eos :: []) ∧
    (([1, 2, 3, 4, 5, 6, 7] : List Byte).length < (8#4).toNat ∧ { allOpen with inq := items [1, 2, 3, 4, 5, 6, 7] ++ [InItem.err] }.inq =
      ([1, 2, 3, 4, 5, 6, 7] : List Byte).map .byte ++ InItem.err :: []) ∧
    (([] : List Byte).length < (1#4).toNat ∧ allOpen.inq = ([] : List Byte).map InItem.byte) := by decide

theorem witness_CloneCopyCommands : allOpen.bufs[(7 : Reg)].isOpen = true ∧ allOpen.bufs[(0 : Reg)].isOpen = true ∧
    (regs [[1]]).bufs[(0 : Reg)].isOpen = true ∧ (regs [[1]]).bufs[(7 : Reg)].isOpen = false := by decide

theorem witness_SingleBitCommands : allOpen.bufs[(7 : Reg)].isOpen = true := by decide

theorem witness_ResultCommands : allOpen.bufs[(0 : Reg)].isOpen = true := by decide

/-- The whole range, the empty range at the top, and the narrowest reversed range. -/
theorem witness_RangeCommands : allOpen.bufs[(0 : Reg)].isOpen = true ∧ (0#7).toNat ≤ (64#7).toNat ∧
    (64#7).toNat ≤ (64#7).toNat ∧ (63#7).toNat < (64#7).toNat := by decide

theorem witness_GetrCommand : allOpen.bufs[(1 : Reg)].isOpen = true ∧ (64#7).toNat ≤ (64#7).toNat ∧
    (0#7).toNat < (1#7).toNat := by decide

theorem witness_LogicCommands : allOpen.bufs[(0 : Reg)].isOpen = true ∧ allOpen.bufs[(7 : Reg)].isOpen = true := by decide

/-- The last range that fits and the first that does not. -/
theorem witness_OvwCommand : allOpen.bufs[(0 : Reg)].isOpen = true ∧ allOpen.bufs[(1 : Reg)].isOpen = true ∧
    (63#6).toNat + (1#7).toNat ≤ 64 ∧ 64 < (63#6).toNat + (2#7).toNat := by decide

/-- `n = ring` at 0 and at 64, and the smallest `n > ring`. -/
theorem witness_RotateCommands : allOpen.bufs[(0 : Reg)].isOpen = true ∧ ((0#7).toNat ≤ (0#7).toNat ∧ (0#7).toNat ≤ 64) ∧
    ((64#7).toNat ≤ (64#7).toNat ∧ (64#7).toNat ≤ 64) ∧ (0#7).toNat < (1#7).toNat := by decide

theorem witness_RotateInverse : allOpen.bufs[(0 : Reg)].isOpen = true ∧ (64#7).toNat ≤ (64#7).toNat ∧ (64#7).toNat ≤ 64 := by decide

theorem witness_StbCommand : allOpen.bufs[(0 : Reg)].isOpen = true ∧ (0#4).toNat = 0 ∧
    (0 < (15#4).toNat ∧ allOpen.WriteOk) ∧
    (failing.bufs[(0 : Reg)].isOpen = true ∧ 0 < (1#4).toNat ∧ failing.outFail = some failing.nwrites) := by
  unfold State.WriteOk
  decide

theorem witness_DbgCommand : (true = true → (0 : Reg) = 0) ∧ (false = true → (7 : Reg) = 0) ∧
    (testing.test = true ∧ testing.WriteOk) ∧
    ({ testing with outFail := some 0 }.test = true ∧ { testing with outFail := some 0 }.outFail = some testing.nwrites) ∧
    allOpen.test = false := by
  unfold State.WriteOk
  decide

theorem witness_ByteConversions : theBlock.length ≤ 8 ∧ (15 : Nat) ≤ 15 := by decide

/-- A read of 8, with each of its four outcomes at the last byte. -/
theorem witness_InReadRule :
    (theBlock.length = 8 ∧ { allOpen with inq := items theBlock }.inq = theBlock.map .byte ++ []) ∧
    (([1, 2, 3, 4, 5, 6, 7] : List Byte).length < 8 ∧ { allOpen with inq := items [1, 2, 3, 4, 5, 6, 7] ++ [InItem.eos] }.inq =
      ([1, 2, 3, 4, 5, 6, 7] : List Byte).map .byte ++ InItem.eos :: []) ∧
    (([] : List Byte).length < 1 ∧ { allOpen with inq := [InItem.err] }.inq = ([] : List Byte).map .byte ++ InItem.err :: []) ∧
    (([1, 2, 3, 4, 5, 6, 7] : List Byte).length < 8 ∧ { allOpen with inq := items [1, 2, 3, 4, 5, 6, 7] }.inq =
      ([1, 2, 3, 4, 5, 6, 7] : List Byte).map .byte) := by decide

theorem witness_OutWriteRule : (([0] : List Byte) ≠ [] ∧ allOpen.outFail ≠ some allOpen.nwrites) ∧
    failing.outFail = some failing.nwrites := by decide

theorem witness_PermCommand : allOpen.bufs[(7 : Reg)].isOpen = true := by decide

theorem witness_SubstitutionCommands : allOpen.bufs[(7 : Reg)].isOpen = true := by decide

theorem witness_KseCommand : allOpen.bufs[(0 : Reg)].isOpen = true ∧ (1 : Reg) ≠ 0 ∧ (0#4).toNat = 0 ∧ (15#4).toNat ≠ 0 := by decide

theorem witness_KsdCommand : allOpen.bufs[(0 : Reg)].isOpen = true ∧ (1 : Reg) ≠ 0 ∧ (0#4).toNat = 0 ∧ (15#4).toNat ≠ 0 := by decide

/-- The two schedules of a key, run in order. -/
def forward (key : Buf) : Nat → Buf
  | 0 => (roundKey Rom.des key 0).1
  | r + 1 => (roundKey Rom.des (forward key r) (r + 1)).1
def backward (key : Buf) : Nat → Buf
  | 0 => (roundKeyDecrypt Rom.des key 0).1
  | r + 1 => (roundKeyDecrypt Rom.des (backward key r) (r + 1)).1

theorem witness_KeyScheduleSymmetry (key : Buf) :
    (∀ r, r < 16 → (forward key r, (roundKey Rom.des (if r = 0 then key else forward key (r - 1)) r).2) =
      roundKey Rom.des (if r = 0 then key else forward key (r - 1)) r) ∧
    (∀ r, r < 16 → (backward key r, (roundKeyDecrypt Rom.des (if r = 0 then key else backward key (r - 1)) r).2) =
      roundKeyDecrypt Rom.des (if r = 0 then key else backward key (r - 1)) r) := by
  constructor <;> intro r _ <;> cases r <;> rfl

theorem witness_FfnCommand : allOpen.bufs[(1 : Reg)].isOpen = true ∧ allOpen.bufs[(7 : Reg)].isOpen = true ∧
    ((0 : Reg) ≠ 1 ∧ (0 : Reg) ≠ 7) ∧ ((1 : Reg) = 1 ∨ (1 : Reg) = 7) := by decide

theorem witness_BlockCommands : allOpen.bufs[(1 : Reg)].isOpen = true ∧ allOpen.bufs[(7 : Reg)].isOpen = true ∧
    ((0 : Reg) ≠ 1 ∧ (0 : Reg) ≠ 7) ∧ ((7 : Reg) = 1 ∨ (7 : Reg) = 7) := by decide

/-- This hardware's tables and the key of V-ENC-3 row 1. -/
theorem witness_BlockRoundTrip : Build.des.blockBits = 64 ∧ Build.des.nRounds ≤ 32 ∧ Build.des.tables.ip.length = 64 ∧
    Build.des.tables.fp.length = 64 ∧
    (∀ i, i < 64 → Build.des.tables.ip.getD i 0 < 64 ∧ Build.des.tables.fp.getD i 0 < 64 ∧
      Build.des.tables.fp.getD (Build.des.tables.ip.getD i 0) 0 = i ∧
      Build.des.tables.ip.getD (Build.des.tables.fp.getD i 0) 0 = i) ∧
    (∀ r, r < Build.des.rounds → (scheduled (roundKeyDecrypt Build.des.tables) (fromBytes .msbFirst theKey) r).2 =
      (scheduled (roundKey Build.des.tables) (fromBytes .msbFirst theKey) (Build.des.rounds - 1 - r)).2) := by
  decide +kernel

/-- The keys of V-ENC-3 rows 1 and 7. -/
theorem witness_ParityHasNoEffect : ∀ p, p < 64 → p % 8 ≠ 7 → (fromBytes .msbFirst theKey).getLsbD p =
    (fromBytes .msbFirst [0x12, 0x34, 0x56, 0x78, 0x9A, 0xBC, 0xDE, 0xF0]).getLsbD p := by decide +kernel

/-- The counts 0 and 15, each outcome of the read. -/
theorem witness_KeyCommands :
    (([] : List Byte).length = (0#4).toNat ∧ allOpen.inq = ([] : List Byte).map InItem.byte ++ []) ∧
    ((theBlock ++ [1, 2, 3, 4, 5, 6, 7]).length = (15#4).toNat ∧
      { allOpen with inq := items (theBlock ++ [1, 2, 3, 4, 5, 6, 7]) ++ [InItem.eos] }.inq =
        (theBlock ++ [1, 2, 3, 4, 5, 6, 7]).map .byte ++ [InItem.eos]) ∧
    (([] : List Byte).length < (8#4).toNat ∧ { allOpen with inq := [InItem.eos] }.inq = ([] : List Byte).map .byte ++ InItem.eos :: []) ∧
    (([0x70, 0x61, 0x73] : List Byte).length < (8#4).toNat ∧ { allOpen with inq := items [0x70, 0x61, 0x73] ++ [InItem.err] }.inq =
      ([0x70, 0x61, 0x73] : List Byte).map .byte ++ InItem.err :: []) ∧
    (([] : List Byte).length < (1#4).toNat ∧ allOpen.inq = ([] : List Byte).map InItem.byte) := by decide

/-- The key of eight bytes; closed; one byte short; one byte long. -/
theorem witness_StreamKeyCheck : (keyed [] []).stream.sst = .idle ∧
    ((keyed [] []).key.isOpen = true ∧ (keyed [] []).key.len = 8#4) ∧ State.reset.key.isOpen = false ∧
    { keyed [] [] with key := { isOpen := true, len := 7, v := 0 } }.key.len ≠ 8#4 ∧
    { keyed [] [] with key := { isOpen := true, len := 9, v := 0 } }.key.len ≠ 8#4 := by decide

theorem witness_EncsInitialVector :
    ((streaming 0xC8000000 .eiv [] [theDraw]).stream.sst = .eiv ∧
      (streaming 0xC8000000 .eiv [] [theDraw]).rng = theDraw :: [] ∧ (streaming 0xC8000000 .eiv [] [theDraw]).WriteOk) ∧
    ({ streaming 0xC8000000 .eiv [] [theDraw] with outFail := some 0 }.outFail =
      some (streaming 0xC8000000 .eiv [] [theDraw]).nwrites) ∧
    (streaming 0xC8000000 .eiv [] []).rng = [] := by
  unfold State.WriteOk
  decide

/-- A full block, the shortest and the longest short block, the empty read, an `err` and a stall. -/
theorem witness_EncsBlockStep (x : State) (hx : x = streaming 0xC8000000 .eblk [] []) :
    x.stream.sst = .eblk ∧ x.WriteOk ∧ { x with outFail := some 0 }.outFail = some x.nwrites ∧
    (theBlock.length = 8 ∧ { x with inq := items theBlock }.inq = theBlock.map .byte ++ []) ∧
    (0 < ([1] : List Byte).length ∧ ([1] : List Byte).length < 8 ∧
      { x with inq := items [1] ++ [InItem.eos] }.inq = ([1] : List Byte).map .byte ++ InItem.eos :: []) ∧
    (0 < ([1, 2, 3, 4, 5, 6, 7] : List Byte).length ∧ ([1, 2, 3, 4, 5, 6, 7] : List Byte).length < 8 ∧
      { x with inq := items [1, 2, 3, 4, 5, 6, 7] ++ [InItem.eos] }.inq =
        ([1, 2, 3, 4, 5, 6, 7] : List Byte).map .byte ++ InItem.eos :: []) ∧
    { x with inq := [InItem.eos] }.inq = InItem.eos :: [] ∧
    (([] : List Byte).length < 8 ∧ { x with inq := [InItem.err] }.inq = ([] : List Byte).map .byte ++ InItem.err :: []) ∧
    (([] : List Byte).length < 8 ∧ x.inq = ([] : List Byte).map InItem.byte) := by
  subst hx
  unfold State.WriteOk
  decide

theorem witness_DecsOpeningSteps (x y : State) (hx : x = streaming 0xCC000000 .div [] [])
    (hy : y = streaming 0xCC000000 .dfirst [] []) :
    (x.stream.sst = .div ∨ x.stream.sst = .dfirst) ∧ (y.stream.sst = .div ∨ y.stream.sst = .dfirst) ∧
    (theBlock.length = 8 ∧ { x with inq := items theBlock }.inq = theBlock.map .byte ++ []) ∧
    { y with inq := [InItem.eos] }.inq = InItem.eos :: [] ∧
    (0 < ([1] : List Byte).length ∧ ([1] : List Byte).length < 8 ∧
      { x with inq := items [1] ++ [InItem.eos] }.inq = ([1] : List Byte).map .byte ++ InItem.eos :: []) ∧
    (([] : List Byte).length < 8 ∧ { y with inq := [InItem.err] }.inq = ([] : List Byte).map .byte ++ InItem.err :: []) ∧
    (([] : List Byte).length < 8 ∧ x.inq = ([] : List Byte).map InItem.byte) := by
  subst hx hy
  decide

theorem witness_DecsBlockStep (x : State) (hx : x = streaming 0xCC000000 .dblk [] []) :
    x.stream.sst = .dblk ∧ x.WriteOk ∧ { x with outFail := some 0 }.outFail = some x.nwrites ∧
    (∃ p, Renders p (decryptBlock Build.des x.stream.cur x.key.v ^^^ x.stream.chain) 8) ∧
    (theBlock.length = 8 ∧ { x with inq := items theBlock }.inq = theBlock.map .byte ++ []) ∧
    { x with inq := [InItem.eos] }.inq = InItem.eos :: [] ∧
    (0 < ([1, 2, 3, 4, 5, 6, 7] : List Byte).length ∧ ([1, 2, 3, 4, 5, 6, 7] : List Byte).length < 8 ∧
      { x with inq := items [1, 2, 3, 4, 5, 6, 7] ++ [InItem.eos] }.inq =
        ([1, 2, 3, 4, 5, 6, 7] : List Byte).map .byte ++ InItem.eos :: []) ∧
    (([] : List Byte).length < 8 ∧ { x with inq := [InItem.err] }.inq = ([] : List Byte).map .byte ++ InItem.err :: []) ∧
    (([] : List Byte).length < 8 ∧ x.inq = ([] : List Byte).map InItem.byte) := by
  have hp : ∀ v : Buf, ∃ p, Renders p v 8 := fun v =>
    ⟨toBytes .msbFirst v 8, by simp, fun j i hj hi => by
      rw [getD_toBytes _ _ _ _ hj]
      exact byteBit_toByte .msbFirst v j i hi⟩
  refine ⟨?_, ?_, ?_, hp _, ?_⟩ <;> subst hx
  · decide
  · unfold State.WriteOk; decide
  · decide
  · decide

/-- The last byte 7 with a run of seven; 1 with a run of one; 0; 8; a run too long; a run too short. -/
theorem witness_UnpadRule :
    (([0, 7, 7, 7, 7, 7, 7, 7] : List Byte).length = 8 ∧ (∀ j, j < 7 → ([0, 7, 7, 7, 7, 7, 7, 7] : List Byte).getD (7 - j) 0 = 7) ∧
      ([0, 7, 7, 7, 7, 7, 7, 7] : List Byte).getD (7 - 7) 0 ≠ 7) ∧
    (1 ≤ (([0, 0, 0, 0, 0, 0, 0, 1] : List Byte).getD 7 0).toNat ∧ ([0, 0, 0, 0, 0, 0, 0, 1] : List Byte).getD (7 - 1) 0 ≠ 1) ∧
    (([1, 1, 1, 1, 1, 1, 1, 0] : List Byte).getD 7 0).toNat = 0 ∧ 8 ≤ (([0, 0, 0, 0, 0, 0, 0, 8] : List Byte).getD 7 0).toNat ∧
    ([0, 0, 0, 0, 0, 2, 2, 2] : List Byte).getD (7 - 2) 0 = 2 ∧
    ¬ (∀ j, j < 2 → ([0, 0, 0, 0, 0, 0, 0, 2] : List Byte).getD (7 - j) 0 = 2) := by decide

/-- The message of V-CBC-4: one whole block and a tail of one byte; and the empty message. -/
theorem witness_EncsWholeStream (x : State)
    (hx : x = { keyed (items (standIn ++ [0x39]) ++ [InItem.eos]) [theDraw] with cmd := [0xC8000000] }) :
    x.Ready ∧ x.stream = StreamRegs.zero ∧ x.round = RoundRegs.zero ∧ x.key.isOpen = true ∧ x.key.len = 8#4 ∧
    x.WritesOk ∧ x.cmd = 0xC8000000#32 :: [] ∧ x.rng = theDraw :: [] ∧ (∀ b ∈ [standIn], b.length = 8) ∧
    ([0x39] : List Byte).length < 8 ∧ x.inq = ([standIn].flatten ++ [0x39]).map InItem.byte ++ InItem.eos :: [] ∧
    { x with inq := [InItem.eos] }.inq = (([] : List (List Byte)).flatten ++ []).map InItem.byte ++ InItem.eos :: [] := by
  have hw : x.WritesOk := by subst hx; intro k _ e; cases e
  refine ⟨?_, ?_, ?_, ?_, ?_, hw, ?_⟩ <;> subst hx
  · unfold State.Ready; decide
  all_goals decide

/-- A stream of the IV and one block, and the IV alone. -/
theorem witness_DecsWholeStream (x : State)
    (hx : x = { keyed (items (theDraw.toList ++ theBlock) ++ [InItem.eos]) [] with cmd := [0xCC000000] }) :
    x.Ready ∧ x.stream = StreamRegs.zero ∧ x.round = RoundRegs.zero ∧ x.key.isOpen = true ∧ x.key.len = 8#4 ∧
    x.WritesOk ∧ x.cmd = 0xCC000000#32 :: [] ∧ theDraw.toList.length = 8 ∧ (∀ b ∈ [theBlock], b.length = 8) ∧
    x.inq = (theDraw.toList ++ [theBlock].flatten).map InItem.byte ++ InItem.eos :: [] ∧
    { x with inq := items theDraw.toList ++ [InItem.eos] }.inq =
      (theDraw.toList ++ ([] : List (List Byte)).flatten).map InItem.byte ++ InItem.eos :: [] := by
  have hw : x.WritesOk := by subst hx; intro k _ e; cases e
  refine ⟨?_, ?_, ?_, ?_, ?_, hw, ?_⟩ <;> subst hx
  · unfold State.Ready; decide
  all_goals decide

/-- The two states of P3: "abc" to encrypt, then a stream to decrypt under the same key. -/
theorem witness_StreamRoundTrip (x y : State) (stream : List Byte)
    (hx : x = { keyed (items [0x61, 0x62, 0x63] ++ [InItem.eos]) [theDraw] with cmd := [0xC8000000] })
    (hy : y = { keyed (items stream ++ [InItem.eos]) [] with cmd := [0xCC000000] }) :
    (x.Ready ∧ x.stream = StreamRegs.zero ∧ x.round = RoundRegs.zero ∧ x.key.isOpen = true ∧ x.key.len = 8#4 ∧
      x.WritesOk ∧ x.cmd = 0xC8000000#32 :: [] ∧ x.rng = theDraw :: [] ∧
      x.inq = ([0x61, 0x62, 0x63] : List Byte).map InItem.byte ++ InItem.eos :: []) ∧
    (y.Ready ∧ y.stream = StreamRegs.zero ∧ y.round = RoundRegs.zero ∧ y.key = x.key ∧ y.WritesOk ∧
      y.cmd = 0xCC000000#32 :: [] ∧ y.inq = stream.map InItem.byte ++ InItem.eos :: []) := by
  have hwx : x.WritesOk := by subst hx; intro k _ e; cases e
  have hwy : y.WritesOk := by subst hy; intro k _ e; cases e
  refine ⟨⟨?_, ?_, ?_, ?_, ?_, hwx, ?_⟩, ⟨?_, ?_, ?_, ?_, hwy, ?_⟩⟩ <;> subst hx hy
  · unfold State.Ready; decide
  · decide
  · decide
  · decide
  · decide
  · decide
  · exact ⟨rfl, rfl, rfl⟩
  · rfl
  · rfl
  · rfl
  · exact ⟨rfl, rfl⟩

/-- The stream of V-CBC-15, its first block the changed one; and a changed block with one before it. -/
theorem witness_ChainingDependency :
    (∀ b ∈ ([] : List (List Byte)) ++ [], b.length = 8) ∧ (∀ b ∈ [theKey] ++ [theKey], b.length = 8) ∧
    ([0xD1, 0xF6, 0x9B, 0xA3, 0x98, 0x4E, 0x13, 0x74] : List Byte).length = 8 ∧
    ([0x64, 0xDC, 0x8D, 0x8A, 0x70, 0xBE, 0xF6, 0xC2] : List Byte).length = 8 ∧
    ([0x72, 0x20, 0x62, 0x30, 0x90, 0xC2, 0x9A, 0x3D] : List Byte).length = 8 := by decide

end Sys2Proof.Tests
end

section
/-! PROOFS. The state of the engine (spec/10_state.md): what the decoder says of the words of the stream commands, what a
command leaves of the registers and the ports, and from these the reset table, the invariant of the machine and the frames over
all commands. -/

namespace Sys2Proof

/-- The operands of an opcode make a command of that opcode (30_encoding.md R71). -/
theorem opcode_of_operands {o : Opcode} {w : CmdWord} {i : Instr} (h : operands o w = some i) : i.opcode = o := by
  cases o
  case perm => obtain ⟨t, -, rfl⟩ := Option.map_eq_some_iff.1 h; rfl
  all_goals cases h; rfl

/-- What a word that decodes holds: its command's code, zeros where its format has none, legal operands (30_encoding.md R75
step 2). -/
theorem decode_fields {w : CmdWord} {i : Instr} (h : decode w = .ok i) :
    opField w = i.opcode.code ∧ w &&& i.opcode.mustBeZero = 0#32 ∧ operands i.opcode w = some i ∧ i.wellFormed = true := by
  unfold decode at h
  split at h
  · cases h
  · next o ho =>
    split at h
    · next hz =>
      split at h
      · cases h
      · next j hj =>
        split at h
        · next hw =>
          cases h
          obtain rfl := opcode_of_operands hj
          exact ⟨(Opcode.code_of_ofCode ho).symm, hz, hj, hw⟩
        · cases h
    · cases h

/-- A word that decodes selects its command (30_encoding.md R74). -/
theorem decode_selects {w : CmdWord} {i : Instr} (h : decode w = .ok i) :
    w &&& i.opcode.maskWord = i.opcode.matchWord := by
  obtain ⟨hop, hz, -, -⟩ := decode_fields h
  refine selects_of_fields hop fun j _ => ?_
  rw [← BitVec.getLsbD_and, hz, BitVec.getLsbD_zero]

/-- A command whose every bit is fixed has one word (30_encoding.md R74). -/
theorem eq_matchWord_of_decode {w : CmdWord} {i : Instr} (hm : i.opcode.maskWord = BitVec.allOnes 32)
    (h : decode w = .ok i) : w = i.opcode.matchWord := by
  rw [← decode_selects h, hm, BitVec.and_allOnes]

/-- `ENCS` has one word (30_encoding.md R73). -/
theorem decode_encs_iff {w : CmdWord} : decode w = .ok .encs ↔ w = 0xC8000000#32 :=
  ⟨eq_matchWord_of_decode (by decide), by rintro rfl; decide⟩

/-- `DECS` has one word (30_encoding.md R73). -/
theorem decode_decs_iff {w : CmdWord} : decode w = .ok .decs ↔ w = 0xCC000000#32 :=
  ⟨eq_matchWord_of_decode (by decide), by rintro rfl; decide⟩

namespace Machine

/-! ## The registers and the ports after a command -/

/-- `t` has the registers and the ports of `u`: how a command ends changes none of them. -/
structure State.SameData (u t : State) : Prop where
  bufs : t.bufs = u.bufs
  key : t.key = u.key
  res : t.res = u.res
  inq : t.inq = u.inq
  out : t.out = u.out
  rng : t.rng = u.rng
  nwrites : t.nwrites = u.nwrites

/-- Whatever a command does, its registers and ports are those of a state it may move to. -/
theorem execOn_moves {B : Build} (hB : B.Fits) {i : Instr} {s t : State} (h : execOn B i s = .next t) :
    ∃ u, Moves i s u ∧ u.SameData t := by
  rcases execOn_cases hB h with rfl | ⟨u, c, m, -, -, -, -, rfl, -⟩ | ⟨-, -, u, m, -, rfl, -⟩ |
    ⟨-, u, m, -, -, -, rfl | ⟨rfl, -⟩⟩ | ⟨-, u, m, -, -, -, rfl | ⟨rfl, -⟩⟩
  · exact ⟨t, Moves.refl i t, ⟨rfl, rfl, rfl, rfl, rfl, rfl, rfl⟩⟩
  all_goals exact ⟨_, m, ⟨rfl, rfl, rfl, rfl, rfl, rfl, rfl⟩⟩

/-- The same on this hardware. -/
theorem exec_moves {i : Instr} {s t : State} (h : exec i s = .next t) : ∃ u, Moves i s u ∧ u.SameData t :=
  execOn_moves Build.fits_des (by rw [← exec_eq_execOn]; exact h)

/-! ## The scrub contract -/

/-- Every closed register holds zero (10_state.md R23). -/
def State.Scrubbed (s : State) : Prop := ∀ r : Reg, s.bufs[r].isOpen = false → s.bufs[r].v = 0

/-- A command opens the registers it writes, and `CLOSE` zeroes the one it closes. -/
theorem Moves.scrubbed {i : Instr} {s u : State} (m : Moves i s u) (h : s.Scrubbed) : u.Scrubbed := by
  intro r hr
  rcases m.bufsOpen r with e | e | ⟨-, e⟩
  · rw [e] at hr ⊢
    exact h r hr
  · rw [e] at hr
    cases hr
  · rw [e]
    rfl

/-- The contract speaks of the buffer registers alone. -/
theorem State.SameData.scrubbed {u t : State} (e : u.SameData t) (h : u.Scrubbed) : t.Scrubbed := by
  rw [State.Scrubbed, e.bufs]
  exact h

/-- A command in progress keeps the contract, whatever word it is. -/
theorem runCommand_scrubbed {s t : State} (h : runCommand exec s = .next t) (hs : s.Scrubbed) : t.Scrubbed := by
  rcases runCommand_cases h with ⟨i, -, h⟩ | ⟨-, -, rfl⟩
  · obtain ⟨u, m, e⟩ := exec_moves h
    exact e.scrubbed (m.scrubbed hs)
  · exact hs

theorem onReset_closed (s : State) (r : Reg) : s.onReset.bufs[r] = BufReg.closed := by
  simp [State.onReset, State.resetOn, State.resetWith]

/-- Every step keeps the contract. -/
theorem step_scrubbed {s t : State} (h : step s = .next t) (hs : s.Scrubbed) : t.Scrubbed := by
  rcases step_cases h with ⟨-, rfl⟩ | ⟨-, rfl⟩ | ⟨-, -, w, rest, -, rfl⟩ |
    ⟨-, -, u, hu, ⟨-, rfl⟩ | ⟨-, w, rest, -, rfl⟩⟩
  · intro r _
    rw [onReset_closed]
    rfl
  · exact hs
  · exact hs
  · exact runCommand_scrubbed hu hs
  · exact runCommand_scrubbed hu hs

/-- A command that leaves an open register closed is `CLOSE` of it. -/
theorem exec_closes {i : Instr} {s t : State} {r : Reg} (h : exec i s = .next t) (hs : s.bufs[r].isOpen = true)
    (ht : t.bufs[r].isOpen = false) : i = .close r ∧ t.bufs[r] = BufReg.closed := by
  obtain ⟨u, m, e⟩ := exec_moves h
  rw [e.bufs] at ht ⊢
  rcases m.bufsOpen r with e | e | e
  · rw [e, hs] at ht
    cases ht
  · rw [e] at ht
    cases ht
  · exact e

/-! ## Reset -/

theorem bad_eq_false_iff {B : Build} : B.bad = false ↔ 0 < B.nRounds ∧ 0 < B.blockBits := by
  simp [Build.bad]

/-- Reset of a build that passes the construction check leaves the table of 10_state.md R40. -/
theorem resetWith_atReset {B : Build} (h : B.bad = false) (strap : Bool) (outFail : Option Nat) (cmd : List CmdWord) :
    (State.resetWith B strap outFail cmd).AtReset strap := by
  constructor <;> simp [State.resetWith, h, BufReg.closed, KeyReg.closed, RoundRegs.zero, StreamRegs.zero]

/-- The build shows in `HALT` and `FCODE` alone (70_reset_and_hazards.md R221). -/
theorem resetWith_eq (B : Build) (strap : Bool) (outFail : Option Nat) (cmd : List CmdWord) :
    State.resetWith B strap outFail cmd =
      { State.resetWith Build.des strap outFail cmd with
        status := { busy := false, halt := if 0 < B.nRounds ∧ 0 < B.blockBits then false else true }
        fcode := if 0 < B.nRounds ∧ 0 < B.blockBits then 0#3 else 3#3 } := by
  cases hb : B.bad with
  | false => simp [State.resetWith, hb, bad_eq_false_iff.1 hb]
  | true =>
    have hn : ¬(0 < B.nRounds ∧ 0 < B.blockBits) := by rw [← bad_eq_false_iff, hb]; decide
    simp [State.resetWith, hb, hn, FaultCode.code]

/-- Reset of a build that passes the construction check establishes the invariant. -/
theorem resetWith_inv {B : Build} (h : B.bad = false) (strap : Bool) (outFail : Option Nat) (cmd : List CmdWord) :
    (State.resetWith B strap outFail cmd).Inv := by
  constructor <;> simp [State.resetWith, h, BufReg.closed, KeyReg.closed, StreamRegs.zero]

/-! ## The states of the chaining machine -/

/-- The stream states of the command whose word is `w` (45_cbc_stream.md R173). -/
def Sst.BelongsTo (w : CmdWord) : Sst → Prop
  | .idle => False
  | .eiv | .eblk => w = 0xC8000000#32
  | .div | .dfirst | .dblk => w = 0xCC000000#32

/-- A stream state belongs to one of the two stream commands. -/
theorem Sst.BelongsTo.word {w : CmdWord} {a : Sst} (h : a.BelongsTo w) : w = 0xC8000000#32 ∨ w = 0xCC000000#32 := by
  cases a with
  | idle => exact h.elim
  | eiv | eblk => exact .inl h
  | div | dfirst | dblk => exact .inr h

/-- A command that begins in a state of its own goes on in its own states. -/
theorem Sst.Follows.belongsTo {w : CmdWord} {first a b : Sst} (hf : Sst.Follows first a b) (hfirst : first.BelongsTo w)
    (ha : a = .idle ∨ a.BelongsTo w) : b.BelongsTo w := by
  cases a with
  | idle =>
    obtain rfl : b = first := hf
    exact hfirst
  | eiv | eblk | div | dfirst | dblk =>
    rw [show b = _ from hf]
    exact ha.resolve_left (by decide)

/-- By the invariant the stream registers are zero, or the stream state belongs to the word in progress. -/
theorem State.Inv.belongsTo {s : State} (h : s.Inv) : s.stream = StreamRegs.zero ∨ s.stream.sst.BelongsTo s.cip := by
  cases hs : s.stream.sst with
  | idle => exact .inl (h.sstIdleZero hs)
  | eiv => exact .inr (h.encStates (.inl hs))
  | eblk => exact .inr (h.encStates (.inr hs))
  | div => exact .inr (h.decStates (.inl hs))
  | dfirst => exact .inr (h.decStates (.inr (.inl hs)))
  | dblk => exact .inr (h.decStates (.inr (.inr hs)))

/-- While a command other than the stream commands is in progress the stream registers are zero. -/
theorem State.Inv.stream_of_decode {s : State} {i : Instr} (h : s.Inv) (hi : decode s.cip = .ok i) (h1 : i ≠ .encs)
    (h2 : i ≠ .decs) : s.stream = StreamRegs.zero := by
  refine h.belongsTo.resolve_right fun hb => ?_
  rcases hb.word with hw | hw
  · rw [decode_encs_iff.2 hw] at hi
    cases hi
    exact h1 rfl
  · rw [decode_decs_iff.2 hw] at hi
    cases hi
    exact h2 rfl

/-! ## The invariant -/

/-- The codes of the faults that a step can raise (60_exceptions.md R201). -/
theorem FaultCode.code_range {c : FaultCode} (hc : c ≠ .constraint) : c.code ≠ 0 ∧ c.code ≠ 7 ∧ c.code ≠ 3 := by
  cases c
  case constraint => exact absurd rfl hc
  all_goals decide

/-- `KEY` is opened by a load and zeroed by a close (10_state.md R25). -/
theorem Moves.keyClosedZero {i : Instr} {s u : State} (m : Moves i s u) (h : s.Inv) (hu : u.key.isOpen = false) :
    u.key.len = 0 ∧ u.key.v = 0 := by
  rcases m.key with e | ⟨-, -, e⟩ | ⟨-, e⟩
  · rw [e] at hu ⊢
    exact h.keyClosedZero hu
  · rw [e] at hu
    cases hu
  · rw [e]
    exact ⟨rfl, rfl⟩

theorem Moves.resRange {i : Instr} {s u : State} (m : Moves i s u) (h : s.Inv) : u.res.toNat ≤ 64 := by
  rcases m.res with e | ⟨-, -, -, e⟩ | ⟨-, -, e⟩
  · rw [e]
    exact h.resRange
  · omega
  · exact e

/-- Fault entry keeps the invariant, the data registers being as before the command. -/
theorem State.Inv.raise {s u : State} {c : FaultCode} (h : s.Inv) (hb : u.bufs = s.bufs) (hk : u.key = s.key)
    (hr : u.res = s.res) (hc : c ≠ .constraint) : (u.raise c).Inv := by
  obtain ⟨h0, h7, h3⟩ := FaultCode.code_range hc
  exact
    { closedZero := by rw [State.raise_bufs, hb]; exact h.closedZero
      keyClosedZero := by rw [State.raise_key, hk]; exact h.keyClosedZero
      resRange := by rw [State.raise_res, hr]; exact h.resRange
      roundZero := rfl
      idleZero := fun _ => ⟨rfl, rfl⟩
      sstIdleZero := fun _ => rfl
      encStates := by simp [StreamRegs.zero]
      decStates := by simp [StreamRegs.zero]
      counts := by simp [StreamRegs.zero]
      haltNotBusy := fun _ => rfl
      haltFcode := iff_of_true rfl h0
      fcodeRange := ⟨h7, h3⟩
      noFaultNoFcmd := by simp }

/-- Only the list of waiting words changes: the invariant does not speak of it. -/
theorem State.Inv.withCmd {s : State} (h : s.Inv) (words : List CmdWord) : State.Inv { s with cmd := words } :=
  { h with }

/-- A word is accepted by an idle engine, whose stream registers are zero. -/
theorem State.Inv.accept {s : State} (h : s.Inv) (hbusy : s.status.busy = false) (hhalt : s.status.halt = false)
    (w : CmdWord) : (s.accept w).Inv := by
  have hz : s.stream = StreamRegs.zero := (h.idleZero hbusy).1
  exact
    { h with
      idleZero := by simp
      encStates := by simp [hz, StreamRegs.zero]
      decStates := by simp [hz, StreamRegs.zero]
      haltNotBusy := by simp [hhalt] }

/-- A command without a fault leaves the flags and the data registers well, so the invariant is a matter of the working
registers and of `BUSY`. -/
theorem State.Inv.ofMoves {i : Instr} {s u t : State} (h : s.Inv) (m : Moves i s u) (e : u.SameData t)
    (hhalt : s.status.halt = false) (hflags : t.status.halt = u.status.halt ∧ t.fcode = u.fcode ∧ t.fcmd = u.fcmd)
    (hround : t.round = RoundRegs.zero)
    (hidle : t.status.busy = false → t.stream = StreamRegs.zero ∧ t.cip = 0)
    (hsst : t.stream = StreamRegs.zero ∨ t.stream.sst.BelongsTo t.cip)
    (hcounts : t.stream.curn.toNat ≤ 8 ∧ t.stream.nxtn.toNat ≤ 8) : t.Inv := by
  obtain ⟨-, -, -, -, -, -, hfcode, hfcmd, hh⟩ := m.rest
  obtain ⟨th, tc, tm⟩ := hflags
  have hht : t.status.halt = s.status.halt := th.trans hh
  exact
    { closedZero := e.scrubbed (m.scrubbed h.closedZero)
      keyClosedZero := by rw [e.key]; exact m.keyClosedZero h
      resRange := by rw [e.res]; exact m.resRange h
      roundZero := hround
      idleZero := hidle
      sstIdleZero := fun hi => hsst.resolve_right fun hx => by
        rw [hi] at hx
        exact hx
      encStates := fun hi => by
        rcases hsst with hz | hx
        · simp [hz, StreamRegs.zero] at hi
        · rcases hi with hi | hi <;> rw [hi] at hx <;> exact hx
      decStates := fun hi => by
        rcases hsst with hz | hx
        · simp [hz, StreamRegs.zero] at hi
        · rcases hi with hi | hi | hi <;> rw [hi] at hx <;> exact hx
      counts := hcounts
      haltNotBusy := by rw [hht, hhalt]; simp
      haltFcode := by rw [hht, tc, hfcode]; exact h.haltFcode
      fcodeRange := by rw [tc, hfcode]; exact h.fcodeRange
      noFaultNoFcmd := by rw [hht, tm, hfcmd]; exact h.noFaultNoFcmd }

/-- A command that is one atomic step ends. -/
theorem State.Inv.ends {i : Instr} {s t : State} (h : s.Inv) (hhalt : s.status.halt = false)
    (hz : s.stream = StreamRegs.zero) (ht : EndsFrom i s t) : t.Inv := by
  obtain ⟨u, m, hu, rfl, hround⟩ := ht
  have hstream : u.stream = StreamRegs.zero := hu.trans hz
  refine h.ofMoves m ⟨rfl, rfl, rfl, rfl, rfl, rfl, rfl⟩ hhalt ⟨rfl, rfl, rfl⟩ ?_ (fun _ => ⟨hstream, rfl⟩) (.inl hstream) ?_
  · rw [h.roundZero] at hround
    rcases hround with e | e | e <;> exact e
  · rw [State.complete_stream, hstream]
    decide

/-- A stream command that begins in a state of its own finishes or goes on. -/
theorem State.Inv.streams {first : Sst} {i : Instr} {s t : State} (h : s.Inv) (hhalt : s.status.halt = false)
    (hbusy : s.status.busy = true) (ht : StreamsFrom first i s t) (hfirst : first.BelongsTo s.cip) : t.Inv := by
  obtain ⟨u, m, -, -, -, rfl | ⟨rfl, hf, hround, hb, hcounts⟩⟩ := ht
  · exact h.ofMoves m ⟨rfl, rfl, rfl, rfl, rfl, rfl, rfl⟩ hhalt ⟨rfl, rfl, rfl⟩ rfl (fun _ => ⟨rfl, rfl⟩) (.inl rfl)
      ⟨Nat.zero_le 8, Nat.zero_le 8⟩
  · obtain ⟨-, -, -, -, -, hcip, -, -, -⟩ := m.rest
    have htb : t.status.busy = true := hb.elim id fun e => e.trans hbusy
    refine h.ofMoves m ⟨rfl, rfl, rfl, rfl, rfl, rfl, rfl⟩ hhalt ⟨rfl, rfl, rfl⟩ ?_ (fun e => ?_) (.inr ?_)
      (hcounts h.counts.1 h.counts.2)
    · rcases hround with e | e
      · exact e.trans h.roundZero
      · exact e
    · rw [htb] at e
      cases e
    · rw [hcip]
      exact hf.belongsTo hfirst (h.belongsTo.imp_left fun hz => by rw [hz]; rfl)

/-- The command in progress keeps the invariant, whatever its word. -/
theorem runCommand_keeps_inv {B : Build} (hB : B.Fits) {s t : State} (h : s.Inv) (hhalt : s.status.halt = false)
    (hbusy : s.status.busy = true) (ht : runCommand (execOn B) s = .next t) : t.Inv := by
  rcases runCommand_cases ht with ⟨i, hi, ht⟩ | ⟨-, -, rfl⟩
  · rcases execOn_cases hB ht with rfl | ⟨u, c, -, hb, hk, hr, hc, rfl, -⟩ | ⟨h1, h2, e⟩ | ⟨rfl, e⟩ | ⟨rfl, e⟩
    · exact h
    · exact h.raise hb hk hr hc
    · exact h.ends hhalt (h.stream_of_decode hi h1 h2) e
    · exact h.streams hhalt hbusy e (decode_encs_iff.1 hi)
    · exact h.streams hhalt hbusy e (decode_decs_iff.1 hi)
  · exact h.raise rfl rfl rfl (by decide)

/-- Every step of a build that fits keeps the invariant. -/
theorem stepOn_keeps_inv {B : Build} (hB : B.Fits) {s t : State} (h : s.Inv) (ht : stepOn B s = .next t) : t.Inv := by
  rcases stepBy_cases ht with ⟨-, rfl⟩ | ⟨-, rfl⟩ | ⟨-, -, w, rest, -, rfl⟩ |
    ⟨-, hhalt, u, hu, ⟨hbusy, rfl⟩ | ⟨hbusy, w, rest, -, rfl⟩⟩
  · exact resetWith_inv hB.not_bad _ _ _
  · exact h
  · exact h.withCmd rest
  · exact runCommand_keeps_inv hB h hhalt hbusy hu
  · exact runCommand_keeps_inv hB ((h.withCmd rest).accept hbusy hhalt w) hhalt rfl hu

/-! ## The obligations -/

/-- Settles O17: every way a command ends, faults or goes on keeps the invariant. -/
theorem stepKeepsInv : Obligations.StepKeepsInv := by
  intro s t h
  refine ⟨fun ht => ?_, fun B hB ht => stepOn_keeps_inv hB h ht⟩
  rw [step_eq_stepOn] at ht
  exact stepOn_keeps_inv Build.fits_des h ht

/-- Settles O18: this hardware's build passes the construction check. -/
theorem invAtReset : Obligations.InvAtReset := resetWith_inv des_bad _ _ _

/-- Settles O7: reset of a good build is the table, and a bad one shows in `HALT` and `FCODE` alone. -/
theorem resetValues : Obligations.ResetValues :=
  ⟨resetWith_atReset des_bad _ _ _, fun s => resetWith_atReset des_bad s.testen s.outFail s.cmd,
    fun B strap outFail cmd =>
      ⟨State.resetWith Build.des strap outFail cmd, resetWith_atReset des_bad _ _ _, resetWith_eq B strap outFail cmd⟩⟩

/-- Settles O19: a register that changes is open afterwards, or `CLOSE` has zeroed it. -/
theorem closedRegistersAreZero : Obligations.ClosedRegistersAreZero := by
  refine ⟨fun s r => ?_, fun s t hs ht => step_scrubbed ht hs, fun i s t r h hs ht => ?_⟩
  · rw [onReset_closed]
    exact ⟨rfl, rfl⟩
  · obtain ⟨hi, hc⟩ := exec_closes h hs ht
    exact ⟨hi, by rw [hc]; rfl⟩

/-- Settles O20: the frame of the buffer registers in what a command may move. -/
theorem onlyOperandsWritten : Obligations.OnlyOperandsWritten := by
  intro i s t r hr
  have frame : ∀ B : Build, B.Fits → execOn B i s = .next t → t.bufs[r] = s.bufs[r] := fun B hB h => by
    obtain ⟨u, m, e⟩ := execOn_moves hB h
    rw [e.bufs]
    exact m.bufs r hr
  exact ⟨fun h => frame Build.des Build.fits_des (by rw [← exec_eq_execOn]; exact h), frame⟩

/-- Settles O21: the writers of `KEY` and `RES` in what a command may move. -/
theorem keyAndResWriters : Obligations.KeyAndResWriters := by
  refine ⟨fun i s t h h1 h2 => ?_, fun i s t h h1 h2 => ?_, fun s t rd p h => ?_, fun s t rd h => ?_⟩ <;>
    obtain ⟨u, m, e⟩ := exec_moves h
  · rw [e.key]
    rcases m.key with hk | ⟨n, rfl, -⟩ | ⟨rfl, -⟩
    · exact hk
    · exact absurd rfl (h1 n)
    · exact absurd rfl h2
  · rw [e.res]
    rcases m.res with hr | ⟨rd, p, rfl, -⟩ | ⟨rd, rfl, -⟩
    · exact hr
    · exact absurd rfl (h1 rd p)
    · exact absurd rfl (h2 rd)
  · rw [e.res]
    rcases m.res with hr | ⟨-, -, -, hr⟩ | ⟨_, hi, -⟩
    · exact .inl hr
    · exact .inr hr
    · cases hi
  · rw [e.res]
    rcases m.res with hr | ⟨_, _, hi, -⟩ | ⟨-, -, hr⟩
    · exact .inl hr
    · cases hi
    · exact .inr hr

/-- Settles O22: the ports in what a command may move. -/
theorem portsMoveForward : Obligations.PortsMoveForward := by
  intro i s t h
  obtain ⟨u, m, e⟩ := exec_moves h
  rw [e.out, e.inq, e.rng, e.nwrites]
  refine ⟨m.outPrefix, m.inqSuffix, m.rngSuffix, m.nwrites, fun h1 h2 h3 h4 => ?_, fun h1 h2 h3 h4 => ?_, fun h1 h2 => ?_⟩
  · rcases m.inq with hq | ⟨rd, n, hi⟩ | ⟨n, hi⟩ | hi | hi
    · exact hq
    · exact absurd hi (h1 rd n)
    · exact absurd hi (h2 n)
    · exact absurd hi h3
    · exact absurd hi h4
  · rcases m.out with ho | ⟨rs, n, hi⟩ | ⟨rs, sel, hi⟩ | hi | hi
    · exact ho
    · exact absurd hi (h1 rs n)
    · exact absurd hi (h2 rs sel)
    · exact absurd hi h3
    · exact absurd hi h4
  · rcases m.rng with hr | ⟨hi | hi, hs⟩
    · exact hr
    · exact absurd hi h1
    · exact absurd hs (h2 hi)

end Machine

end Sys2Proof
end

section
/-! PROOFS. The byte conversions and the stream primitives (spec/20_memory.md R53 to R57): what `FromBytes` and `ToBytes` put at
each position and that each undoes the other, what `InRead` does with each queue, what `OutWrite` does with each write. -/

namespace Sys2Proof.Machine

/-! ## Bytes and positions -/

@[simp] theorem byteBit_zero (order : BitOrder) (i : Nat) : byteBit order 0 i = false := by
  cases order <;> exact BitVec.getLsbD_zero

/-- Two bytes are equal when they agree at each of their positions, in whatever order these are counted. -/
theorem byte_eq_of_byteBit_eq {order : BitOrder} {a b : Byte} (h : ∀ i, i < 8 → byteBit order a i = byteBit order b i) :
    a = b := by
  refine buf_ext fun i hi => ?_
  cases order with
  | msbFirst =>
    have e := h (7 - i) (by omega)
    rwa [byteBit, byteBit, show 7 - (7 - i) = i by omega] at e
  | lsbFirst => exact h i hi

/-- The positions at and above the end of the byte string are 0 (20_memory.md R53). -/
theorem getLsbD_fromBytes_length (order : BitOrder) (bs : List Byte) (p : Nat) (h : p < 64) :
    (fromBytes order bs).getLsbD p = (decide (p < 8 * bs.length) && byteBit order (bs.getD (p / 8) 0) (p % 8)) := by
  rw [getLsbD_fromBytes order bs p h]
  by_cases hp : p < 8 * bs.length
  · rw [decide_eq_true hp, Bool.true_and]
  · have hlen : bs.length ≤ p / 8 := by omega
    rw [decide_eq_false hp, Bool.false_and, List.getD_eq_default bs 0 hlen, byteBit_zero]

theorem holdsBytes_fromBytes (bs : List Byte) : HoldsBytes (fromBytes .msbFirst bs) bs :=
  getLsbD_fromBytes_length .msbFirst bs

/-- 20_memory.md R54: the bit of byte `j` of a rendering at its position `i`. -/
theorem byteBit_toBytes (order : BitOrder) (v : Buf) {n j i : Nat} (hj : j < n) (hi : i < 8) :
    byteBit order ((toBytes order v n).getD j 0) i = v.getLsbD (8 * j + i) := by
  rw [getD_toBytes order v n j hj, byteBit_toByte order v j i hi]

theorem renders_toBytes (v : Buf) (n : Nat) : Renders (toBytes .msbFirst v n) v n :=
  ⟨length_toBytes .msbFirst v n, fun _ _ hj hi => byteBit_toBytes .msbFirst v hj hi⟩

/-- Byte `j` of a buffer value made of at most 8 bytes is the byte it was made of. -/
theorem toByte_fromBytes (order : BitOrder) {bs : List Byte} (h : bs.length ≤ 8) {j : Nat} (hj : j < bs.length) :
    toByte order (fromBytes order bs) j = bs.getD j 0 := by
  refine byte_eq_of_byteBit_eq (order := order) fun i hi => ?_
  have hdiv : (8 * j + i) / 8 = j := by omega
  have hmod : (8 * j + i) % 8 = i := by omega
  rw [byteBit_toByte order _ j i hi, getLsbD_fromBytes order bs _ (by omega), hdiv, hmod]

/-- Rendering undoes reading (20_memory.md R54). -/
theorem toBytes_fromBytes (order : BitOrder) {bs : List Byte} (h : bs.length ≤ 8) :
    toBytes order (fromBytes order bs) bs.length = bs := by
  refine List.ext_getElem (length_toBytes ..) fun j _ hj => ?_
  rw [← List.getD_eq_getElem _ 0, ← List.getD_eq_getElem bs 0 hj, getD_toBytes _ _ _ _ hj, toByte_fromBytes order h hj]

/-- Reading undoes rendering (20_memory.md R54). -/
theorem fromBytes_toBytes (order : BitOrder) (v : Buf) : fromBytes order (toBytes order v 8) = v := by
  refine buf_ext fun p hp => ?_
  have hpos : 8 * (p / 8) + p % 8 = p := Nat.div_add_mod p 8
  rw [getLsbD_fromBytes order _ p hp, byteBit_toBytes order v (by omega) (by omega), hpos]

/-! ## The input stream -/

/-- The outcome of a read that has found the bytes `cs` before. -/
def ReadResult.after (cs : List Byte) : ReadResult → ReadResult
  | .bytes bs rest => .bytes (cs ++ bs) rest
  | .failed rest => .failed rest
  | .starved => .starved

/-- A read takes the bytes that stand first and goes on with the rest (20_memory.md R56). -/
theorem readFully_bytes_append (bs : List Byte) (n : Nat) (q : List InItem) :
    readFully (bs.length + n) (bs.map InItem.byte ++ q) = (readFully n q).after bs := by
  induction bs with
  | nil =>
    rw [List.length_nil, Nat.zero_add, List.map_nil, List.nil_append]
    cases readFully n q <;> rfl
  | cons b bs ih =>
    rw [List.length_cons, Nat.add_right_comm, List.map_cons, List.cons_append, readFully, ih]
    cases readFully n q <;> rfl

/-- A read that has too few bytes before `q` meets the first item of `q`. -/
theorem readFully_short {bs : List Byte} {n : Nat} (h : bs.length < n) (q : List InItem) :
    ∃ m, readFully n (bs.map InItem.byte ++ q) = (readFully (m + 1) q).after bs := by
  obtain ⟨m, rfl⟩ := Nat.exists_eq_add_of_lt h
  exact ⟨m, readFully_bytes_append bs (m + 1) q⟩

/-- 20_memory.md R56, row 1: as many bytes as asked for. -/
theorem withRead_full {s : State} {bs : List Byte} {rest : List InItem} (k : List Byte → State → Result)
    (h : s.inq = bs.map InItem.byte ++ rest) : withRead bs.length s k = k bs { s with inq := rest } := by
  have e : readFully bs.length (bs.map InItem.byte ++ rest) = .bytes bs rest := by
    simpa [readFully, ReadResult.after] using readFully_bytes_append bs 0 rest
  rw [withRead, h, e]

/-- 20_memory.md R56, row 2: the end of the stream after fewer bytes. -/
theorem withRead_eos {n : Nat} {s : State} {bs : List Byte} {rest : List InItem} (k : List Byte → State → Result)
    (hn : bs.length < n) (h : s.inq = bs.map InItem.byte ++ InItem.eos :: rest) :
    withRead n s k = k bs { s with inq := rest } := by
  obtain ⟨m, e⟩ := readFully_short hn (InItem.eos :: rest)
  simp only [withRead, h, e, readFully, ReadResult.after, List.append_nil]

/-- 20_memory.md R56, row 3: an error after fewer bytes. -/
theorem withRead_err {n : Nat} {s : State} {bs : List Byte} {rest : List InItem} (k : List Byte → State → Result)
    (hn : bs.length < n) (h : s.inq = bs.map InItem.byte ++ InItem.err :: rest) :
    withRead n s k = .next ({ s with inq := rest }.raise .io) := by
  obtain ⟨m, e⟩ := readFully_short hn (InItem.err :: rest)
  simp only [withRead, h, e, readFully, ReadResult.after, trap_eq]

/-- 20_memory.md R56, row 4: nothing after fewer bytes. -/
theorem withRead_starved {n : Nat} {s : State} {bs : List Byte} (k : List Byte → State → Result)
    (hn : bs.length < n) (h : s.inq = bs.map InItem.byte) : withRead n s k = .next s := by
  obtain ⟨m, e⟩ := readFully_short hn []
  rw [List.append_nil] at e
  simp only [withRead, h, e, readFully, ReadResult.after, stall_eq]

/-- 20_memory.md R56: a read of nothing takes no item of the queue. -/
@[simp] theorem withRead_zero (s : State) (k : List Byte → State → Result) : withRead 0 s k = k [] s := by
  rw [withRead, readFully]

/-! ## The output stream -/

/-- 20_memory.md R57: a write of nothing is no write. -/
@[simp] theorem withWrite_nil (s : State) (k : State → Result) : withWrite [] s k = k s := by
  rw [withWrite, if_pos rfl]

/-- 20_memory.md R57: a write the host accepts. -/
theorem withWrite_ok {bs : List Byte} {s : State} (k : State → Result) (hbs : bs ≠ []) (h : s.WriteOk) :
    withWrite bs s k = k { s with nwrites := s.nwrites + 1, out := s.out ++ bs } := by
  rw [withWrite, if_neg hbs, if_neg h]

/-- 20_memory.md R57: the write the host fails. -/
theorem withWrite_failed {bs : List Byte} {s : State} (k : State → Result) (hbs : bs ≠ [])
    (h : s.outFail = some s.nwrites) : withWrite bs s k = .next ({ s with nwrites := s.nwrites + 1 }.raise .io) := by
  rw [withWrite, if_neg hbs, if_pos h, trap_eq]

/-! ## The obligations -/

/-- Settles O37: position `8j + i` holds the bit of byte `j` at `i`, both ways and in both orders. -/
theorem byteConversions : Obligations.ByteConversions :=
  ⟨fun bs _ => holdsBytes_fromBytes bs,
    fun bs p _ hp => getLsbD_fromBytes_length .lsbFirst bs p hp,
    fun v n _ => renders_toBytes v n,
    fun v n _ => length_toBytes .lsbFirst v n,
    fun v _ _ _ _ hj hi => byteBit_toBytes .lsbFirst v hj hi,
    fun order _ h => toBytes_fromBytes order h,
    fromBytes_toBytes⟩

/-- Settles O38: what stands after the bytes at the front of the queue decides the read. Its fault is `State.raise`,
which the statement writes out. -/
theorem inReadRule : Obligations.InReadRule := by
  intro n s k bs rest
  refine ⟨?_, withRead_eos k, withRead_err k, withRead_starved k, withRead_zero s k⟩
  rintro rfl h
  exact withRead_full k h

/-- Settles O39: the three cases of a write. Its fault is `State.raise`, which the statement writes out. -/
theorem outWriteRule : Obligations.OutWriteRule := fun _ s k =>
  ⟨withWrite_nil s k, withWrite_ok k, withWrite_failed k⟩

end Sys2Proof.Machine
end

section
/-! PROOFS. The command encoding (spec/30_encoding.md R70 to R76): a word selects at most one command, its fields hold the
command's operands, every bit of it is fixed or stands in a field, and a word that decodes to no command is illegal; then what
the step that takes a word does with it. -/

namespace Sys2Proof

/-! ## Selecting a command -/

/-- The opcodes' codes are distinct (30_encoding.md R73). -/
theorem Opcode.code_injective : Function.Injective Opcode.code := fun o o' h =>
  Option.some.inj (by rw [← Opcode.ofCode_code o, h, Opcode.ofCode_code])

/-- A code selects an opcode exactly when it is that opcode's (30_encoding.md R73). -/
theorem Opcode.ofCode_eq_some_iff {c : BitVec 6} {o : Opcode} : Opcode.ofCode c = some o ↔ o.code = c :=
  ⟨Opcode.code_of_ofCode, by rintro rfl; exact Opcode.ofCode_code o⟩

/-- The codes that select nothing are the reserved ones (30_encoding.md R76). -/
theorem Opcode.ofCode_eq_none_iff (c : BitVec 6) : Opcode.ofCode c = none ↔ c.toNat ∈ reservedOpcodes := by
  revert c
  decide

/-- The mask has a 1 at every `op` bit and every must-be-zero bit (30_encoding.md R74). -/
theorem Opcode.getLsbD_maskWord (o : Opcode) (j : Nat) :
    o.maskWord.getLsbD j = (decide (26 ≤ j ∧ j < 32) || o.mustBeZero.getLsbD j) := by
  have hop : (0xFC000000#32).getLsbD j = decide (26 ≤ j ∧ j < 32) := by
    by_cases hj : j < 32
    · interval_cases j <;> rfl
    · rw [BitVec.getLsbD_of_ge _ _ (by omega), decide_eq_false (by omega)]
  rw [Opcode.maskWord, BitVec.getLsbD_or, hop]

/-- The mask holds the must-be-zero bits (30_encoding.md R74). -/
theorem Opcode.maskWord_and_mustBeZero (o : Opcode) : o.maskWord &&& o.mustBeZero = o.mustBeZero := by
  refine BitVec.eq_of_getLsbD_eq fun j _ => ?_
  simp +contextual [Opcode.maskWord]

/-- Every must-be-zero bit stands below the field `op` (30_encoding.md R71). -/
theorem Opcode.matchWord_and_mustBeZero (o : Opcode) : o.matchWord &&& o.mustBeZero = 0#32 := by
  cases o <;> decide

@[simp] theorem Opcode.opField_matchWord (o : Opcode) : opField o.matchWord = o.code := by
  cases o <;> decide

/-- The mask keeps the field `op`. -/
theorem opField_and_maskWord (w : CmdWord) (o : Opcode) : opField (w &&& o.maskWord) = opField w := by
  refine BitVec.eq_of_getLsbD_eq fun j hj => ?_
  have hm : o.maskWord.getLsbD (26 + j) = true := by
    rw [Opcode.getLsbD_maskWord, decide_eq_true (by omega), Bool.true_or]
  simp only [opField, cmdField, BitVec.getLsbD_extractLsb', BitVec.getLsbD_and, hm, Bool.and_true]

/-- A word selects a command exactly when its `op` is the command's and its must-be-zero bits are zero (30_encoding.md R74). -/
theorem selects_iff {w : CmdWord} {o : Opcode} :
    w &&& o.maskWord = o.matchWord ↔ opField w = o.code ∧ w &&& o.mustBeZero = 0#32 := by
  constructor
  · intro h
    refine ⟨by rw [← opField_and_maskWord w o, h, Opcode.opField_matchWord], ?_⟩
    rw [← Opcode.maskWord_and_mustBeZero, ← BitVec.and_assoc, h, Opcode.matchWord_and_mustBeZero]
  · rintro ⟨hop, hz⟩
    refine selects_of_fields hop fun j _ => ?_
    rw [← BitVec.getLsbD_and, hz, BitVec.getLsbD_zero]

/-- The word of a command selects it (30_encoding.md R74). -/
theorem encode_selects : ∀ i : Instr, encode i &&& i.opcode.maskWord = i.opcode.matchWord
  | .new rd => Laws.EncodedWord.new rd
  | .ldb rd n => Laws.EncodedWord.ldb rd n
  | .clone rd rs => Laws.EncodedWord.clone rd rs
  | .copy rd rs => Laws.EncodedWord.copy rd rs
  | .clr rd => Laws.EncodedWord.clr rd
  | .close rd => Laws.EncodedWord.close rd
  | .setb rd p v => Laws.EncodedWord.setb rd p v
  | .flipb rd p => Laws.EncodedWord.flipb rd p
  | .getb rd p => Laws.EncodedWord.getb rd p
  | .setr rd lo hi v => Laws.EncodedWord.setr rd lo hi v
  | .flipr rd lo hi => Laws.EncodedWord.flipr rd lo hi
  | .getr rd rs lo hi => Laws.EncodedWord.getr rd rs lo hi
  | .and rd rs => Laws.EncodedWord.and rd rs
  | .or rd rs => Laws.EncodedWord.or rd rs
  | .xor rd rs => Laws.EncodedWord.xor rd rs
  | .andn rd rs => Laws.EncodedWord.andn rd rs
  | .ovw rd rs pos sfrom n => Laws.EncodedWord.ovw rd rs pos sfrom n
  | .rol rd n ring => Laws.EncodedWord.rol rd n ring
  | .ror rd n ring => Laws.EncodedWord.ror rd n ring
  | .len rd => Laws.EncodedWord.len rd
  | .stb rs n => Laws.EncodedWord.stb rs n
  | .dbg rs sel => Laws.EncodedWord.dbg rs sel
  | .perm rd t => Laws.EncodedWord.perm rd t
  | .sbox rd k x y => Laws.EncodedWord.sbox rd k x y
  | .sub6 rd k => Laws.EncodedWord.sub6 rd k
  | .kse rd rs r => Laws.EncodedWord.kse rd rs r
  | .ksd rd rs r => Laws.EncodedWord.ksd rd rs r
  | .ffn rd rs rt => Laws.EncodedWord.ffn rd rs rt
  | .encb rd rs rt => Laws.EncodedWord.encb rd rs rt
  | .decb rd rs rt => Laws.EncodedWord.decb rd rs rt
  | .ldk n => Laws.EncodedWord.ldk n
  | .kclose => Laws.EncodedWord.kclose
  | .encs => Laws.EncodedWord.encs
  | .decs => Laws.EncodedWord.decs

/-! ## The fields of a command's word -/

/-- A register number among the operand bits of an encoded word (30_encoding.md R71). -/
theorem regField_cmdWord (o : Opcode) (rd rs : Reg) (low : BitVec 20) (lo : Nat) (h : lo + 3 ≤ 20) :
    regField (cmdWord o rd rs low) lo = (low.extractLsb' lo 3).toFin := by
  rw [regField, cmdField_cmdWord o rd rs low lo 3 h]

/-- The fields of a command's word hold its operands (30_encoding.md R71, R72): `low` is a concatenation, and each field is
one of its parts. What `simp` leaves are the one-bit operands, whose positions are numerals. -/
theorem operands_encode (i : Instr) : operands i.opcode (encode i) = some i := by
  cases i
  all_goals
    simp (disch := decide) only [encode, Instr.opcode, operands, rtField, rdField_cmdWord, rsField_cmdWord,
      regField_cmdWord, cmdField_cmdWord, flagField_cmdWord, BitVec.extractLsb'_append_eq_of_add_le,
      BitVec.extractLsb'_append_eq_of_le, BitVec.extractLsb'_eq_self, BitVec.getLsbD_append, BitVec.getLsbD_ofBool,
      PermTable.ofCode_code, Option.map_some, Nat.sub_self, Nat.reduceSub]
  case setb | setr | dbg => rfl

/-- A word decodes to `i` exactly when it selects `i`'s opcode and its fields hold `i`'s operands, which are legal
(30_encoding.md R75 step 2). -/
theorem decode_eq_ok_iff {w : CmdWord} {i : Instr} :
    decode w = .ok i ↔
      w &&& i.opcode.maskWord = i.opcode.matchWord ∧ operands i.opcode w = some i ∧ i.wellFormed = true := by
  constructor
  · intro h
    obtain ⟨-, -, hi, hwf⟩ := decode_fields h
    exact ⟨decode_selects h, hi, hwf⟩
  · rintro ⟨hsel, hi, hwf⟩
    obtain ⟨hop, hz⟩ := selects_iff.1 hsel
    simp only [decode, hop, Opcode.ofCode_code, hz, if_true, hi, hwf]

/-- The operand fields of a command, each as its first bit and its length (30_encoding.md R71). -/
def Opcode.fields : Opcode → List (Nat × Nat)
  | .new | .clr | .close | .len => [(23, 3)]
  | .clone | .copy | .and | .or | .xor | .andn => [(23, 3), (20, 3)]
  | .ffn | .encb | .decb => [(23, 3), (20, 3), (17, 3)]
  | .ldb => [(23, 3), (0, 4)]
  | .stb => [(20, 3), (0, 4)]
  | .dbg => [(20, 3), (0, 1)]
  | .ldk => [(0, 4)]
  | .setb => [(23, 3), (0, 6), (6, 1)]
  | .flipb | .getb => [(23, 3), (0, 6)]
  | .setr => [(23, 3), (0, 7), (7, 7), (14, 1)]
  | .flipr | .rol | .ror => [(23, 3), (0, 7), (7, 7)]
  | .getr => [(23, 3), (20, 3), (0, 7), (7, 7)]
  | .ovw => [(23, 3), (20, 3), (13, 6), (7, 6), (0, 7)]
  | .perm | .sub6 => [(23, 3), (0, 3)]
  | .sbox => [(23, 3), (0, 3), (3, 4), (7, 2)]
  | .kse | .ksd => [(23, 3), (20, 3), (0, 4)]
  | .kclose | .encs | .decs => []

/-- No bit is ignored: one that the mask leaves free stands in a field (30_encoding.md R71). -/
theorem Opcode.exists_field (o : Opcode) : ∀ j, j < 32 → o.maskWord.getLsbD j = false →
    ∃ f ∈ o.fields, f.1 ≤ j ∧ j < f.1 + f.2 := by
  cases o <;> decide

/-- A register number is the field it is read from. -/
theorem regField_inj {v w : CmdWord} {lo : Nat} : regField v lo = regField w lo ↔ cmdField v lo 3 = cmdField w lo 3 :=
  BitVec.toFin_inj

/-- A one-bit field is its bit. -/
theorem cmdField_one (w : CmdWord) (i : Nat) : cmdField w i 1 = BitVec.ofBool (flagField w i) := by
  refine BitVec.eq_of_getLsbD_eq fun j hj => ?_
  obtain rfl : j = 0 := by omega
  simp [cmdField, flagField]

theorem flagField_inj {v w : CmdWord} {i : Nat} : flagField v i = flagField w i ↔ cmdField v i 1 = cmdField w i 1 := by
  rw [cmdField_one, cmdField_one, BitVec.ofBool_eq_iff_eq]

/-- A table has one number (41_permutation.md R131). -/
theorem PermTable.ofCode_inj {c c' : BitVec 3} {t : PermTable} (h : PermTable.ofCode c = some t)
    (h' : PermTable.ofCode c' = some t) : c = c' :=
  (PermTable.code_of_ofCode h).symm.trans (PermTable.code_of_ofCode h')

/-- Two words with the same operands have the same fields (30_encoding.md R72: a field is used as it stands). -/
theorem cmdField_eq_of_operands {o : Opcode} {v w : CmdWord} {i : Instr} (hv : operands o v = some i)
    (hw : operands o w = some i) : ∀ f ∈ o.fields, cmdField v f.1 f.2 = cmdField w f.1 f.2 := by
  cases o
  case perm =>
    obtain ⟨t, hvt, rfl⟩ := Option.map_eq_some_iff.1 hv
    obtain ⟨t', hwt, h⟩ := Option.map_eq_some_iff.1 hw
    obtain ⟨hrd, rfl⟩ := Instr.perm.inj h
    simp only [Opcode.fields, List.forall_mem_cons]
    exact ⟨(regField_inj.1 hrd).symm, PermTable.ofCode_inj hvt hwt, by simp⟩
  case kclose | encs | decs => simp [Opcode.fields]
  all_goals
    obtain rfl := Option.some.inj hw
    simpa [operands, rdField, rsField, rtField, regField_inj, flagField_inj, Opcode.fields, and_assoc] using hv

/-- One command, one word: a bit of the mask is the opcode's, and any other stands in a field of the operands. -/
theorem eq_of_selects_of_operands {v w : CmdWord} {o : Opcode} {i : Instr} (hv : v &&& o.maskWord = o.matchWord)
    (hw : w &&& o.maskWord = o.matchWord) (iv : operands o v = some i) (iw : operands o w = some i) : v = w := by
  refine BitVec.eq_of_getLsbD_eq fun j hj => ?_
  cases hm : o.maskWord.getLsbD j with
  | true =>
    have h : (v &&& o.maskWord).getLsbD j = (w &&& o.maskWord).getLsbD j := by rw [hv, hw]
    simpa [hm] using h
  | false =>
    obtain ⟨f, hf, hlo, hhi⟩ := o.exists_field j hj hm
    have h := congrArg (BitVec.getLsbD · (j - f.1)) (cmdField_eq_of_operands iv iw f hf)
    have h1 : j - f.1 < f.2 := by omega
    simpa [cmdField, h1, Nat.add_sub_cancel' hlo] using h

/-! ## The words of no command -/

/-- The numbers 0..5 select a table (30_encoding.md R72). -/
theorem PermTable.isSome_ofCode : ∀ c : BitVec 3, (PermTable.ofCode c).isSome = decide (c.toNat ≤ 5) := by
  decide

/-- The table of legal fields says whether a word's operands are legal (30_encoding.md R72). -/
theorem fieldsLegal_eq (o : Opcode) (w : CmdWord) : fieldsLegal o w = (operands o w).any Instr.wellFormed := by
  cases o
  case perm =>
    rw [fieldsLegal, ← PermTable.isSome_ofCode, operands, cmdField]
    cases PermTable.ofCode (w.extractLsb' 0 3) <;> rfl
  case dbg =>
    have hrs : (rsField w == 0) = (cmdField w 20 3 == 0) := by
      rw [Bool.eq_iff_iff, beq_iff_eq, beq_iff_eq]
      exact BitVec.toFin_inj (y := 0#3)
    exact congrArg (!w.getLsbD 0 || ·) hrs.symm
  all_goals rfl

/-- Exactly which words are illegal (30_encoding.md R76). -/
theorem decode_error_iff (w : CmdWord) : (∃ e, decode w = .error e) ↔
    (opField w).toNat ∈ reservedOpcodes ∨
      ∃ o : Opcode, o.code = opField w ∧ (w &&& o.mustBeZero ≠ 0#32 ∨ fieldsLegal o w = false) := by
  rw [← Opcode.ofCode_eq_none_iff]
  simp only [← Opcode.ofCode_eq_some_iff, fieldsLegal_eq]
  cases ho : Opcode.ofCode (opField w) with
  | none => simp [decode, ho]
  | some o =>
    by_cases hz : w &&& o.mustBeZero = 0#32
    · cases hi : operands o w with
      | none => simp [decode, ho, hz, hi]
      | some i => cases hwf : i.wellFormed <;> simp [decode, ho, hz, hi, hwf]
    · simp [decode, ho, hz]

/-! ## The word as a number -/

/-- 30_encoding.md R74: the four fields have disjoint places, so their concatenation is a sum. -/
theorem toNat_cmdWord (o : Opcode) (rd rs : Reg) (low : BitVec 20) :
    (cmdWord o rd rs low).toNat = o.code.toNat * 2 ^ 26 + rd.val * 2 ^ 23 + rs.val * 2 ^ 20 + low.toNat := by
  simp only [cmdWord, BitVec.toNat_append, BitVec.toNat_ofFin]
  rw [← Nat.shiftLeft_add_eq_or_of_lt low.isLt, ← Nat.shiftLeft_add_eq_or_of_lt rs.isLt,
    ← Nat.shiftLeft_add_eq_or_of_lt rd.isLt]
  simp only [Nat.shiftLeft_eq]
  omega

theorem matchWord_eq_cmdWord (o : Opcode) : o.matchWord = cmdWord o 0 0 0#20 := by
  cases o <;> rfl

/-- No word selects two commands (30_encoding.md R74). -/
theorem selects_unique {w : CmdWord} {o o' : Opcode} (h : w &&& o.maskWord = o.matchWord)
    (h' : w &&& o'.maskWord = o'.matchWord) : o = o' :=
  Opcode.code_injective ((selects_iff.1 h).1.symm.trans (selects_iff.1 h').1)

namespace Machine

/-! ## The step that takes a word -/

theorem runCommand_ok {run : Instr → State → Result} {s : State} {i : Instr} (h : decode s.cip = .ok i) :
    runCommand run s = run i s := by
  rw [runCommand, h]

theorem runCommand_error {run : Instr → State → Result} {s : State} {e : DecodeError} (h : decode s.cip = .error e) :
    runCommand run s = .next (s.raise .illegal) := by
  rw [runCommand, h, illegalWord_eq]

/-- A ready engine takes the first word on the port (30_encoding.md R75). -/
theorem step_of_ready {s : State} {w : CmdWord} {rest : List CmdWord} (hs : s.Ready) (hc : s.cmd = w :: rest) :
    step s = runCommand exec { s with cmd := rest, cip := w, status := { busy := true, halt := false } } := by
  obtain ⟨hr, hb, hh⟩ := hs
  simp [step, stepBy, fetchOn, State.offer, State.accept, hr, hb, hh, hc]

/-- An engine that is busy goes on with the command in progress (45_cbc_stream.md R173). -/
theorem step_of_busy {s : State} (hr : s.resetPin = false) (hh : s.status.halt = false) (hb : s.status.busy = true) :
    step s = runCommand exec s := by
  simp [step, stepBy, fetchOn, hr, hb, hh]

/-- An engine that is not busy and has no word to take waits. -/
theorem step_of_no_word {s : State} (hr : s.resetPin = false) (hb : s.status.busy = false) (hc : s.cmd = []) :
    step s = .next s := by
  simp [step, stepBy, fetchOn, hr, hb, hc]

/-! ## The obligations -/

/-- Settles O3: the word selects its command and its fields hold the operands. -/
theorem decodeOfEncode : Obligations.DecodeOfEncode := fun i hwf =>
  decode_eq_ok_iff.2 ⟨encode_selects i, operands_encode i, hwf⟩

/-- Settles O4: the word and the encoded word of its command select the same command with the same operands. -/
theorem encodeOfDecode : Obligations.EncodeOfDecode := by
  intro w i h
  obtain ⟨hsel, hi, hwf⟩ := decode_eq_ok_iff.1 h
  exact ⟨eq_of_selects_of_operands (encode_selects i) hsel (operands_encode i) hi, hwf⟩

/-- Settles O2: a word selects no opcode, or has a bit its format does not use, or holds no legal operands; the engine takes
the word and then faults on it. Its fault is `State.raise`, which the statement writes out. -/
theorem illegalWordsFault : Obligations.IllegalWordsFault := by
  refine ⟨decode_error_iff, ?_, ⟨.reservedOpcode, by decide⟩, ⟨.reservedOpcode, by decide⟩⟩
  intro s w rest e hs hc he
  exact (step_of_ready hs hc).trans (runCommand_error he)

/-- Settles O6: selecting a command fixes the field `op`, and the opcodes' codes are distinct. -/
theorem wordSelectsOneCommand : Obligations.WordSelectsOneCommand :=
  ⟨toNat_cmdWord, matchWord_eq_cmdWord, Opcode.getLsbD_maskWord, encode_selects, fun _ _ _ => selects_unique,
    fun _ _ => decode_selects, by decide, by decide⟩

/-- Settles O1: what the step does with the word is `runCommand`, and this is `exec` of the command the word decodes to. -/
theorem stepRunsDecodedCommand : Obligations.StepRunsDecodedCommand := by
  refine ⟨fun s i hr hh => ⟨?_, ?_, ?_⟩, exec_eq_execOn, step_eq_stepOn⟩
  · intro w rest hb hc hi
    exact (step_of_ready ⟨hr, hb, hh⟩ hc).trans (runCommand_ok hi)
  · intro hb hi
    exact (step_of_busy hr hh hb).trans (runCommand_ok hi)
  · exact step_of_no_word hr

/-- Settles O5: each word is evaluated. -/
theorem specWordsDecode : Obligations.SpecWordsDecode := by
  unfold Obligations.SpecWordsDecode
  decide

end Machine

end Sys2Proof
end

section
/-! PROOFS. The bit-buffer commands (spec/40_bit_buffer.md): what each shape of command does with its registers open, closed or
failing its check, what `Len` and the rotations do, and from these the next state of each command. -/

namespace Sys2Proof.Machine

/-! ## The next states written out -/

/-- Fault entry is the state the statements write out (60_exceptions.md R203). -/
theorem raise_eq_faulted (s : State) (c : FaultCode) : s.raise c = s.faulted c.code := rfl

/-- A command that ends with a write of `rd` leaves the state the statements write out. -/
theorem done_writeBuf (s : State) (rd : Reg) (v : Buf) : done (s.writeBuf rd v) = .next (s.afterBuf rd v) := rfl

@[simp] theorem afterBuf_self (s : State) (rd : Reg) (v : Buf) :
    (s.afterBuf rd v).bufs[rd] = { isOpen := true, v := v } :=
  State.writeBuf_self s rd v

@[simp] theorem afterBuf_afterBuf (s : State) (rd : Reg) (v u : Buf) :
    (s.afterBuf rd v).afterBuf rd u = s.afterBuf rd u := by
  simp [State.afterBuf]

/-- To write an open register its own value is to write nothing. -/
theorem afterBuf_own {s : State} {rd : Reg} (h : s.bufs[rd].isOpen = true) : s.afterBuf rd s.bufs[rd].v = s.ended := by
  have own : ({ isOpen := true, v := s.bufs[rd].v } : BufReg) = s.bufs[rd] := by rw [← h]
  rw [State.afterBuf, own, State.ended]
  congr 1
  exact Vector.set_getElem_self rd.isLt

/-! ## Commands by the registers they read -/

/-- Of two registers read one after the other, it does not matter which is closed (40_bit_buffer.md R100 item 2). -/
theorem withBuf_pair_closed {a b r : Reg} {s : State} (k : Buf → Buf → Result) (hr : r ∈ [a, b])
    (h : s.bufs[r].isOpen = false) : (withBuf a s fun d => withBuf b s (k d)) = .next (s.raise .arg) := by
  cases ha : s.bufs[a].isOpen with
  | false => exact withBuf_closed _ ha
  | true =>
    have hb : s.bufs[b].isOpen = false := by
      rcases List.mem_pair.1 hr with rfl | rfl
      · rw [ha] at h
        cases h
      · exact h
    rw [withBuf_open _ ha, withBuf_closed _ hb]

theorem withBuf_pair_open {a b : Reg} {s : State} (k : Buf → Buf → Result) (ha : s.bufs[a].isOpen = true)
    (hb : s.bufs[b].isOpen = true) : (withBuf a s fun d => withBuf b s (k d)) = k s.bufs[a].v s.bufs[b].v := by
  rw [withBuf_open _ ha, withBuf_open _ hb]

theorem mutate_open {rd : Reg} {s : State} (f : Buf → Buf) (h : s.bufs[rd].isOpen = true) :
    mutate rd f s = .next (s.afterBuf rd (f s.bufs[rd].v)) :=
  withBuf_open _ h

theorem combine_open {rd rs : Reg} {s : State} (f : Buf → Buf → Buf) (hd : s.bufs[rd].isOpen = true)
    (hs : s.bufs[rs].isOpen = true) : combine rd rs f s = .next (s.afterBuf rd (f s.bufs[rd].v s.bufs[rs].v)) :=
  withBuf_pair_open _ hd hs

/-- A command that measures an open register writes `RES` alone. -/
theorem withBuf_writeRes_open {rd : Reg} {s : State} (f : Buf → BitVec 7) (h : s.bufs[rd].isOpen = true) :
    (withBuf rd s fun d => done (s.writeRes (f d))) = .next { s.ended with res := f s.bufs[rd].v } :=
  withBuf_open _ h

/-- A command reads no register, or one before anything else, or two before anything else (40_bit_buffer.md R100). -/
theorem execOn_closed (B : Build) {i : Instr} {s : State} {r : Reg} (hr : r ∈ i.reads) (hc : s.bufs[r].isOpen = false) :
    execOn B i s = .next (s.raise .arg) := by
  cases i with
  | new | ldb | close | dbg | ldk | kclose | encs | decs => cases hr
  | clone | clr | setb | flipb | getb | setr | flipr | getr | rol | ror | len | stb | perm | sbox | sub6 | kse | ksd =>
    obtain rfl := List.mem_singleton.1 hr
    simp only [execOn, execClr, execSetb, execFlipb, kseOn, ksdOn]
    exact withBuf_closed _ hc
  | copy | and | or | xor | andn | ovw | ffn | encb | decb =>
    simp only [execOn, execCopy, execAnd, execOr, execXor, execAndn, ffnOn, encbOn, decbOn]
    exact withBuf_pair_closed _ hr hc

/-- A check that holds lets the command go on. -/
theorem require_of_true {ok : Bool} (c : FaultCode) (s : State) (k : Result) (h : ok = true) : require ok c s k = k := by
  rw [h, require_true]

/-- A check that fails is the fault. -/
theorem require_of_false {ok : Bool} (c : FaultCode) (s : State) (k : Result) (h : ok = false) :
    require ok c s k = .next (s.faulted c.code) := by
  rw [h, require_false, raise_eq_faulted]

/-- The commands that read `rs`, check their numbers and write `rd`: the check holds. -/
theorem withBuf_require_of_true {rs rd : Reg} {s : State} {ok : Bool} {c : FaultCode} (f : Buf → Buf)
    (h : s.bufs[rs].isOpen = true) (hok : ok = true) :
    (withBuf rs s fun x => require ok c s (done (s.writeBuf rd (f x)))) = .next (s.afterBuf rd (f s.bufs[rs].v)) := by
  rw [withBuf_open _ h, require_of_true _ _ _ hok, done_writeBuf]

/-- The commands that read `rs`, check their numbers and write `rd`: the check fails. -/
theorem withBuf_require_of_false {rs rd : Reg} {s : State} {ok : Bool} {c : FaultCode} (f : Buf → Buf)
    (h : s.bufs[rs].isOpen = true) (hok : ok = false) :
    (withBuf rs s fun x => require ok c s (done (s.writeBuf rd (f x)))) = .next (s.faulted c.code) := by
  rw [withBuf_open _ h, require_of_false _ _ _ hok]

theorem rangeOk_of_le {lo hi : BitVec 7} (h : lo.toNat ≤ hi.toNat) : rangeOk lo hi = true := decide_eq_true h

theorem rangeOk_of_lt {lo hi : BitVec 7} (h : hi.toNat < lo.toNat) : rangeOk lo hi = false :=
  decide_eq_false (Nat.not_le.2 h)

/-! ## Positions -/

/-- To flip the positions of `P` is an exclusive or with `P`. -/
theorem ite_not_eq_xor (P : Prop) [Decidable P] (b : Bool) : (if P then !b else b) = (b ^^ decide P) := by
  by_cases h : P <;> simp [h]

/-- 00_scope.md R11, for every bound: positions of the result at and above 64 do not exist. -/
theorem getLsbD_subRange_of_lt (v : Buf) (lo hi : Nat) {i : Nat} (h : i < 64) :
    (subRange v lo hi).getLsbD i = (decide (i < hi - lo) && v.getLsbD (lo + i)) := by
  rw [subRange, getLsbD_ofBits, decide_eq_true h, Bool.true_and]

theorem resOfBit_eq (b : Bool) : resOfBit b = if b then 1#7 else 0#7 := by
  cases b <;> rfl

/-- 00_scope.md R12: no position from `Len` on is set. -/
theorem getLsbD_of_len_le {v : Buf} {i : Nat} (h : len v ≤ i) : v.getLsbD i = false := by
  unfold len at h
  split at h
  · next h0 =>
    rw [h0]
    exact BitVec.getLsbD_zero
  · have hlt : v.toNat < 2 ^ i := Nat.lt_of_lt_of_le Nat.lt_log2_self (Nat.pow_le_pow_right (by decide) h)
    exact Nat.testBit_eq_false_of_lt hlt

/-- 00_scope.md R12: the position before `Len` is set. -/
theorem getLsbD_len_sub_one {v : Buf} (h : 0 < len v) : v.getLsbD (len v - 1) = true := by
  unfold len at h ⊢
  split at h
  · cases h
  · next h0 =>
    rw [if_neg h0, Nat.add_sub_cancel]
    exact Nat.testBit_log2 fun e => h0 (BitVec.eq_of_toNat_eq e)

/-! ## Rotations -/

/-- Two rotations that together go once round the ring end where they began. -/
theorem ring_round {m n ring i : Nat} (h : m + n = ring) (hi : i < ring) : ((i + n) % ring + m) % ring = i := by
  rw [Nat.mod_add_mod, Nat.add_assoc, Nat.add_comm n m, h, Nat.add_mod_right, Nat.mod_eq_of_lt hi]

/-- 40_bit_buffer.md R123: to rotate away from position 0 is to rotate toward it by the rest of the ring. -/
theorem rotRight_eq_rotLeft (v : Buf) {n ring : Nat} (hn : n ≤ ring) : rotRight v n ring = rotLeft v (ring - n) ring :=
  buf_ext fun i hi => by rw [getLsbD_rotRight v n ring i hi hn, getLsbD_rotLeft v _ ring i hi]

/-- 40_bit_buffer.md R123: rotations that together go once round the ring change nothing. -/
theorem rotLeft_rotLeft (v : Buf) {m n ring : Nat} (h : m + n = ring) (hr : ring ≤ 64) :
    rotLeft (rotLeft v m ring) n ring = v := by
  refine buf_ext fun i hi => ?_
  rw [getLsbD_rotLeft _ n ring i hi]
  by_cases hring : i < ring
  · have hj : (i + n) % ring < ring := Nat.mod_lt _ (by omega)
    rw [if_pos hring, getLsbD_rotLeft v m ring _ (by omega), if_pos hj, ring_round h hring]
  · rw [if_neg hring, getLsbD_rotLeft v m ring i hi, if_neg hring]

theorem rotRight_rotLeft (v : Buf) {n ring : Nat} (hn : n ≤ ring) (hr : ring ≤ 64) :
    rotRight (rotLeft v n ring) n ring = v := by
  rw [rotRight_eq_rotLeft _ hn, rotLeft_rotLeft v (by omega) hr]

theorem rotLeft_rotRight (v : Buf) {n ring : Nat} (hn : n ≤ ring) (hr : ring ≤ 64) :
    rotLeft (rotRight v n ring) n ring = v := by
  rw [rotRight_eq_rotLeft _ hn, rotLeft_rotLeft v (by omega) hr]

/-- 40_bit_buffer.md R119: `new[(i + n) mod ring] = old[i]`, and the positions from `ring` on stay. -/
theorem rotRight_moves (v : Buf) {n ring i : Nat} (hn : n ≤ ring) (hr : ring ≤ 64) (hi : i < 64) :
    if i < ring then (rotRight v n ring).getLsbD ((i + n) % ring) = v.getLsbD i
    else (rotRight v n ring).getLsbD i = v.getLsbD i := by
  have back := getLsbD_rotLeft (rotRight v n ring) n ring i hi
  rw [rotLeft_rotRight v hn hr] at back
  by_cases hring : i < ring
  · rw [if_pos hring] at back ⊢
    exact back.symm
  · rw [if_neg hring] at back ⊢
    exact back.symm

theorem exec_rol {rd : Reg} {n ring : BitVec 7} {s : State} (h : s.bufs[rd].isOpen = true) (hn : n.toNat ≤ ring.toNat) :
    exec (.rol rd n ring) s = .next (s.afterBuf rd (rotLeft s.bufs[rd].v n.toNat ring.toNat)) :=
  withBuf_require_of_true (fun d => rotLeft d n.toNat ring.toNat) h (decide_eq_true hn)

theorem exec_ror {rd : Reg} {n ring : BitVec 7} {s : State} (h : s.bufs[rd].isOpen = true) (hn : n.toNat ≤ ring.toNat) :
    exec (.ror rd n ring) s = .next (s.afterBuf rd (rotRight s.bufs[rd].v n.toNat ring.toNat)) :=
  withBuf_require_of_true (fun d => rotRight d n.toNat ring.toNat) h (decide_eq_true hn)

/-! ## Reading and writing the ports -/

theorem exec_ldb (rd : Reg) (n : BitVec 4) (s : State) :
    exec (.ldb rd n) s = withRead n.toNat s fun bs t => .next (t.afterBuf rd (fromBytes .msbFirst bs)) := rfl

theorem exec_stb_open {rs : Reg} {s : State} (n : BitVec 4) (h : s.bufs[rs].isOpen = true) :
    exec (.stb rs n) s = withWrite (toBytes .msbFirst s.bufs[rs].v n.toNat) s done :=
  withBuf_open (fun x => withWrite (toBytes .msbFirst x n.toNat) s done) h

/-- 40_bit_buffer.md R122, 60_exceptions.md R206: in test mode `DBG` writes the storage of the register it names. -/
theorem exec_dbg_test {rs : Reg} {sel : Bool} {s : State} (ht : s.test = true) (hsel : sel = true → rs = 0) :
    exec (.dbg rs sel) s = withWrite (toBytes .msbFirst (if sel then s.key.v else s.bufs[rs].v) 8) s done := by
  refine require_of_true _ _ _ ?_
  cases sel with
  | false => rw [ht]; rfl
  | true => rw [ht, hsel rfl]; rfl

theorem exec_dbg_normal (rs : Reg) (sel : Bool) {s : State} (ht : s.test = false) :
    exec (.dbg rs sel) s = .next (s.faulted 4#3) :=
  require_of_false .illegal _ _ (by rw [ht, Bool.false_and])

theorem toBytes_ne_nil (order : BitOrder) (v : Buf) {n : Nat} (h : 0 < n) : toBytes order v n ≠ [] :=
  List.ne_nil_of_length_pos (by rwa [length_toBytes])

/-- A command that ends with a write of `n` bytes of `v` which the host accepts. -/
theorem withWrite_toBytes_ok (v : Buf) {n : Nat} {s : State} (hn : 0 < n) (h : s.WriteOk) :
    ∃ bs, Renders bs v n ∧ withWrite (toBytes .msbFirst v n) s done =
      .next { s.ended with out := s.out ++ bs, nwrites := s.nwrites + 1 } :=
  ⟨_, renders_toBytes v n, withWrite_ok done (toBytes_ne_nil .msbFirst v hn) h⟩

/-- A command that ends with a write of `n` bytes of `v` which the host fails. -/
theorem withWrite_toBytes_failed (v : Buf) {n : Nat} {s : State} (hn : 0 < n) (h : s.outFail = some s.nwrites) :
    withWrite (toBytes .msbFirst v n) s done = .next ({ s with nwrites := s.nwrites + 1 }.faulted 2#3) :=
  withWrite_failed done (toBytes_ne_nil .msbFirst v hn) h

/-! ## The obligations -/

/-- Settles O23: every command reads its registers before anything else. -/
theorem closedOperandFaults : Obligations.ClosedOperandFaults := fun i s _ hr hc =>
  (exec_eq_execOn i s).trans (execOn_closed Build.des hr hc)

/-- Settles O24: `NEW` and `CLOSE` read nothing, `CLR` mutates its receiver. -/
theorem newClrCloseCommands : Obligations.NewClrCloseCommands := fun rd s =>
  ⟨done_writeBuf s rd 0, mutate_open (fun _ => 0), closedOperandFaults (.clr rd) s rd (List.mem_singleton_self rd), rfl⟩

/-- Settles O26: `CLONE` reads its source alone, `COPY` its receiver as well. -/
theorem cloneCopyCommands : Obligations.CloneCopyCommands := by
  intro rd rs s hs
  refine ⟨withBuf_open (fun x => done (s.writeBuf rd x)) hs, fun hd => ?_,
    closedOperandFaults (.copy rd rs) s rd List.mem_cons_self⟩
  rw [← BitVec.zero_or (x := s.bufs[rs].v)]
  exact combine_open (fun _ x => 0 ||| x) hd hs

/-- Settles O25: what stands after the bytes at the front of the queue decides the read. -/
theorem ldbCommand : Obligations.LdbCommand := by
  intro rd n s _
  rw [exec_ldb]
  refine ⟨fun bs rest hn hq => ⟨_, holdsBytes_fromBytes bs, ?_⟩,
    fun bs rest hn hq => ⟨_, holdsBytes_fromBytes bs, withRead_eos _ hn hq⟩,
    fun bs rest hn hq => withRead_err _ hn hq, fun bs hn hq => withRead_starved _ hn hq⟩
  rw [← hn]
  exact withRead_full _ hq

/-- Settles O27: both commands mutate their receiver at one position. -/
theorem singleBitCommands : Obligations.SingleBitCommands := by
  intro rd p b s h
  refine ⟨⟨_, getLsbD_setBit _ _ b, mutate_open (fun d => setBit d p.toNat b) h⟩,
    ⟨_, fun i hi => ?_, mutate_open (fun d => flipBit d p.toNat) h⟩⟩
  rw [getLsbD_flipBit _ _ i hi, ite_not_eq_xor]

/-- Settles O28: `RES` takes the bit, or `Len`, which marks the highest set position. -/
theorem resultCommands : Obligations.ResultCommands := by
  intro rd p s h
  refine ⟨?_, resOfLen s.bufs[rd].v, ?_⟩
  · rw [← resOfBit_eq]
    exact withBuf_writeRes_open (fun d => resOfBit (d.getLsbD p.toNat)) h
  · rw [toNat_resOfLen]
    exact ⟨len_le _, fun _ => getLsbD_of_len_le, getLsbD_len_sub_one, withBuf_writeRes_open resOfLen h⟩

/-- Settles O29: both commands check the range and change their receiver over it. -/
theorem rangeCommands : Obligations.RangeCommands := by
  intro rd lo hi b s h
  constructor
  · intro hle
    have hok := rangeOk_of_le hle
    refine ⟨⟨_, getLsbD_setRange _ _ _ b, withBuf_require_of_true (fun d => setRange d lo.toNat hi.toNat b) h hok⟩,
      ⟨_, fun i hi => ?_, withBuf_require_of_true (fun d => flipRange d lo.toNat hi.toNat) h hok⟩⟩
    rw [getLsbD_flipRange _ _ _ i hi, ite_not_eq_xor]
  · intro hlt
    have hfails := rangeOk_of_lt hlt
    exact ⟨withBuf_require_of_false (fun d => setRange d lo.toNat hi.toNat b) h hfails,
      withBuf_require_of_false (fun d => flipRange d lo.toNat hi.toNat) h hfails⟩

/-- Settles O30: `GETR` checks the range and writes the sub-range of its source. -/
theorem getrCommand : Obligations.GetrCommand := fun _ _ lo hi _ h =>
  ⟨fun hle => ⟨_, fun _ => getLsbD_subRange_of_lt _ _ _,
      withBuf_require_of_true (fun x => subRange x lo.toNat hi.toNat) h (rangeOk_of_le hle)⟩,
    fun hlt => withBuf_require_of_false (fun x => subRange x lo.toNat hi.toNat) h (rangeOk_of_lt hlt)⟩

/-- Settles O31: each command combines its receiver with its source by the operation of that name on all 64 positions. -/
theorem logicCommands : Obligations.LogicCommands := by
  intro rd rs s hd hs
  refine ⟨⟨_, fun i _ => BitVec.getLsbD_and, combine_open _ hd hs⟩,
    ⟨_, fun i _ => BitVec.getLsbD_or, combine_open _ hd hs⟩,
    ⟨_, fun i _ => BitVec.getLsbD_xor, combine_open _ hd hs⟩,
    ⟨_, fun i hi => ?_, combine_open (fun d x => d &&& ~~~x) hd hs⟩⟩
  rw [BitVec.getLsbD_and, BitVec.getLsbD_not, decide_eq_true hi, Bool.true_and]

/-- Settles O32: with both registers open the capacity decides. -/
theorem ovwCommand : Obligations.OvwCommand := by
  intro rd rs pos sfrom n s hd hs
  have read : exec (.ovw rd rs pos sfrom n) s = require (pos.toNat + n.toNat ≤ Config.cap) .cap s
      (done (s.writeBuf rd (overwrite s.bufs[rd].v s.bufs[rs].v pos.toNat sfrom.toNat n.toNat))) := by
    simp only [exec]
    exact withBuf_pair_open _ hd hs
  refine ⟨fun hle => ⟨_, getLsbD_overwrite _ _ _ _ _, ?_⟩, fun hlt => ?_⟩
  · exact read.trans (require_of_true _ _ _ (decide_eq_true hle))
  · exact read.trans (require_of_false _ _ _ (decide_eq_false (Nat.not_le.2 hlt)))

/-- Settles O33: both commands check `n` against the ring and rotate it. -/
theorem rotateCommands : Obligations.RotateCommands := fun _ n ring _ h =>
  ⟨fun hn hr => ⟨⟨_, getLsbD_rotLeft _ _ _, exec_rol h hn⟩, ⟨_, fun _ => rotRight_moves _ hn hr, exec_ror h hn⟩⟩,
    fun hlt =>
      have hfails := decide_eq_false (Nat.not_le.2 hlt)
      ⟨withBuf_require_of_false (fun d => rotLeft d n.toNat ring.toNat) h hfails,
        withBuf_require_of_false (fun d => rotRight d n.toNat ring.toNat) h hfails⟩⟩

/-- Settles O34: the two rotations undo each other on the value, and the register was open before. -/
theorem rotateInverse : Obligations.RotateInverse := by
  intro rd n ring s h hn hr
  have isOpen (v : Buf) : (s.afterBuf rd v).bufs[rd].isOpen = true := by rw [afterBuf_self]
  refine ⟨⟨_, exec_rol h hn, ?_⟩, ⟨_, exec_ror h hn, ?_⟩, ?_⟩
  · rw [exec_ror (isOpen _) hn, afterBuf_self, rotRight_rotLeft _ hn hr, afterBuf_afterBuf, afterBuf_own h]
  · rw [exec_rol (isOpen _) hn, afterBuf_self, rotLeft_rotRight _ hn hr, afterBuf_afterBuf, afterBuf_own h]
  · have hsub : (ring - n).toNat = ring.toNat - n.toNat := BitVec.toNat_sub_of_le (BitVec.le_def.2 hn)
    rw [exec_rol h hn, exec_ror h (by omega), hsub, rotRight_eq_rotLeft _ (Nat.sub_le ..), Nat.sub_sub_self hn]

/-- Settles O35: a write of no byte is no write, and the host accepts or fails any other. -/
theorem stbCommand : Obligations.StbCommand := by
  intro rs n s h
  rw [exec_stb_open n h]
  refine ⟨fun h0 => ?_, fun hn => withWrite_toBytes_ok _ hn, fun hn => withWrite_toBytes_failed _ hn⟩
  rw [h0]
  exact withWrite_nil s done

/-- Settles O36: the mode decides whether there is a write, and the host accepts or fails it. -/
theorem dbgCommand : Obligations.DbgCommand := by
  intro rs sel s hsel
  refine ⟨fun ht => ?_, fun ht => ?_, exec_dbg_normal rs sel⟩ <;> rw [exec_dbg_test ht hsel]
  · exact withWrite_toBytes_ok _ (by decide)
  · exact withWrite_toBytes_failed _ (by decide)

end Sys2Proof.Machine
end

section
/-! PROOFS. The permutation network (spec/41_permutation.md): what `PERM` writes, that `FP` and `IP` undo each other, and that
`PC1` selects no parity position, so that the parity positions of a key reach no round. -/

namespace Sys2Proof.Machine

/-! ## Selections of positions -/

theorem permutes_permute (v : Buf) (T : List Nat) : Permutes (permute 64 v T) v T := fun i hi => by
  rw [getLsbD_permute, decide_eq_true hi, Bool.true_and]

/-- The selection by `U` undoes the one by `T` when `T` is the inverse of `U` as a table (41_permutation.md R133). -/
theorem permute_permute_inverse {T U : List Nat} (hT : T.length = 64) (hU : U.length = 64)
    (h : ∀ i, i < 64 → U.getD i 0 < 64 ∧ T.getD (U.getD i 0) 0 = i) (v : Buf) :
    permute 64 (permute 64 v T) U = v := by
  refine buf_ext fun i hi => ?_
  obtain ⟨hlt, hinv⟩ := h i hi
  simp only [getLsbD_permute, hT, hU, hi, hlt, hinv, decide_true, Bool.true_and]

theorem gather_congr {w : Nat} {v v' : BitVec w} {T : List Nat} (h : ∀ p ∈ T, v.getLsbD p = v'.getLsbD p) :
    gather v T = gather v' T := by
  induction T with
  | nil => rfl
  | cons p ps ih =>
    obtain ⟨hp, hps⟩ := List.forall_mem_cons.1 h
    rw [gather, gather, hp, ih hps]

/-- A selection sees no position that its table does not name (41_permutation.md R130). -/
theorem permute_congr {w : Nat} (m : Nat) {v v' : BitVec w} {T : List Nat} (h : ∀ p ∈ T, v.getLsbD p = v'.getLsbD p) :
    permute m v T = permute m v' T :=
  congrArg (BitVec.ofNat m) (gather_congr h)

/-- `PERM` with an open receiver, on any build (41_permutation.md R132). -/
theorem execOn_perm_open (B : Build) {rd : Reg} (t : PermTable) {s : State} (h : s.bufs[rd].isOpen = true) :
    execOn B (.perm rd t) s = .next (s.afterBuf rd (permute 64 s.bufs[rd].v (Tables.perm B.tables t))) :=
  mutate_open (fun old => permute 64 old (Tables.perm B.tables t)) h

/-! ## The tables of this hardware -/

/-- 41_permutation.md R133. -/
theorem fp_inverts_ip : ∀ i, i < 64 → Rom.ip.getD i 0 < 64 ∧ Rom.fp.getD (Rom.ip.getD i 0) 0 = i := by decide

/-- 41_permutation.md R133. -/
theorem ip_inverts_fp : ∀ i, i < 64 → Rom.fp.getD i 0 < 64 ∧ Rom.ip.getD (Rom.fp.getD i 0) 0 = i := by decide

/-- `PC1` drops the eight parity positions (41_permutation.md R131). -/
theorem pc1_names_no_parity : ∀ p ∈ Rom.pc1, p < 64 ∧ p % 8 ≠ 7 := by decide

/-! ## The parity positions of a key -/

/-- The state of the key schedule in round 0 does not see the parity positions. -/
theorem permute_pc1_congr {k k' : Buf} (h : ∀ p, p < 64 → p % 8 ≠ 7 → k.getLsbD p = k'.getLsbD p) :
    permute 64 k Rom.pc1 = permute 64 k' Rom.pc1 :=
  permute_congr 64 fun p hp =>
    have ⟨hlt, hpar⟩ := pc1_names_no_parity p hp
    h p hlt hpar

/-- In round 0 the forward hook reads the key through `PC1` alone (43_key_schedule.md R152). -/
theorem roundKey_zero_congr {T : Tables} {k k' : Buf} (h : permute 64 k T.pc1 = permute 64 k' T.pc1) :
    roundKey T k 0 = roundKey T k' 0 := by
  simp only [roundKey, if_true, h]

/-- In round 0 the reverse hook reads the key through `PC1` alone (43_key_schedule.md R153). -/
theorem roundKeyDecrypt_zero_congr {T : Tables} {k k' : Buf} (h : permute 64 k T.pc1 = permute 64 k' T.pc1) :
    roundKeyDecrypt T k 0 = roundKeyDecrypt T k' 0 := by
  simp only [roundKeyDecrypt, if_true, h]

/-- The first round reads the key through its hook alone and replaces it by the state the hook gives (44_feistel.md R162). -/
theorem roundStep_loadBlock_congr (half : Nat) (h : Hooks) {keyHook : Buf → Nat → Buf × BitVec 48} (b : Buf) {k k' : Buf}
    (hk : keyHook k 0 = keyHook k' 0) :
    roundStep h keyHook (loadBlock half h b k) = roundStep h keyHook (loadBlock half h b k') := by
  simp [roundStep, loadBlock, hk]

/-- Keys that the key hook of round 0 does not tell apart give the same blocks, on any build. -/
theorem cryptBlock_congr (B : Build) {keyHook : Buf → Nat → Buf × BitVec 48} (b : Buf) {k k' : Buf}
    (hk : keyHook k 0 = keyHook k' 0) : cryptBlock B keyHook b k = cryptBlock B keyHook b k' := by
  unfold cryptBlock
  cases B.rounds with
  | zero => rfl
  | succ n => rw [rounds, rounds, roundStep_loadBlock_congr _ _ b hk]

/-! ## The obligations -/

/-- Settles O40: `PERM` writes the selection of its receiver by the table it names, on every build and so on this one. -/
theorem permCommand : Obligations.PermCommand := by
  have onBuild (B : Build) (rd : Reg) (t : PermTable) (s : State) (h : s.bufs[rd].isOpen = true) :
      ∃ v, Permutes v s.bufs[rd].v (Tables.perm B.tables t) ∧ execOn B (.perm rd t) s = .next (s.afterBuf rd v) :=
    ⟨_, permutes_permute _ _, execOn_perm_open B t h⟩
  refine ⟨fun rd t s h => ?_, onBuild, rfl, rfl, rfl, rfl, rfl, rfl⟩
  rw [exec_eq_execOn]
  exact onBuild Build.des rd t s h

/-- Settles O41: the tables are inverse to each other, hence the permutations are. -/
theorem finalUndoesInitial : Obligations.FinalUndoesInitial :=
  ⟨fun i hi => ⟨(fp_inverts_ip i hi).right, (ip_inverts_fp i hi).right⟩, permute_permute_inverse rfl rfl ip_inverts_fp,
    permute_permute_inverse rfl rfl fp_inverts_ip⟩

/-- Settles O49: both hooks read the key through `PC1` in round 0, and no later round reads the key. -/
theorem parityHasNoEffect : Obligations.ParityHasNoEffect := by
  intro k k' h
  have compressed := permute_pc1_congr h
  have forward : roundKey Rom.des k 0 = roundKey Rom.des k' 0 := roundKey_zero_congr compressed
  have reverse : roundKeyDecrypt Rom.des k 0 = roundKeyDecrypt Rom.des k' 0 := roundKeyDecrypt_zero_congr compressed
  exact ⟨forward, reverse, fun b => ⟨cryptBlock_congr Build.des b forward, cryptBlock_congr Build.des b reverse⟩⟩

end Sys2Proof.Machine
end

section
/-! PROOFS. The substitution tables (spec/42_substitution.md): what `SBOX` and `SUB6` leave in their receiver. -/

namespace Sys2Proof.Machine

/-- 42_substitution.md R140: the entry widened to a register, zero above its four positions. -/
theorem holdsEntry_sEntry (k x y : Nat) : HoldsEntry ((sEntry Rom.des k x y).setWidth 64) k x y := fun i hi => by
  rw [BitVec.getLsbD_setWidth, decide_eq_true hi, Bool.true_and, getLsbD_sEntry]

/-- The row read off the first six positions of a register (42_substitution.md R143). -/
theorem sixRow_setWidth (v : Buf) : sixRow (v.setWidth 6) = 2 * (v.getLsbD 0).toNat + (v.getLsbD 5).toNat := by
  simp [sixRow]

/-- The column read off the first six positions of a register (42_substitution.md R143). -/
theorem sixColumn_setWidth (v : Buf) : sixColumn (v.setWidth 6) =
    8 * (v.getLsbD 1).toNat + 4 * (v.getLsbD 2).toNat + 2 * (v.getLsbD 3).toNat + (v.getLsbD 4).toNat := by
  simp [sixColumn]

/-- 42_substitution.md R143: what `SUB6` makes of its receiver's old value. -/
theorem holdsEntry_sub6 (k : Nat) (v : Buf) : HoldsEntry ((sub6 Rom.des k (v.setWidth 6)).setWidth 64) k
    (8 * (v.getLsbD 1).toNat + 4 * (v.getLsbD 2).toNat + 2 * (v.getLsbD 3).toNat + (v.getLsbD 4).toNat)
    (2 * (v.getLsbD 0).toNat + (v.getLsbD 5).toNat) := by
  rw [sub6, sixColumn_setWidth, sixRow_setWidth]
  exact holdsEntry_sEntry k _ _

/-- Settles O42: both commands mutate their receiver, `SBOX` without regard to its old value. -/
theorem substitutionCommands : Obligations.SubstitutionCommands := fun _ k x y _ h =>
  ⟨⟨_, holdsEntry_sEntry _ _ _, mutate_open (fun _ => (sEntry Rom.des k.toNat x.toNat y.toNat).setWidth 64) h⟩,
    ⟨_, holdsEntry_sub6 _ _, mutate_open (fun old => (sub6 Rom.des k.toNat (old.setWidth 6)).setWidth 64) h⟩⟩

end Sys2Proof.Machine
end

section
/-! PROOFS. The key schedule (spec/43_key_schedule.md): what `KSE` and `KSD` write, that rotations of the halves add up, and that
the reverse hook goes back through the states of the forward one. -/

namespace Sys2Proof.Machine

/-! ## The shape of the two commands -/

/-- Both commands with an open state register and another register for the round key (43_key_schedule.md R152, R153). -/
theorem keyHook_of_ne (hook : Buf → Nat → Buf × BitVec 48) {rd rs : Reg} (r : BitVec 4) {s : State}
    (h : s.bufs[rs].isOpen = true) (hne : rd ≠ rs) : keyHook hook rd rs r s =
      .next ((s.afterBuf rs (hook s.bufs[rs].v r.toNat).1).afterBuf rd ((hook s.bufs[rs].v r.toNat).2.setWidth 64)) :=
  (withBuf_open _ h).trans (require_of_true _ _ _ (bne_iff_ne.2 hne))

/-- Both commands refuse to write the round key over the state (43_key_schedule.md R152, R153). -/
theorem keyHook_of_eq (hook : Buf → Nat → Buf × BitVec 48) {rd rs : Reg} (r : BitVec 4) {s : State}
    (h : s.bufs[rs].isOpen = true) (heq : rd = rs) : keyHook hook rd rs r s = .next (s.faulted 1#3) :=
  (withBuf_open _ h).trans (require_of_false .arg _ _ (bne_eq_false_iff_eq.2 heq))

/-- A selection of at most `m` positions loses nothing when it is computed with `m` positions and widened to a register. -/
theorem permutes_setWidth {m : Nat} (v : Buf) {T : List Nat} (h : T.length ≤ m) :
    Permutes ((permute m v T).setWidth 64) v T := fun i hi => by
  by_cases hT : i < T.length
  · have hm : i < m := Nat.lt_of_lt_of_le hT h
    simp only [BitVec.getLsbD_setWidth, getLsbD_permute, hi, hm, decide_true, Bool.true_and]
  · simp only [BitVec.getLsbD_setWidth, getLsbD_permute, hT, decide_false, Bool.false_and, Bool.and_false]

/-! ## Rotations of the two halves -/

/-- The position that a left rotation of the halves by `n` brings to position `i` (43_key_schedule.md R151). -/
def halvesSource (n i : Nat) : Nat :=
  if i < 28 then (i + n) % 28 else if i < 56 then 28 + (i - 28 + n) % 28 else i

theorem getLsbD_rotHalvesLeft_source (s : Buf) (n : Nat) {i : Nat} (h : i < 64) :
    (rotHalvesLeft s n).getLsbD i = s.getLsbD (halvesSource n i) := by
  rw [getLsbD_rotHalvesLeft s n i h, halvesSource, apply_ite s.getLsbD, apply_ite s.getLsbD]

theorem halvesSource_lt (n : Nat) {i : Nat} (h : i < 64) : halvesSource n i < 64 := by
  unfold halvesSource
  split_ifs <;> omega

theorem halvesSource_halvesSource (m n i : Nat) : halvesSource m (halvesSource n i) = halvesSource (m + n) i := by
  unfold halvesSource
  split_ifs <;> omega

theorem halvesSource_round (i : Nat) : halvesSource 28 i = i := by
  unfold halvesSource
  split_ifs <;> omega

/-- Rotations of the halves add up (43_key_schedule.md R156). -/
theorem rotHalvesLeft_rotHalvesLeft (s : Buf) (m n : Nat) :
    rotHalvesLeft (rotHalvesLeft s m) n = rotHalvesLeft s (m + n) :=
  buf_ext fun i hi => by
    rw [getLsbD_rotHalvesLeft_source _ n hi, getLsbD_rotHalvesLeft_source s m (halvesSource_lt n hi),
      halvesSource_halvesSource, getLsbD_rotHalvesLeft_source s _ hi]

/-- A rotation by the width of a half changes nothing (43_key_schedule.md R154). -/
theorem rotHalvesLeft_round (s : Buf) : rotHalvesLeft s 28 = s :=
  buf_ext fun i hi => by rw [getLsbD_rotHalvesLeft_source s 28 hi, halvesSource_round]

theorem rotHalvesRight_eq_rotHalvesLeft (s : Buf) {n : Nat} (hn : n ≤ 28) :
    rotHalvesRight s n = rotHalvesLeft s (28 - n) :=
  buf_ext fun i hi => by rw [getLsbD_rotHalvesRight s n i hi hn, getLsbD_rotHalvesLeft s _ i hi]

theorem rotHalvesRight_rotHalvesLeft (s : Buf) {n : Nat} (hn : n ≤ 28) : rotHalvesRight (rotHalvesLeft s n) n = s := by
  rw [rotHalvesRight_eq_rotHalvesLeft _ hn, rotHalvesLeft_rotHalvesLeft, Nat.add_sub_cancel' hn, rotHalvesLeft_round]

/-! ## The rotation schedule -/

theorem shift_le (r : Nat) : Rom.shift.getD r 0 ≤ 28 := by
  rw [List.getD_eq_getElem?_getD]
  cases h : Rom.shift[r]? with
  | none => exact Nat.zero_le _
  | some n =>
    have bounded : ∀ a ∈ Rom.shift, a ≤ 28 := by decide
    exact bounded n (List.mem_of_getElem? h)

/-- The rotation of the halves after forward round `r`: `SHIFT[0] + … + SHIFT[r]` (43_key_schedule.md R156). -/
def totalShift (r : Nat) : Nat := (Rom.shift.take (r + 1)).sum

theorem totalShift_succ {r : Nat} (h : r + 1 < 16) : totalShift (r + 1) = totalShift r + Rom.shift.getD (r + 1) 0 := by
  rw [totalShift, List.sum_take_succ Rom.shift (r + 1) h, List.getD_eq_getElem Rom.shift 0 h, totalShift]

/-! ## The two schedules run from a key -/

/-- The two hooks run in order from a key are what `scheduled` gives (43_key_schedule.md R155). -/
theorem scheduled_of_run {hook : Buf → Nat → Buf × BitVec 48} {key : Buf} {st : Nat → Buf} {rk : Nat → BitVec 48}
    (h : ∀ r, r < 16 → (st r, rk r) = hook (if r = 0 then key else st (r - 1)) r) :
    ∀ r, r < 16 → scheduled hook key r = (st r, rk r)
  | 0, h0 => (h 0 h0).symm
  | r + 1, hr => by
    have before : (scheduled hook key r).1 = st r := by rw [scheduled_of_run h r (Nat.lt_of_succ_lt hr)]
    rw [scheduled, before]
    exact (h (r + 1) hr).symm

/-- Every forward round key is `PC2` of the state of its round (43_key_schedule.md R152). -/
theorem scheduled_roundKey_key (T : Tables) (key : Buf) (r : Nat) :
    (scheduled (roundKey T) key r).2 = permute 48 (scheduled (roundKey T) key r).1 T.pc2 := by
  cases r <;> rfl

/-- Every reverse round key is `PC2` of the state of its round (43_key_schedule.md R153). -/
theorem scheduled_roundKeyDecrypt_key (T : Tables) (key : Buf) (r : Nat) :
    (scheduled (roundKeyDecrypt T) key r).2 = permute 48 (scheduled (roundKeyDecrypt T) key r).1 T.pc2 := by
  cases r <;> rfl

theorem scheduled_roundKey_succ_state (T : Tables) (key : Buf) (r : Nat) :
    (scheduled (roundKey T) key (r + 1)).1 = rotHalvesLeft (scheduled (roundKey T) key r).1 (T.shift.getD (r + 1) 0) := rfl

theorem scheduled_roundKeyDecrypt_succ_state (T : Tables) (key : Buf) (r : Nat) :
    (scheduled (roundKeyDecrypt T) key (r + 1)).1 =
      rotHalvesRight (scheduled (roundKeyDecrypt T) key r).1 (T.shift.getD (16 - (r + 1)) 0) := rfl

/-- The state after a forward round is the compressed key rotated by all the amounts so far (43_key_schedule.md R156). -/
theorem scheduled_roundKey_state (key : Buf) : ∀ r, r < 16 →
    (scheduled (roundKey Rom.des) key r).1 = rotHalvesLeft (permute 64 key Rom.pc1) (totalShift r)
  | 0, _ => rfl
  | r + 1, hr => by
    rw [scheduled_roundKey_succ_state, scheduled_roundKey_state key r (Nat.lt_of_succ_lt hr), rotHalvesLeft_rotHalvesLeft,
      totalShift_succ hr]
    rfl

/-- The last forward state is the first reverse one, because the sixteen amounts add up to 28 (43_key_schedule.md R154, R156). -/
theorem scheduled_roundKey_last_state (key : Buf) :
    (scheduled (roundKey Rom.des) key 15).1 = permute 64 key Rom.pc1 := by
  have once_round : totalShift 15 = 28 := by decide
  rw [scheduled_roundKey_state key 15 (by decide), once_round, rotHalvesLeft_round]

/-- Each reverse round undoes the rotation of its mirror forward round (43_key_schedule.md R156). -/
theorem scheduled_roundKeyDecrypt_state (key : Buf) : ∀ r, r < 16 →
    (scheduled (roundKeyDecrypt Rom.des) key r).1 = (scheduled (roundKey Rom.des) key (15 - r)).1
  | 0, _ => (scheduled_roundKey_last_state key).symm
  | r + 1, hr => by
    obtain ⟨j, hj⟩ : ∃ j, 15 - r = j + 1 := ⟨14 - r, by omega⟩
    have mirror : 16 - (r + 1) = j + 1 := by omega
    have target : 15 - (r + 1) = j := by omega
    rw [scheduled_roundKeyDecrypt_succ_state, scheduled_roundKeyDecrypt_state key r (Nat.lt_of_succ_lt hr), hj, mirror, target,
      scheduled_roundKey_succ_state]
    exact rotHalvesRight_rotHalvesLeft _ (shift_le (j + 1))

/-- The reverse schedule is the forward one from its end, states and round keys (43_key_schedule.md R155). -/
theorem scheduled_roundKeyDecrypt_eq (key : Buf) {r : Nat} (h : r < 16) :
    scheduled (roundKeyDecrypt Rom.des) key r = scheduled (roundKey Rom.des) key (15 - r) := by
  have state := scheduled_roundKeyDecrypt_state key r h
  refine Prod.ext state ?_
  rw [scheduled_roundKeyDecrypt_key, scheduled_roundKey_key, state]

/-! ## The obligations -/

/-- Settles O43: the state of `KSE` is the compressed key or the register, rotated left, and its round key is `PC2` of it. -/
theorem kseCommand : Obligations.KseCommand := by
  intro rd rs r s h
  refine ⟨fun hne => ⟨_, _, _, ?_, getLsbD_rotHalvesLeft _ _, permutes_setWidth _ (Nat.le_refl 48),
    keyHook_of_ne (roundKey Rom.des) r h hne⟩, keyHook_of_eq (roundKey Rom.des) r h⟩
  split
  · exact permutes_permute _ _
  · rfl

/-- Settles O44: the state of `KSD` is the compressed key or the register rotated right, and its round key is `PC2` of it. -/
theorem ksdCommand : Obligations.KsdCommand := by
  intro rd rs r s h
  refine ⟨fun hne => ⟨_, _, ?_, permutes_setWidth _ (Nat.le_refl 48), keyHook_of_ne (roundKeyDecrypt Rom.des) r h hne⟩,
    keyHook_of_eq (roundKeyDecrypt Rom.des) r h⟩
  unfold roundKeyDecrypt
  split
  · exact permutes_permute _ _
  · exact fun i hi => getLsbD_rotHalvesRight _ _ i hi (shift_le _)

/-- Settles O45: the two runs are those of `scheduled`, and there the reverse hook goes back through the forward states. -/
theorem keyScheduleSymmetry : Obligations.KeyScheduleSymmetry := by
  intro key se sd ke kd forward reverse r hr
  have mirrored : (sd r, kd r) = (se (15 - r), ke (15 - r)) := by
    rw [← scheduled_of_run reverse r hr, ← scheduled_of_run forward (15 - r) (by omega), scheduled_roundKeyDecrypt_eq key hr]
  obtain ⟨states, keys⟩ := Prod.mk.inj mirrored
  exact ⟨keys, states⟩

end Sys2Proof.Machine
end

section
/-! PROOFS. The Feistel unit (spec/44_feistel.md): what `F` computes position by position, the rounds of `ENCB` and `DECB` as
sequences, and that rounds under the round keys in reversed order retrace the halves, so that each block command undoes the
other. -/

namespace Sys2Proof.Machine

/-! ## The shape of the three commands -/

theorem withTwoBufs_of_ne {rd rs rt : Reg} {s : State} (k : Buf → Buf → Result) (hs : s.bufs[rs].isOpen = true)
    (ht : s.bufs[rt].isOpen = true) (h1 : rd ≠ rs) (h2 : rd ≠ rt) :
    withTwoBufs rd rs rt s k = k s.bufs[rs].v s.bufs[rt].v :=
  (withBuf_pair_open _ hs ht).trans <|
    require_of_true _ _ _ (Bool.and_eq_true_iff.2 ⟨bne_iff_ne.2 h1, bne_iff_ne.2 h2⟩)

/-- The result may not overwrite an operand (44_feistel.md R160, R162, R163). -/
theorem withTwoBufs_of_overlap {rd rs rt : Reg} {s : State} (k : Buf → Buf → Result) (hs : s.bufs[rs].isOpen = true)
    (ht : s.bufs[rt].isOpen = true) (h : rd = rs ∨ rd = rt) : withTwoBufs rd rs rt s k = .next (s.faulted 1#3) :=
  (withBuf_pair_open _ hs ht).trans <|
    require_of_false .arg _ _ (Bool.and_eq_false_iff.2 (h.imp bne_eq_false_iff_eq.2 bne_eq_false_iff_eq.2))

/-! ## The round function -/

/-- A widened value reads like the value, zeros above it. -/
theorem getLsbD_setWidth_of_le {w m : Nat} (v : BitVec w) (h : w ≤ m) (p : Nat) :
    (v.setWidth m).getLsbD p = v.getLsbD p := by
  rw [← BitVec.setWidth'_eq h, BitVec.getLsbD_setWidth']

theorem gather_setWidth {w m : Nat} (v : BitVec w) (h : w ≤ m) (T : List Nat) : gather (v.setWidth m) T = gather v T := by
  induction T with
  | nil => rfl
  | cons p ps ih => rw [gather, gather, getLsbD_setWidth_of_le v h, ih]

/-- A selection reads the same zeros above a value as above the value widened (41_permutation.md R134). -/
theorem permute_setWidth {w m : Nat} (n : Nat) (v : BitVec w) (h : w ≤ m) (T : List Nat) :
    permute n (v.setWidth m) T = permute n v T :=
  congrArg (BitVec.ofNat n) (gather_setWidth v h T)

/-- `E` names positions of the right half alone (44_feistel.md R160). -/
theorem e_lt : ∀ i, i < 48 → Rom.e.getD i 0 < 32 := by decide

/-- The value `t` of the round function, the expanded right half with the round key added (44_feistel.md R160). -/
def expandXor (right : BitVec 32) (rk : BitVec 48) : BitVec 48 := permute 48 right Rom.e ^^^ rk

theorem feistelF_eq (right : BitVec 32) (rk : BitVec 48) :
    feistelF Rom.des right rk = permute 32 (substitute Rom.des (expandXor right rk)) Rom.p := rfl

/-- The first 32 positions of `x` and the first 48 of `y` are the ones used (44_feistel.md R160). -/
theorem getLsbD_expandXor (x y : Buf) {i : Nat} (h : i < 48) :
    (expandXor (x.setWidth 32) (y.setWidth 48)).getLsbD i = (x.getLsbD (Rom.e.getD i 0) ^^ y.getLsbD i) := by
  have length : Rom.e.length = 48 := rfl
  simp only [expandXor, BitVec.getLsbD_xor, getLsbD_permute, BitVec.getLsbD_setWidth, length, h, e_lt i h, decide_true,
    Bool.true_and]

/-- A value made of groups of four has the one appended last for its group 0 and the others after it. -/
theorem getLsbD_append_group {w : Nat} (x : BitVec w) (y : BitVec 4) (g : Nat) {j : Nat} (h : j < 4) :
    (x ++ y).getLsbD (4 * g + j) = if g = 0 then y.getLsbD j else x.getLsbD (4 * (g - 1) + j) := by
  rw [BitVec.getLsbD_append]
  split_ifs
  · next h0 => rw [h0, Nat.mul_zero, Nat.zero_add]
  · omega
  · omega
  · congr 1
    omega

/-- Group `g` goes through box `S(g+1)` to positions `4g..4g+3` (44_feistel.md R160). -/
theorem getLsbD_substitute (T : Tables) (t : BitVec 48) {g j : Nat} (hg : g < 8) (hj : j < 4) :
    (substitute T t).getLsbD (4 * g + j) = (sub6 T g (t.extractLsb' (6 * g) 6)).getLsbD j := by
  simp only [substitute, getLsbD_append_group _ _ _ hj]
  interval_cases g <;> simp

/-- The entry that the six positions from `lo` up select (42_substitution.md R143). -/
theorem getLsbD_sub6_extract (T : Tables) (k : Nat) (t : BitVec 48) (lo : Nat) {j : Nat} (h : j < 4) :
    (sub6 T k (t.extractLsb' lo 6)).getLsbD j =
      (sboxEntry T k
        (8 * (t.getLsbD (lo + 1)).toNat + 4 * (t.getLsbD (lo + 2)).toNat + 2 * (t.getLsbD (lo + 3)).toNat +
          (t.getLsbD (lo + 4)).toNat)
        (2 * (t.getLsbD lo).toNat + (t.getLsbD (lo + 5)).toNat)).testBit (3 - j) := by
  rw [sub6, getLsbD_sEntry, decide_eq_true h, Bool.true_and]
  simp [sixColumn, sixRow]

/-- `F` widened to a register selects by `P` from the eight substitutions widened to one (44_feistel.md R160). -/
theorem permutes_feistelF (right : BitVec 32) (rk : BitVec 48) :
    Permutes ((feistelF Rom.des right rk).setWidth 64) ((substitute Rom.des (expandXor right rk)).setWidth 64) Rom.p := by
  rw [feistelF_eq, ← permute_setWidth (m := 64) 32 _ (by decide)]
  exact permutes_setWidth _ (Nat.le_refl 32)

/-- `FFN`: the operand rule, the scrub of `WT` and `WRK`, the round function (44_feistel.md R160, R165). -/
theorem exec_ffn (rd rs rt : Reg) (s : State) :
    exec (.ffn rd rs rt) s = withTwoBufs rd rs rt s fun x y =>
      done ({ s with round := { s.round with wt := 0, wrk := 0 } }.writeBuf rd
        ((feistelF Rom.des (x.setWidth 32) (y.setWidth 48)).setWidth 64)) := rfl

/-! ## The rounds of a block as a sequence -/

/-- The round registers of the block primitive after `n` rounds (44_feistel.md R162). -/
def blockRounds (B : Build) (hook : Buf → Nat → Buf × BitVec 48) (b k : Buf) (n : Nat) : RoundRegs :=
  rounds (desHooks B.tables) hook n (loadBlock B.halfBits (desHooks B.tables) b k)

theorem cryptBlock_eq_blockOutput (B : Build) (hook : Buf → Nat → Buf × BitVec 48) (b k : Buf) :
    cryptBlock B hook b k = blockOutput B.halfBits (desHooks B.tables) (blockRounds B hook b k B.rounds) := rfl

section
variable (B : Build) (hook : Buf → Nat → Buf × BitVec 48) (b k : Buf)

theorem blockRounds_zero : blockRounds B hook b k 0 = loadBlock B.halfBits (desHooks B.tables) b k := rfl

theorem blockRounds_succ (n : Nat) :
    blockRounds B hook b k (n + 1) = roundStep (desHooks B.tables) hook (blockRounds B hook b k n) :=
  rounds_succ _ _ _ _

/-- `RND` counts the rounds as long as its five bits hold the count (44_feistel.md R162). -/
theorem blockRounds_rnd {n : Nat} (h : n < 32) : (blockRounds B hook b k n).rnd.toNat = n := by
  induction n with
  | zero => rfl
  | succ n ih =>
    have before := ih (by omega)
    rw [blockRounds_succ, roundStep, BitVec.toNat_add, before]
    exact Nat.mod_eq_of_lt h

/-- One round swaps the halves and adds `F` of the right one, and the key state is the hook's (44_feistel.md R162). -/
theorem blockRounds_step {n : Nat} (h : n < 32) :
    let w := blockRounds B hook b k n
    let w' := blockRounds B hook b k (n + 1)
    w'.wks = (hook w.wks n).1 ∧ w'.wl = w.wr ∧ w'.wr = w.wl ^^^ feistelF B.tables w.wr (hook w.wks n).2 := by
  intro w w'
  have step : w' = roundStep (desHooks B.tables) hook w := blockRounds_succ B hook b k n
  have count : w.rnd.toNat = n := blockRounds_rnd B hook b k h
  rw [step, roundStep, count]
  exact ⟨rfl, rfl, rfl⟩

/-- Round `n` uses the key of round `n` of the schedule run from the block's key (44_feistel.md R162). -/
theorem hook_blockRounds_wks {n : Nat} (h : n < 32) : hook (blockRounds B hook b k n).wks n = scheduled hook k n := by
  induction n with
  | zero => rfl
  | succ n ih =>
    have before := ih (by omega)
    obtain ⟨state, -, -⟩ := blockRounds_step B hook b k (n := n) (by omega)
    rw [state, before, scheduled]

end

/-! ## What the block commands compute -/

/-- The key hook of `ENCB`, or of `DECB` (44_feistel.md R162, R163). -/
def blockHook (T : Tables) (enc : Bool) : Buf → Nat → Buf × BitVec 48 :=
  if enc then roundKey T else roundKeyDecrypt T

theorem blockHook_apply (T : Tables) (enc : Bool) (ks : Buf) (i : Nat) :
    blockHook T enc ks i = if enc then roundKey T ks i else roundKeyDecrypt T ks i := by
  cases enc <;> rfl

/-- Both block commands: the operand rule, the scrub, the block under their hook (44_feistel.md R162, R163, R165). -/
theorem exec_block (enc : Bool) (rd rs rt : Reg) (s : State) :
    exec (if enc then .encb rd rs rt else .decb rd rs rt) s = withTwoBufs rd rs rt s fun b k =>
      done (s.scrubRound.writeBuf rd (cryptBlock Build.des (blockHook Rom.des enc) b k)) := by
  cases enc <;> rfl

/-- The result of a block command may not overwrite an operand (44_feistel.md R162, R163). -/
theorem exec_block_of_overlap (enc : Bool) {rd rs rt : Reg} {s : State} (hs : s.bufs[rs].isOpen = true)
    (ht : s.bufs[rt].isOpen = true) (h : rd = rs ∨ rd = rt) :
    exec (if enc then .encb rd rs rt else .decb rd rs rt) s = .next (s.faulted 1#3) := by
  rw [exec_block, withTwoBufs_of_overlap _ hs ht h]

/-- A table of 64 entries selects a position of the old value for every position. -/
theorem getLsbD_permute_full {T : List Nat} (hT : T.length = 64) (v : Buf) {i : Nat} (h : i < 64) :
    (permute 64 v T).getLsbD i = v.getLsbD (T.getD i 0) := by
  rw [permutes_permute v T i h, hT, decide_eq_true h, Bool.true_and]

/-- The halves of this hardware before the first round: the permuted block split in two (44_feistel.md R162). -/
theorem getLsbD_halves_zero (hook : Buf → Nat → Buf × BitVec 48) (b k : Buf) {i : Nat} (h : i < 32) :
    (blockRounds Build.des hook b k 0).wl.getLsbD i = b.getLsbD (Rom.ip.getD i 0) ∧
    (blockRounds Build.des hook b k 0).wr.getLsbD i = b.getLsbD (Rom.ip.getD (32 + i) 0) := by
  rw [blockRounds_zero, des_halfBits, des_tables, getLsbD_loadBlock_wl _ _ _ _ _ h, getLsbD_loadBlock_wr _ _ _ _ _ h,
    decide_eq_true h, Bool.true_and, Bool.true_and]
  exact ⟨getLsbD_permute_full rfl b (by omega), getLsbD_permute_full rfl b (by omega)⟩

/-- The block of this hardware after the last round: `FP` of the halves, the right one first (44_feistel.md R162 step 5). -/
theorem getLsbD_cryptBlock_des (hook : Buf → Nat → Buf × BitVec 48) (b k : Buf) {i : Nat} (h : i < 64) :
    (cryptBlock Build.des hook b k).getLsbD i =
      if Rom.fp.getD i 0 < 32 then (blockRounds Build.des hook b k 16).wr.getLsbD (Rom.fp.getD i 0)
      else (blockRounds Build.des hook b k 16).wl.getLsbD (Rom.fp.getD i 0 - 32) := by
  rw [cryptBlock_eq_blockOutput, des_halfBits, blockOutput_32]
  exact (getLsbD_permute_full (T := Rom.fp) rfl _ h).trans BitVec.getLsbD_append

/-! ## The round trip -/

/-- The split of a block whose initial permutation is known (44_feistel.md R162 step 3). -/
theorem loadBlock_32_of_append {h : Hooks} {b : Buf} {hi lo : BitVec 32} (k : Buf)
    (e : h.initialPermutation b = hi ++ lo) : (loadBlock 32 h b k).wl = lo ∧ (loadBlock 32 h b k).wr = hi := by
  rw [loadBlock, e, BitVec.extractLsb'_append_eq_right, BitVec.extractLsb'_append_eq_left]
  exact ⟨BitVec.setWidth_eq lo, BitVec.setWidth_eq hi⟩

section
variable {B : Build} {hook back : Buf → Nat → Buf × BitVec 48} {b k : Buf}

/-- Rounds under the round keys in reversed order go back through the halves, left and right exchanged (44_feistel.md R164). -/
theorem blockRounds_retrace (half : B.halfBits = 32) (count : B.rounds ≤ 32)
    (undo : ∀ v, permute 64 (permute 64 v B.tables.fp) B.tables.ip = v)
    (keys : ∀ r, r < B.rounds → (scheduled back k r).2 = (scheduled hook k (B.rounds - 1 - r)).2) :
    ∀ n m, n + m = B.rounds →
      (blockRounds B back (cryptBlock B hook b k) k n).wl = (blockRounds B hook b k m).wr ∧
      (blockRounds B back (cryptBlock B hook b k) k n).wr = (blockRounds B hook b k m).wl
  | 0, m, hm => by
    obtain rfl : m = B.rounds := by omega
    rw [blockRounds_zero, half, cryptBlock_eq_blockOutput, half, blockOutput_32]
    exact loadBlock_32_of_append k (undo _)
  | n + 1, m, hm => by
    obtain ⟨left, right⟩ := blockRounds_retrace half count undo keys n (m + 1) (by omega)
    obtain ⟨-, backLeft, backRight⟩ := blockRounds_step B back (cryptBlock B hook b k) k (n := n) (by omega)
    obtain ⟨-, thereLeft, thereRight⟩ := blockRounds_step B hook b k (n := m) (by omega)
    rw [hook_blockRounds_wks B back _ k (by omega)] at backRight
    rw [hook_blockRounds_wks B hook b k (by omega)] at thereRight
    have mirror : B.rounds - 1 - n = m := by omega
    have key : (scheduled back k n).2 = (scheduled hook k m).2 := by rw [keys n (by omega), mirror]
    constructor
    · rw [backLeft, right, thereLeft]
    · rw [backRight, left, right, thereLeft, thereRight, key, BitVec.xor_assoc, BitVec.xor_self, BitVec.xor_zero]

/-- A block run through the rounds again under the round keys in reversed order is the block (44_feistel.md R164). -/
theorem cryptBlock_cryptBlock (half : B.halfBits = 32) (count : B.rounds ≤ 32)
    (undoFinal : ∀ v, permute 64 (permute 64 v B.tables.fp) B.tables.ip = v)
    (undoInitial : ∀ v, permute 64 (permute 64 v B.tables.ip) B.tables.fp = v)
    (keys : ∀ r, r < B.rounds → (scheduled back k r).2 = (scheduled hook k (B.rounds - 1 - r)).2) :
    cryptBlock B back (cryptBlock B hook b k) k = b := by
  obtain ⟨left, right⟩ := blockRounds_retrace (b := b) half count undoFinal keys B.rounds 0 (Nat.add_zero _)
  rw [cryptBlock_eq_blockOutput B back, half, blockOutput_32, left, right, blockRounds_zero, half, loadBlock_32]
  exact undoInitial b

end

/-- A schedule that is the reverse of another has the other for its reverse (43_key_schedule.md R155). -/
theorem scheduled_reverse {hook back : Buf → Nat → Buf × BitVec 48} {k : Buf} {n : Nat}
    (keys : ∀ r, r < n → (scheduled back k r).2 = (scheduled hook k (n - 1 - r)).2) :
    ∀ r, r < n → (scheduled hook k r).2 = (scheduled back k (n - 1 - r)).2 := fun r hr => by
  have mirror : n - 1 - (n - 1 - r) = r := by omega
  rw [keys (n - 1 - r) (by omega), mirror]

/-- The round trip, both ways, on any build that meets R164's reasons (44_feistel.md R164). -/
theorem decryptBlock_encryptBlock_inverses {B : Build} {k : Buf} (half : B.halfBits = 32) (count : B.rounds ≤ 32)
    (undoFinal : ∀ v, permute 64 (permute 64 v B.tables.fp) B.tables.ip = v)
    (undoInitial : ∀ v, permute 64 (permute 64 v B.tables.ip) B.tables.fp = v)
    (keys : ∀ r, r < B.rounds → (scheduled (roundKeyDecrypt B.tables) k r).2 =
      (scheduled (roundKey B.tables) k (B.rounds - 1 - r)).2) (b : Buf) :
    decryptBlock B (encryptBlock B b k) k = b ∧ encryptBlock B (decryptBlock B b k) k = b :=
  ⟨cryptBlock_cryptBlock half count undoFinal undoInitial keys,
    cryptBlock_cryptBlock half count undoFinal undoInitial (scheduled_reverse keys)⟩

/-! ## The obligations -/

/-- Settles O46: the command writes `F`, whose positions are those of its expansion, its eight boxes and `P`. -/
theorem ffnCommand : Obligations.FfnCommand := by
  intro rd rs rt s hs ht
  rw [exec_ffn]
  refine ⟨fun h1 h2 => ⟨(expandXor (s.bufs[rs].v.setWidth 32) (s.bufs[rt].v.setWidth 48)).setWidth 64, _, _,
    fun i hi => ?_, fun g j hg hj => ?_, permutes_feistelF _ _, withTwoBufs_of_ne _ hs ht h1 h2⟩,
    withTwoBufs_of_overlap _ hs ht⟩
  · rw [getLsbD_setWidth_of_le _ (by decide), getLsbD_expandXor _ _ hi]
  · simp only [getLsbD_setWidth_of_le _ (show 48 ≤ 64 by decide), getLsbD_setWidth_of_le _ (show 32 ≤ 64 by decide),
      getLsbD_substitute _ _ hg hj, getLsbD_sub6_extract _ _ _ _ hj]

/-- Settles O47: the sequences are the round registers after each number of rounds, under the hook of the command. -/
theorem blockCommands : Obligations.BlockCommands := by
  intro rd rs rt s hs ht
  refine ⟨fun h1 h2 enc => ?_, fun h => ⟨exec_block_of_overlap true hs ht h, exec_block_of_overlap false hs ht h⟩⟩
  let w := blockRounds Build.des (blockHook Rom.des enc) s.bufs[rs].v s.bufs[rt].v
  refine ⟨fun n => (w n).wl, fun n => (w n).wr, fun n => (w n).wks, fun n => (blockHook Rom.des enc (w n).wks n).2, _,
    fun i hi => getLsbD_halves_zero _ _ _ hi, rfl, fun i hi => ?_, fun i hi => getLsbD_cryptBlock_des _ _ _ hi,
    (exec_block enc rd rs rt s).trans (withTwoBufs_of_ne _ hs ht h1 h2)⟩
  obtain ⟨state, left, right⟩ := blockRounds_step Build.des (blockHook Rom.des enc) s.bufs[rs].v s.bufs[rt].v
    (n := i) (by omega)
  refine ⟨?_, left, right⟩
  rw [← blockHook_apply]
  exact Prod.ext state rfl

/-- Settles O48: the reverse hook supplies the round keys in reversed order, so each direction retraces the other. -/
theorem blockRoundTrip : Obligations.BlockRoundTrip := by
  obtain ⟨-, undoInitial, undoFinal⟩ := finalUndoesInitial
  refine ⟨fun b k => ?_, fun B b k bits count ipLength fpLength inverse keys => ?_⟩
  · have keys : ∀ r, r < 16 → (scheduled (roundKeyDecrypt Rom.des) k r).2 = (scheduled (roundKey Rom.des) k (15 - r)).2 :=
      fun r hr => by rw [scheduled_roundKeyDecrypt_eq k hr]
    exact decryptBlock_encryptBlock_inverses (B := Build.des) rfl (by decide) undoFinal undoInitial keys b
  · have half : B.halfBits = 32 := by rw [Build.halfBits, bits]; rfl
    have few : B.rounds ≤ 32 := Int.toNat_le.2 count
    have fpIp : ∀ i, i < 64 → B.tables.ip.getD i 0 < 64 ∧ B.tables.fp.getD (B.tables.ip.getD i 0) 0 = i := fun i hi =>
      have ⟨lt, _, undo, _⟩ := inverse i hi
      ⟨lt, undo⟩
    have ipFp : ∀ i, i < 64 → B.tables.fp.getD i 0 < 64 ∧ B.tables.ip.getD (B.tables.fp.getD i 0) 0 = i := fun i hi =>
      have ⟨_, lt, _, undo⟩ := inverse i hi
      ⟨lt, undo⟩
    exact decryptBlock_encryptBlock_inverses half few (permute_permute_inverse fpLength ipLength fpIp)
      (permute_permute_inverse ipLength fpLength ipFp) keys b

end Sys2Proof.Machine
end

section
/-! PROOFS. The key register and the chaining state machine (spec/45_cbc_stream.md R170 to R182): what the decryption heuristic
cuts, and what each state of `ENCS` and `DECS` does with what stands on the ports. -/

namespace Sys2Proof.Machine

/-! ## Reading and drawing -/

/-- `withRead_full` with the number of bytes named. -/
theorem withRead_of_length {n : Nat} {s : State} {bs : List Byte} {rest : List InItem} (k : List Byte → State → Result)
    (hn : bs.length = n) (h : s.inq = bs.map InItem.byte ++ rest) : withRead n s k = k bs { s with inq := rest } := by
  rw [← hn]
  exact withRead_full k h

/-- A read that finds the end of the stream at once. -/
theorem withRead_eos_first {n : Nat} {s : State} {rest : List InItem} (k : List Byte → State → Result) (hn : 0 < n)
    (h : s.inq = InItem.eos :: rest) : withRead n s k = k [] { s with inq := rest } :=
  withRead_eos (bs := []) k hn h

theorem withDraw_cons {s : State} {d : Draw} {rest : List Draw} (k : Draw → State → Result) (h : s.rng = d :: rest) :
    withDraw s k = k d { s with rng := rest } := by
  rw [withDraw, h]

theorem withDraw_nil {s : State} (k : Draw → State → Result) (h : s.rng = []) : withDraw s k = .next s := by
  rw [withDraw, h, stall_eq]

/-- A draw has 8 bytes (20_memory.md R58). -/
theorem draw_ne_nil (d : Draw) : d.toList ≠ [] :=
  List.ne_nil_of_length_pos (by rw [Vector.length_toList]; decide)

/-- What renders a value is `ToBytes` of it (20_memory.md R54). -/
theorem eq_toBytes_of_renders {bs : List Byte} {v : Buf} {n : Nat} (h : Renders bs v n) : bs = toBytes .msbFirst v n := by
  obtain ⟨hlen, hbit⟩ := h
  refine List.ext_getElem (hlen.trans (length_toBytes ..).symm) fun j hj _ => ?_
  have hjn : j < n := hlen ▸ hj
  rw [← List.getD_eq_getElem _ 0 hj, ← List.getD_eq_getElem _ 0]
  exact byte_eq_of_byteBit_eq (order := .msbFirst) fun i hi =>
    (hbit j i hjn hi).trans (byteBit_toBytes .msbFirst v hjn hi).symm

/-! ## The steps of the two stream commands -/

section
variable {s : State} (B : Build) (first : Sst)

theorem streamStep_idle (h : s.stream.sst = .idle) : streamStep B first s = startStream first s := by
  simp only [streamStep, h]

theorem streamStep_eiv (h : s.stream.sst = .eiv) : streamStep B first s = stepEiv B s := by
  simp only [streamStep, h]

theorem streamStep_eblk (h : s.stream.sst = .eblk) : streamStep B first s = stepEblk B s := by
  simp only [streamStep, h]

theorem streamStep_div (h : s.stream.sst = .div) : streamStep B first s = stepDiv B s := by
  simp only [streamStep, h]

theorem streamStep_dfirst (h : s.stream.sst = .dfirst) : streamStep B first s = stepDfirst B s := by
  simp only [streamStep, h]

theorem streamStep_dblk (h : s.stream.sst = .dblk) : streamStep B first s = stepDblk B s := by
  simp only [streamStep, h]

end

theorem exec_encs (s : State) : exec .encs s = streamStep Build.des .eiv s := rfl

theorem exec_decs (s : State) : exec .decs s = streamStep Build.des .div s := rfl

/-- The end of a stream command is the state the statements write out (45_cbc_stream.md R173 *Finish*). -/
theorem finish_eq_streamEnded (s : State) : finish s = .next s.streamEnded := rfl

/-! ## The key -/

theorem exec_ldk (n : BitVec 4) (s : State) :
    exec (.ldk n) s = withRead n.toNat s fun bs t => .next
      { t.ended with key := { isOpen := true, len := BitVec.ofNat 4 bs.length, v := fromBytes .msbFirst (bs.take 8) } } := rfl

/-- 45_cbc_stream.md R174. -/
theorem keyOk_iff {k : KeyReg} : keyOk k = true ↔ k.isOpen = true ∧ k.len = 8#4 := by
  rw [keyOk, Bool.and_eq_true, beq_iff_eq, BitVec.toNat_eq]
  rfl

theorem keyOk_eq_false {k : KeyReg} (h : k.isOpen = false ∨ k.len ≠ 8#4) : keyOk k = false := by
  rw [← Bool.not_eq_true, keyOk_iff, not_and_or, Bool.not_eq_true]
  exact h

theorem startStream_of_keyOk (first : Sst) {s : State} (h : keyOk s.key = true) : startStream first s =
    .next { s with status := { s.status with busy := true }, stream := { s.stream with sst := first } } :=
  require_of_true _ _ _ h

theorem startStream_of_bad_key (first : Sst) {s : State} (h : keyOk s.key = false) :
    startStream first s = .next (s.faulted 1#3) :=
  require_of_false .arg _ _ h

/-! ## The encryption steps -/

/-- The ciphertext block of the block `b`, chained from `chain` (45_cbc_stream.md R175 step 2). -/
def cipherBlock (key chain : Buf) (b : List Byte) : Buf := encryptBlock Build.des (fromBytes .msbFirst b ^^^ chain) key

/-- The end of an encryption step whose write the host fails (45_cbc_stream.md R175 step 2). -/
theorem emitCipher_failed (n : Nat) (cur c : Buf) {s : State} (h : s.outFail = some s.nwrites) :
    emitCipher Build.des n cur c s = .next ({ s with nwrites := s.nwrites + 1 }.faulted 2#3) :=
  withWrite_failed _ (toBytes_ne_nil .msbFirst c (by decide)) h

/-- The end of the step of a full block (45_cbc_stream.md R175 step 2). -/
theorem emitCipher_full (cur c : Buf) {s : State} (h : s.WriteOk) : emitCipher Build.des 8 cur c s =
    .next { s with
      out := s.out ++ toBytes .msbFirst c 8, nwrites := s.nwrites + 1, round := RoundRegs.zero
      stream := { s.stream with chain := c, cur := cur, curn := 8#4 } } :=
  withWrite_ok _ (toBytes_ne_nil .msbFirst c (by decide)) h

/-- The end of the step of a short block, the last one (45_cbc_stream.md R175 step 2). -/
theorem emitCipher_short {n : Nat} (hn : n < 8) (cur c : Buf) {s : State} (h : s.WriteOk) : emitCipher Build.des n cur c s =
    .next { s with out := s.out ++ toBytes .msbFirst c 8, nwrites := s.nwrites + 1 }.streamEnded := by
  have accepted : (s.withBlock cur (BitVec.ofNat 4 n)).WriteOk := h
  rw [emitCipher_des, withWrite_ok _ (toBytes_ne_nil .msbFirst c (by decide)) accepted, if_pos hn]
  rfl

section
variable {s : State} (h : s.stream.sst = .eblk) {bs : List Byte} {rest : List InItem}
include h

theorem exec_encs_eblk : exec .encs s = stepEblk Build.des s := streamStep_eblk _ _ h

/-- A full block is chained and encrypted as it is (45_cbc_stream.md R175 step 2). -/
theorem exec_encs_eblk_full (hn : bs.length = 8) (hq : s.inq = bs.map InItem.byte ++ rest) :
    exec .encs s = emitCipher Build.des 8 (fromBytes .msbFirst bs ^^^ s.stream.chain)
      (cipherBlock s.key.v s.stream.chain bs) { s with inq := rest } := by
  have whole : padIfShort Build.des bs = bs := by rw [padIfShort_des, hn, if_neg (Nat.lt_irrefl 8)]
  have nonempty : ¬ bs.length = 0 := by omega
  rw [exec_encs_eblk h, stepEblk_des, withRead_of_length _ hn hq, if_neg nonempty, whole, hn, cipherBlock]

/-- A short block is padded first (45_cbc_stream.md R175 step 2, R176). -/
theorem exec_encs_eblk_short (h0 : 0 < bs.length) (hn : bs.length < 8)
    (hq : s.inq = bs.map InItem.byte ++ InItem.eos :: rest) : exec .encs s =
      emitCipher Build.des bs.length (fromBytes .msbFirst (pad 8 bs) ^^^ s.stream.chain)
        (cipherBlock s.key.v s.stream.chain (pad 8 bs)) { s with inq := rest } := by
  have padded : padIfShort Build.des bs = pad 8 bs := by rw [padIfShort_des, if_pos hn]
  rw [exec_encs_eblk h, stepEblk_des, withRead_eos _ hn hq, if_neg (Nat.ne_of_gt h0), padded, cipherBlock]

/-- With no byte left the command ends (45_cbc_stream.md R175 step 2). -/
theorem exec_encs_eblk_eos (hq : s.inq = InItem.eos :: rest) : exec .encs s = .next { s with inq := rest }.streamEnded := by
  rw [exec_encs_eblk h, stepEblk_des, withRead_eos_first _ (by decide) hq, if_pos List.length_nil, finish_eq_streamEnded]

end

theorem exec_encs_eiv {s : State} (h : s.stream.sst = .eiv) : exec .encs s = withDraw s fun d t =>
    withWrite d.toList t fun u => .next (u.loadChain (fromBytes .msbFirst d.toList) .eblk) :=
  (streamStep_eiv _ _ h).trans (stepEiv_des s)

/-- `S_EIV` with a draw and an accepted write (45_cbc_stream.md R175 step 1). -/
theorem exec_encs_eiv_writes {s : State} (h : s.stream.sst = .eiv) {iv : Draw} {rest : List Draw} (hr : s.rng = iv :: rest)
    (hw : s.WriteOk) : exec .encs s = .next { s with
      rng := rest, out := s.out ++ iv.toList, nwrites := s.nwrites + 1
      stream := { s.stream with chain := fromBytes .msbFirst iv.toList, sst := .eblk } } := by
  rw [exec_encs_eiv h, withDraw_cons _ hr]
  exact withWrite_ok _ (draw_ne_nil iv) hw

/-! ## The decryption steps -/

/-- A step that wrote the plaintext and has a block behind it (45_cbc_stream.md R179 step 3). -/
theorem emitPlain_next (nxt : Buf) {p : List Byte} (hp : p ≠ []) {s : State} (h : s.WriteOk) : emitPlain 8 nxt p s =
    .next { s with
      out := s.out ++ p, nwrites := s.nwrites + 1, round := RoundRegs.zero
      stream := { s.stream with chain := s.stream.cur, cur := nxt, curn := 8#4, nxt := nxt, nxtn := 8#4 } } :=
  withWrite_ok _ hp h

/-- The step of the last block (45_cbc_stream.md R179 step 3). -/
theorem emitPlain_last (nxt : Buf) {p : List Byte} (hp : p ≠ []) {s : State} (h : s.WriteOk) : emitPlain 0 nxt p s =
    .next { s with out := s.out ++ p, nwrites := s.nwrites + 1 }.streamEnded :=
  withWrite_ok _ hp h

/-- The end of a decryption step whose write the host fails (45_cbc_stream.md R179 step 3). -/
theorem emitPlain_failed (n : Nat) (nxt : Buf) {p : List Byte} (hp : p ≠ []) {s : State} (h : s.outFail = some s.nwrites) :
    emitPlain n nxt p s = .next ({ s with nwrites := s.nwrites + 1 }.faulted 2#3) :=
  withWrite_failed _ hp h

/-- The plaintext of the ciphertext block `c`, chained from `chain` (45_cbc_stream.md R179 step 3). -/
def plainBlock (key chain c : Buf) : List Byte := toBytes .msbFirst (decryptBlock Build.des c key ^^^ chain) 8

@[simp] theorem length_plainBlock (key chain c : Buf) : (plainBlock key chain c).length = 8 := length_toBytes ..

theorem plainBlock_ne_nil (key chain c : Buf) : plainBlock key chain c ≠ [] := toBytes_ne_nil .msbFirst _ (by decide)

theorem unpad_plainBlock_ne_nil (key chain c : Buf) : unpad 8 (plainBlock key chain c) ≠ [] :=
  unpad_ne_nil (by decide) (length_plainBlock key chain c)

/-- A block that is not the last is written whole (45_cbc_stream.md R179 step 3). -/
theorem plainOf_not_last (s : State) :
    plainOf Build.des s false = plainBlock s.key.v s.stream.chain s.stream.cur := by
  rw [plainOf_des, if_neg Bool.false_ne_true, plainBlock]

/-- The last block is unpadded (45_cbc_stream.md R179 step 3). -/
theorem plainOf_last (s : State) :
    plainOf Build.des s true = unpad 8 (plainBlock s.key.v s.stream.chain s.stream.cur) := by
  rw [plainOf_des, if_pos rfl, plainBlock]

section
variable {s : State} {bs : List Byte} {rest : List InItem}

theorem exec_decs_div (h : s.stream.sst = .div) : exec .decs s = stepDiv Build.des s := streamStep_div _ _ h

theorem exec_decs_dfirst (h : s.stream.sst = .dfirst) : exec .decs s = stepDfirst Build.des s := streamStep_dfirst _ _ h

theorem exec_decs_dblk (h : s.stream.sst = .dblk) : exec .decs s = stepDblk Build.des s := streamStep_dblk _ _ h

/-- The IV becomes the chaining value (45_cbc_stream.md R179 step 1). -/
theorem exec_decs_div_full (h : s.stream.sst = .div) (hn : bs.length = 8) (hq : s.inq = bs.map InItem.byte ++ rest) :
    exec .decs s = .next { s with
      inq := rest, stream := { s.stream with chain := fromBytes .msbFirst bs, sst := .dfirst } } := by
  rw [exec_decs_div h, stepDiv_des, withRead_of_length _ hn hq]
  exact require_of_true _ _ _ (beq_iff_eq.2 hn)

/-- A stream of fewer than 8 bytes has no IV (45_cbc_stream.md R182). -/
theorem exec_decs_div_short (h : s.stream.sst = .div) (hn : bs.length < 8)
    (hq : s.inq = bs.map InItem.byte ++ InItem.eos :: rest) : exec .decs s = .next ({ s with inq := rest }.faulted 6#3) := by
  rw [exec_decs_div h, stepDiv_des, withRead_eos _ hn hq]
  exact require_of_false .format _ _ (beq_eq_false_iff_ne.2 (Nat.ne_of_lt hn))

/-- The first block is held until the look-ahead (45_cbc_stream.md R179 step 2). -/
theorem exec_decs_dfirst_full (h : s.stream.sst = .dfirst) (hn : bs.length = 8) (hq : s.inq = bs.map InItem.byte ++ rest) :
    exec .decs s = .next { s with
      inq := rest, stream := { s.stream with cur := fromBytes .msbFirst bs, curn := 8#4, sst := .dblk } } := by
  have nonempty : ¬ bs.length = 0 := by omega
  rw [exec_decs_dfirst h, stepDfirst_des, withRead_of_length _ hn hq, if_neg nonempty, hn]
  rfl

/-- An IV alone is the empty message (45_cbc_stream.md R179 step 2). -/
theorem exec_decs_dfirst_eos (h : s.stream.sst = .dfirst) (hq : s.inq = InItem.eos :: rest) :
    exec .decs s = .next { s with inq := rest }.streamEnded := by
  rw [exec_decs_dfirst h, stepDfirst_des, withRead_eos_first _ (by decide) hq, if_pos List.length_nil, finish_eq_streamEnded]

/-- A fragment is no block (45_cbc_stream.md R182). -/
theorem exec_decs_dfirst_short (h : s.stream.sst = .dfirst) (h0 : 0 < bs.length) (hn : bs.length < 8)
    (hq : s.inq = bs.map InItem.byte ++ InItem.eos :: rest) : exec .decs s = .next ({ s with inq := rest }.faulted 6#3) := by
  rw [exec_decs_dfirst h, stepDfirst_des, withRead_eos _ hn hq, if_neg (Nat.ne_of_gt h0)]
  exact require_of_false .format _ _ (beq_eq_false_iff_ne.2 (Nat.ne_of_lt hn))

/-- The opening steps begin with a read of 8 bytes (45_cbc_stream.md R179). -/
theorem exec_decs_opening (h : s.stream.sst = .div ∨ s.stream.sst = .dfirst) : ∃ k, exec .decs s = withRead 8 s k :=
  h.elim (fun h => ⟨_, exec_decs_div h⟩) fun h => ⟨_, exec_decs_dfirst h⟩

/-- With a block behind it the block held is written whole (45_cbc_stream.md R179 step 3). -/
theorem exec_decs_dblk_full (h : s.stream.sst = .dblk) (hn : bs.length = 8) (hq : s.inq = bs.map InItem.byte ++ rest) :
    exec .decs s = emitPlain 8 (fromBytes .msbFirst bs) (plainBlock s.key.v s.stream.chain s.stream.cur)
      { s with inq := rest } := by
  rw [exec_decs_dblk h, stepDblk_des, withRead_of_length _ hn hq, hn, require_of_true _ _ _ (by decide)]
  exact congrArg (emitPlain 8 _ · _) (plainOf_not_last _)

/-- With no block behind it the block held is unpadded (45_cbc_stream.md R179 step 3). -/
theorem exec_decs_dblk_eos (h : s.stream.sst = .dblk) (hq : s.inq = InItem.eos :: rest) :
    exec .decs s = emitPlain 0 (fromBytes .msbFirst []) (unpad 8 (plainBlock s.key.v s.stream.chain s.stream.cur))
      { s with inq := rest } := by
  rw [exec_decs_dblk h, stepDblk_des, withRead_eos_first _ (by decide) hq, require_of_true _ _ _ (by decide)]
  exact congrArg (emitPlain 0 _ · _) (plainOf_last _)

/-- A fragment behind the block held is no block, and the block is not written (45_cbc_stream.md R182). -/
theorem exec_decs_dblk_short (h : s.stream.sst = .dblk) (h0 : 0 < bs.length) (hn : bs.length < 8)
    (hq : s.inq = bs.map InItem.byte ++ InItem.eos :: rest) : exec .decs s = .next ({ s with inq := rest }.faulted 6#3) := by
  have neither : (bs.length == 0 || bs.length == 8) = false := by
    rw [Bool.or_eq_false_iff, beq_eq_false_iff_ne, beq_eq_false_iff_ne]
    omega
  rw [exec_decs_dblk h, stepDblk_des, withRead_eos _ hn hq]
  exact require_of_false .format _ _ neither

end

/-! ## The decryption heuristic -/

/-- `takeWhile` takes exactly `n` elements when these pass and the next one does not. -/
theorem length_takeWhile_eq_iff {α : Type} {f : α → Bool} {l : List α} {n : Nat} (hn : n < l.length) :
    (l.takeWhile f).length = n ↔ (∀ j (h : j < n), f (l[j]'(by omega)) = true) ∧ f l[n] = false := by
  rw [List.takeWhile_eq_take_findIdx_not, List.length_take, Nat.min_eq_left List.findIdx_le_length, List.findIdx_eq hn]
  simp [and_comm]

/-- The run of the last byte of a block has length `c` exactly when `c` bytes from the end equal it and the one before them
does not (45_cbc_stream.md R181). -/
theorem trailingRun_eq_iff {p : List Byte} (hp : p.length = 8) {c : Nat} (hc : c < 8) :
    trailingRun p (p.getD 7 0) = c ↔
      (∀ j, j < c → p.getD (7 - j) 0 = p.getD 7 0) ∧ p.getD (7 - c) 0 ≠ p.getD 7 0 := by
  have fromEnd : ∀ j (h : j < p.reverse.length), p.reverse[j] = p.getD (7 - j) 0 := fun j h => by
    rw [List.getElem_reverse, ← List.getD_eq_getElem p 0, hp]
  rw [trailingRun, length_takeWhile_eq_iff (by rwa [List.length_reverse, hp])]
  simp only [fromEnd, beq_iff_eq, beq_eq_false_iff_ne]

/-- `Unpad` cuts exactly when the last byte counts its own run (45_cbc_stream.md R181). -/
theorem unpad_cut {p : List Byte} (hp : p.length = 8) (hv : (p.getD 7 0).toNat < 8)
    (run : ∀ j, j < (p.getD 7 0).toNat → p.getD (7 - j) 0 = p.getD 7 0)
    (ends : p.getD (7 - (p.getD 7 0).toNat) 0 ≠ p.getD 7 0) : unpad 8 p = p.take (8 - (p.getD 7 0).toNat) :=
  if_pos ⟨hv, (trailingRun_eq_iff hp hv).2 ⟨run, ends⟩⟩

theorem unpad_keep {p : List Byte} (hp : p.length = 8)
    (h : 8 ≤ (p.getD 7 0).toNat ∨ ¬ (∀ j, j < (p.getD 7 0).toNat → p.getD (7 - j) 0 = p.getD 7 0) ∨
      p.getD (7 - (p.getD 7 0).toNat) 0 = p.getD 7 0) : unpad 8 p = p := by
  refine if_neg ?_
  rintro ⟨hv, hrun⟩
  obtain ⟨run, ends⟩ := (trailingRun_eq_iff hp hv).1 hrun
  rcases h with h | h | h
  · exact absurd hv (Nat.not_lt.2 h)
  · exact h run
  · exact ends h

/-- `Unpad` leaves 1 to 8 bytes (45_cbc_stream.md R181). -/
theorem length_unpad_le {p : List Byte} (hp : p.length = 8) : (unpad 8 p).length ≤ 8 := by
  rw [unpad, apply_ite List.length, List.length_take, hp]
  split <;> omega

/-! ## The obligations -/

/-- Settles O50: what stands after the bytes at the front of the queue decides the load, and a close reads nothing. -/
theorem keyCommands : Obligations.KeyCommands := by
  intro n s
  rw [exec_ldk]
  exact ⟨fun _ _ hn hq => ⟨_, holdsBytes_fromBytes _, withRead_of_length _ hn hq⟩,
    fun _ _ hn hq => ⟨_, holdsBytes_fromBytes _, withRead_eos _ hn hq⟩,
    fun _ _ hn hq => withRead_err _ hn hq, fun _ hn hq => withRead_starved _ hn hq, rfl⟩

/-- Settles O51: the first step of both commands is the key check. -/
theorem streamKeyCheck : Obligations.StreamKeyCheck := by
  intro s h
  rw [exec_encs, exec_decs, streamStep_idle _ _ h, streamStep_idle _ _ h]
  refine ⟨fun hopen hlen => ?_, fun hbad => ?_⟩
  · have good := keyOk_iff.2 ⟨hopen, hlen⟩
    exact ⟨startStream_of_keyOk _ good, startStream_of_keyOk _ good⟩
  · have bad := keyOk_eq_false hbad
    exact ⟨startStream_of_bad_key _ bad, startStream_of_bad_key _ bad⟩

/-- Settles O52: the draw decides the step, and then the host's answer to the write. -/
theorem encsInitialVector : Obligations.EncsInitialVector := by
  intro s h
  refine ⟨fun iv rest hr hw => ⟨_, holdsBytes_fromBytes _, exec_encs_eiv_writes h hr hw⟩, fun iv rest hr hf => ?_,
    fun hr => (exec_encs_eiv h).trans (withDraw_nil _ hr)⟩
  rw [exec_encs_eiv h, withDraw_cons _ hr]
  exact withWrite_failed _ (draw_ne_nil iv) hf

/-- Settles O53: the read decides between a full block, a short one and none, and the host accepts or fails the write. -/
theorem encsBlockStep : Obligations.EncsBlockStep := by
  intro s h
  refine ⟨fun bs rest hn hq => ⟨_, _, holdsBytes_fromBytes _, rfl, ?_⟩,
    fun bs rest h0 hn hq => ⟨_, _, holdsBytes_fromBytes _, rfl, ?_⟩, fun rest hq => exec_encs_eblk_eos h hq,
    fun bs rest hn hq => (exec_encs_eblk h).trans (withRead_err _ hn hq),
    fun bs hn hq => (exec_encs_eblk h).trans (withRead_starved _ hn hq)⟩
  · rw [exec_encs_eblk_full h hn hq]
    exact ⟨fun hw => ⟨_, renders_toBytes _ _, emitCipher_full _ _ hw⟩, fun hf => emitCipher_failed _ _ _ hf⟩
  · rw [exec_encs_eblk_short h h0 hn hq]
    exact ⟨fun hw => ⟨_, renders_toBytes _ _, emitCipher_short hn _ _ hw⟩, fun hf => emitCipher_failed _ _ _ hf⟩

/-- Settles O54: both opening steps read 8 bytes, and the state says what they and a short read are. -/
theorem decsOpeningSteps : Obligations.DecsOpeningSteps := by
  intro s h
  obtain ⟨k, reads⟩ := exec_decs_opening h
  refine ⟨fun bs rest hn hq => ⟨_, holdsBytes_fromBytes _, fun hd => exec_decs_div_full hd hn hq,
      fun hf => exec_decs_dfirst_full hf hn hq⟩,
    fun rest hq => ⟨fun hd => exec_decs_div_short (bs := []) hd (by decide) hq, fun hf => exec_decs_dfirst_eos hf hq⟩,
    fun bs rest h0 hn hq => ?_,
    fun bs rest hn hq => reads.trans (withRead_err _ hn hq), fun bs hn hq => reads.trans (withRead_starved _ hn hq)⟩
  exact h.elim (fun hd => exec_decs_div_short hd hn hq) fun hf => exec_decs_dfirst_short hf h0 hn hq

/-- Settles O55: the look-ahead read decides the step before anything is written. -/
theorem decsBlockStep : Obligations.DecsBlockStep := by
  intro s h p hp
  obtain rfl : p = plainBlock s.key.v s.stream.chain s.stream.cur := eq_toBytes_of_renders hp
  refine ⟨fun bs rest hn hq => ?_, fun rest hq => ?_, fun bs rest h0 hn hq => exec_decs_dblk_short h h0 hn hq,
    fun bs rest hn hq => (exec_decs_dblk h).trans (withRead_err _ hn hq),
    fun bs hn hq => (exec_decs_dblk h).trans (withRead_starved _ hn hq)⟩
  · rw [exec_decs_dblk_full h hn hq]
    exact ⟨fun hw => ⟨_, holdsBytes_fromBytes _, emitPlain_next _ (plainBlock_ne_nil _ _ _) hw⟩,
      fun hf => emitPlain_failed _ _ (plainBlock_ne_nil _ _ _) hf⟩
  · rw [exec_decs_dblk_eos h hq]
    exact ⟨fun hw => emitPlain_last _ (unpad_plainBlock_ne_nil _ _ _) hw,
      fun hf => emitPlain_failed _ _ (unpad_plainBlock_ne_nil _ _ _) hf⟩

/-- Settles O56: the run of the last byte is what the statement says position by position. -/
theorem unpadRule : Obligations.UnpadRule := by
  intro p hp v runs
  refine ⟨fun _ hv run ends => unpad_cut hp hv run ends, fun h => unpad_keep hp ?_,
    List.length_pos_of_ne_nil (unpad_ne_nil (by decide) hp), length_unpad_le hp⟩
  rcases h with h0 | h
  · exact .inr (.inr (by rw [show (p.getD 7 0).toNat = 0 from h0]))
  · exact h

end Sys2Proof.Machine
end

section
/-! PROOFS. The chained streams as a whole (spec/45_cbc_stream.md R173 to R184): `ENCS` and `DECS` run to their end, what `DECS`
makes of the blocks `ENCS` wrote, and how far a changed ciphertext block reaches. -/

namespace Sys2Proof.Machine

/-! ## Runs of a stream command -/

/-- Some number of steps leads from `s` to `t`. -/
def Reaches (s t : State) : Prop := ∃ n, runSteps n s = .next t

/-- A run goes on from where its first step leads. -/
theorem Reaches.head {s u t : State} (h : step s = .next u) (r : Reaches u t) : Reaches s t :=
  r.imp' (· + 1) fun n hn => (runSteps_succ h n).trans hn

theorem Reaches.single {s t : State} (h : step s = .next t) : Reaches s t := .head h ⟨0, rfl⟩

theorem State.WritesOk.writeOk {s : State} (h : s.WritesOk) : s.WriteOk := h _ (Nat.le_refl _)

/-- The stream command of the word `w` is in progress in its state `a`, and no write will be failed (45_cbc_stream.md R173). -/
structure State.Streaming (w : CmdWord) (a : Sst) (s : State) : Prop where
  notReset : s.resetPin = false
  notHalted : s.status.halt = false
  busy : s.status.busy = true
  word : s.cip = w
  sst : s.stream.sst = a
  writesOk : s.WritesOk

theorem State.Streaming.step_encs {a : Sst} {s : State} (h : s.Streaming 0xC8000000#32 a) : step s = exec .encs s :=
  (step_of_busy h.notReset h.notHalted h.busy).trans (runCommand_ok (decode_encs_iff.2 h.word))

theorem State.Streaming.step_decs {a : Sst} {s : State} (h : s.Streaming 0xCC000000#32 a) : step s = exec .decs s :=
  (step_of_busy h.notReset h.notHalted h.busy).trans (runCommand_ok (decode_decs_iff.2 h.word))

/-- A step moves the ports forward and leaves the command in a state of its own. -/
theorem State.Streaming.goesOn {w : CmdWord} {a b : Sst} {s : State} (h : s.Streaming w a) (q : List InItem) (o : List Byte)
    (ds : List Draw) {n : Nat} (hn : s.nwrites ≤ n) (ρ : RoundRegs) {σ : StreamRegs} (hσ : σ.sst = b) :
    State.Streaming w b { s with inq := q, out := o, rng := ds, nwrites := n, round := ρ, stream := σ } :=
  { h with sst := hσ, writesOk := fun k hk => h.writesOk k (Nat.le_trans hn hk) }

/-- The state after a stream command that leaves `rest` on `IN`, wrote `o` in `n` writes, and ended. -/
def State.streamDone (s : State) (rest : List InItem) (o : List Byte) (n : Nat) : State :=
  { s with inq := rest, out := s.out ++ o, nwrites := s.nwrites + n }.streamEnded

theorem streamDone_nil (s : State) (rest : List InItem) : s.streamDone rest [] 0 = { s with inq := rest }.streamEnded := by
  rw [State.streamDone, List.append_nil, Nat.add_zero]

/-- What a step wrote comes before what the rest of the command writes. -/
theorem streamDone_after (s : State) (q rest : List InItem) (o o' : List Byte) (n : Nat) (ρ : RoundRegs) (σ : StreamRegs) :
    { s with inq := q, out := s.out ++ o, nwrites := s.nwrites + 1, round := ρ, stream := σ }.streamDone rest o' n =
      s.streamDone rest (o ++ o') (n + 1) := by
  simp only [State.streamDone, List.append_assoc, Nat.add_assoc, Nat.add_comm 1]
  rfl

/-- The state after the first step of a stream command, whose word was the first on the port (45_cbc_stream.md R174). -/
def State.begun (s : State) (w : CmdWord) (words : List CmdWord) (first : Sst) : State :=
  { s with cmd := words, cip := w, status := { busy := true, halt := false }, stream := { s.stream with sst := first } }

theorem begun_streaming {s : State} (hs : s.Ready) (hw : s.WritesOk) (w : CmdWord) (words : List CmdWord) (first : Sst) :
    (s.begun w words first).Streaming w first := by
  obtain ⟨hr, -, -⟩ := hs
  exact ⟨hr, rfl, rfl, rfl, rfl, hw⟩

/-- Both stream commands begin in the same way, each in its own first state (45_cbc_stream.md R174). -/
theorem step_begins {s : State} {words : List CmdWord} {w : CmdWord} {i : Instr} {first : Sst} (hs : s.Ready)
    (hz : s.stream = StreamRegs.zero) (hk : keyOk s.key = true) (hi : decode w = .ok i)
    (run : ∀ t, exec i t = streamStep Build.des first t) (hc : s.cmd = w :: words) :
    step s = .next (s.begun w words first) := by
  have idle : s.stream.sst = .idle := by rw [hz]; rfl
  let u : State := { s with cmd := words, cip := w, status := { busy := true, halt := false } }
  calc step s
    _ = runCommand exec u := step_of_ready hs hc
    _ = exec i u := runCommand_ok (s := u) hi
    _ = streamStep Build.des first u := run u
    _ = startStream first u := streamStep_idle (s := u) _ _ idle
    _ = .next (s.begun w words first) := startStream_of_keyOk (s := u) first hk

/-- A stream command that ends leaves a ready engine, whose working registers were zero, as it was but for the ports and the
list of words. -/
theorem streamEnded_of_ready {s : State} (hs : s.Ready) (hz : s.stream = StreamRegs.zero) (hr : s.round = RoundRegs.zero)
    (w : CmdWord) (σ : StreamRegs) :
    { s with cip := w, status := { busy := true, halt := false }, stream := σ }.streamEnded = { s with cip := 0 } := by
  obtain ⟨-, hb, hh⟩ := hs
  have status : s.status = { busy := false, halt := false } := congrArg₂ Status.mk hb hh
  rw [status, hz, hr]
  rfl

/-! ## The blocks of a message -/

/-- The block that the tail of a message is padded to, if there is a tail (45_cbc_stream.md R176). -/
def paddedTail (tail : List Byte) : List (List Byte) := if tail = [] then [] else [pad 8 tail]

theorem paddedTail_nil : paddedTail [] = [] := rfl

theorem paddedTail_of_ne_nil {tail : List Byte} (h : tail ≠ []) : paddedTail tail = [pad 8 tail] := if_neg h

theorem length_pad {bs : List Byte} (h : bs.length ≤ 8) : (pad 8 bs).length = 8 := by
  rw [pad, List.length_append, List.length_replicate, Nat.add_sub_cancel' h]

theorem length_flatten_of_eight {blocks : List (List Byte)} (h : ∀ b ∈ blocks, b.length = 8) :
    blocks.flatten.length = 8 * blocks.length := by
  rw [List.length_flatten, List.map_congr_left h, List.map_const', List.sum_replicate, smul_eq_mul, Nat.mul_comm]

/-- A message of `n` bytes has `ceil(n/8)` blocks (45_cbc_stream.md R177). -/
theorem length_blocks {blocks : List (List Byte)} {tail : List Byte} (h : ∀ b ∈ blocks, b.length = 8)
    (ht : tail.length < 8) : (blocks ++ paddedTail tail).length = ((blocks.flatten ++ tail).length + 7) / 8 := by
  rw [List.length_append, List.length_append, length_flatten_of_eight h]
  by_cases h0 : tail = []
  · simp only [h0, paddedTail_nil, List.length_nil]
    omega
  · have := List.length_pos_of_ne_nil h0
    rw [paddedTail_of_ne_nil h0, List.length_singleton]
    omega

/-- Every message is whole blocks and a tail of 0 to 7 bytes. -/
theorem exists_blocks (m : List Byte) : ∃ (blocks : List (List Byte)) (tail : List Byte),
    (∀ b ∈ blocks, b.length = 8) ∧ tail.length < 8 ∧ m = blocks.flatten ++ tail := by
  by_cases h : m.length < 8
  · exact ⟨[], m, by simp, h, rfl⟩
  · obtain ⟨blocks, tail, hb, ht, e⟩ := exists_blocks (m.drop 8)
    refine ⟨m.take 8 :: blocks, tail, List.forall_mem_cons.2 ⟨?_, hb⟩, ht, ?_⟩
    · rw [List.length_take]
      omega
    · rw [List.flatten_cons, List.append_assoc, ← e, List.take_append_drop]
termination_by m.length
decreasing_by rw [List.length_drop]; omega

/-! ## `ENCS` run to its end -/

theorem chained_nil (key chain : Buf) : chained key chain [] = [] := rfl

theorem chained_cons (key chain : Buf) (b : List Byte) (rest : List (List Byte)) :
    chained key chain (b :: rest) =
      toBytes .msbFirst (cipherBlock key chain b) 8 ++ chained key (cipherBlock key chain b) rest := rfl

theorem chained_singleton (key chain : Buf) (b : List Byte) :
    chained key chain [b] = toBytes .msbFirst (cipherBlock key chain b) 8 := List.append_nil _

theorem length_chained (key chain : Buf) (blocks : List (List Byte)) :
    (chained key chain blocks).length = 8 * blocks.length := by
  induction blocks generalizing chain with
  | nil => rfl
  | cons b rest ih =>
    rw [chained_cons, List.length_append, length_toBytes, ih, List.length_cons]
    omega

/-- The state after the step of a full block, whose ciphertext is `c` (45_cbc_stream.md R175 step 2). -/
def State.afterCipher (s : State) (q : List InItem) (cur c : Buf) : State :=
  { s with
    inq := q, out := s.out ++ toBytes .msbFirst c 8, nwrites := s.nwrites + 1, round := RoundRegs.zero
    stream := { s.stream with chain := c, cur := cur, curn := 8#4 } }

section
variable (s : State) (q : List InItem) (cur c : Buf)

@[simp] theorem afterCipher_chain : (s.afterCipher q cur c).stream.chain = c := rfl

@[simp] theorem afterCipher_key : (s.afterCipher q cur c).key = s.key := rfl

@[simp] theorem afterCipher_inq : (s.afterCipher q cur c).inq = q := rfl

/-- What the step wrote comes before what the rest of the command writes. -/
theorem afterCipher_streamDone (rest : List InItem) (o : List Byte) (n : Nat) :
    (s.afterCipher q cur c).streamDone rest o n = s.streamDone rest (toBytes .msbFirst c 8 ++ o) (n + 1) :=
  streamDone_after ..

/-- After a full block the state repeats (45_cbc_stream.md R175 step 2). -/
theorem afterCipher_streaming {w : CmdWord} {a : Sst} (h : s.Streaming w a) : (s.afterCipher q cur c).Streaming w a :=
  h.goesOn _ _ _ (Nat.le_succ _) _ h.sst

end

/-- The step of a full block whose write is accepted (45_cbc_stream.md R175 step 2). -/
theorem step_encs_full {s : State} (h : s.Streaming 0xC8000000#32 .eblk) {bs : List Byte} {rest : List InItem}
    (hn : bs.length = 8) (hq : s.inq = bs.map InItem.byte ++ rest) : step s =
      .next (s.afterCipher rest (fromBytes .msbFirst bs ^^^ s.stream.chain) (cipherBlock s.key.v s.stream.chain bs)) :=
  h.step_encs.trans ((exec_encs_eblk_full h.sst hn hq).trans (emitCipher_full _ _ h.writesOk.writeOk))

/-- From `S_EBLK` to the end: a step for each whole block and one for the tail (45_cbc_stream.md R175 step 2). -/
theorem encs_eblk_reaches {blocks : List (List Byte)} {tail : List Byte} {rest : List InItem} {s : State}
    (h : s.Streaming 0xC8000000#32 .eblk) (hb : ∀ b ∈ blocks, b.length = 8) (ht : tail.length < 8)
    (hq : s.inq = (blocks.flatten ++ tail).map InItem.byte ++ InItem.eos :: rest) :
    Reaches s (s.streamDone rest (chained s.key.v s.stream.chain (blocks ++ paddedTail tail))
      (blocks ++ paddedTail tail).length) := by
  induction blocks generalizing s with
  | nil =>
    refine .single (h.step_encs.trans ?_)
    by_cases h0 : tail = []
    · subst h0
      rw [List.nil_append, paddedTail_nil, chained_nil, List.length_nil, streamDone_nil]
      exact exec_encs_eblk_eos h.sst hq
    · rw [paddedTail_of_ne_nil h0, List.nil_append, chained_singleton]
      exact (exec_encs_eblk_short h.sst (List.length_pos_of_ne_nil h0) ht hq).trans
        (emitCipher_short ht _ _ h.writesOk.writeOk)
  | cons b blocks ih =>
    obtain ⟨hlen, hblocks⟩ := List.forall_mem_cons.1 hb
    rw [List.flatten_cons, List.append_assoc, List.map_append, List.append_assoc] at hq
    have after := fun cur =>
      ih (afterCipher_streaming s _ cur (cipherBlock s.key.v s.stream.chain b) h) hblocks (afterCipher_inq ..)
    simp only [afterCipher_streamDone, afterCipher_chain, afterCipher_key] at after
    rw [List.cons_append, chained_cons, List.length_cons]
    exact .head (step_encs_full h hlen hq) (after _)

/-! ## `DECS` run to its end -/

theorem unchained_nil (key chain : Buf) : unchained key chain [] = [] := rfl

theorem unchained_singleton (key chain : Buf) (c : List Byte) :
    unchained key chain [c] = unpad 8 (plainBlock key chain (fromBytes .msbFirst c)) := rfl

theorem unchained_cons (key chain : Buf) (c : List Byte) {rest : List (List Byte)} (h : rest ≠ []) :
    unchained key chain (c :: rest) =
      plainBlock key chain (fromBytes .msbFirst c) ++ unchained key (fromBytes .msbFirst c) rest := by
  cases rest with
  | nil => exact absurd rfl h
  | cons => rfl

/-- From `S_DBLK` to the end: a step for each block, the first of them in `CUR` (45_cbc_stream.md R179 step 3). -/
theorem decs_dblk_reaches {blocks : List (List Byte)} {c : List Byte} {rest : List InItem} {s : State}
    (h : s.Streaming 0xCC000000#32 .dblk) (hc : s.stream.cur = fromBytes .msbFirst c) (hb : ∀ b ∈ blocks, b.length = 8)
    (hq : s.inq = blocks.flatten.map InItem.byte ++ InItem.eos :: rest) :
    Reaches s (s.streamDone rest (unchained s.key.v s.stream.chain (c :: blocks)) (blocks.length + 1)) := by
  induction blocks generalizing s c with
  | nil =>
    rw [unchained_singleton, ← hc]
    exact .single (h.step_decs.trans ((exec_decs_dblk_eos h.sst hq).trans
      (emitPlain_last _ (unpad_plainBlock_ne_nil _ _ _) h.writesOk.writeOk)))
  | cons b blocks ih =>
    obtain ⟨hlen, hblocks⟩ := List.forall_mem_cons.1 hb
    rw [List.flatten_cons, List.map_append, List.append_assoc] at hq
    have first := h.step_decs.trans ((exec_decs_dblk_full h.sst hlen hq).trans
      (emitPlain_next _ (plainBlock_ne_nil _ _ _) h.writesOk.writeOk))
    rw [unchained_cons _ _ _ (List.cons_ne_nil b blocks), ← hc, List.length_cons, ← streamDone_after]
    exact .head first (ih (h.goesOn _ _ _ (Nat.le_succ _) _ h.sst) rfl hblocks rfl)

/-- From the state that has loaded the first block `c` as `x` to the end (45_cbc_stream.md R179 step 2). -/
theorem decs_loaded_reaches {a : Sst} {blocks : List (List Byte)} {c : List Byte} {x : Buf} {q rest : List InItem} {s : State}
    (h : s.Streaming 0xCC000000#32 a) (hx : x = fromBytes .msbFirst c) (hb : ∀ b ∈ blocks, b.length = 8)
    (hq : q = blocks.flatten.map InItem.byte ++ InItem.eos :: rest) :
    Reaches { s with inq := q, stream := { s.stream with cur := x, curn := 8#4, sst := .dblk } }
      (s.streamDone rest (unchained s.key.v s.stream.chain (c :: blocks)) (blocks.length + 1)) :=
  decs_dblk_reaches (s := { s with inq := q, stream := { s.stream with cur := x, curn := 8#4, sst := .dblk } })
    (h.goesOn _ _ _ (Nat.le_refl _) _ rfl) hx hb hq

/-- From `S_DFIRST` to the end: the first block is loaded, or there is none (45_cbc_stream.md R179 step 2). -/
theorem decs_dfirst_reaches {blocks : List (List Byte)} {rest : List InItem} {s : State}
    (h : s.Streaming 0xCC000000#32 .dfirst) (hb : ∀ b ∈ blocks, b.length = 8)
    (hq : s.inq = blocks.flatten.map InItem.byte ++ InItem.eos :: rest) :
    Reaches s (s.streamDone rest (unchained s.key.v s.stream.chain blocks) blocks.length) := by
  cases blocks with
  | nil =>
    rw [unchained_nil, List.length_nil, streamDone_nil]
    exact .single (h.step_decs.trans (exec_decs_dfirst_eos h.sst hq))
  | cons b blocks =>
    obtain ⟨hlen, hblocks⟩ := List.forall_mem_cons.1 hb
    rw [List.flatten_cons, List.map_append, List.append_assoc] at hq
    exact .head (h.step_decs.trans (exec_decs_dfirst_full h.sst hlen hq)) (decs_loaded_reaches h rfl hblocks rfl)

/-! ## What `DECS` makes of the blocks of `ENCS` -/

/-- The ciphertext of `chained` block by block. -/
def cipherBlocks (key chain : Buf) : List (List Byte) → List (List Byte)
  | [] => []
  | b :: rest => toBytes .msbFirst (cipherBlock key chain b) 8 :: cipherBlocks key (cipherBlock key chain b) rest

theorem flatten_cipherBlocks (key chain : Buf) (blocks : List (List Byte)) :
    (cipherBlocks key chain blocks).flatten = chained key chain blocks := by
  induction blocks generalizing chain with
  | nil => rfl
  | cons b rest ih => rw [cipherBlocks, List.flatten_cons, ih, chained_cons]

theorem length_of_mem_cipherBlocks {key chain : Buf} {blocks : List (List Byte)} :
    ∀ c ∈ cipherBlocks key chain blocks, c.length = 8 := by
  induction blocks generalizing chain with
  | nil => exact List.forall_mem_nil _
  | cons b rest ih => exact List.forall_mem_cons.2 ⟨length_toBytes .., ih⟩

theorem cipherBlocks_append_singleton_ne_nil (key chain : Buf) (blocks : List (List Byte)) (b : List Byte) :
    cipherBlocks key chain (blocks ++ [b]) ≠ [] := by
  cases blocks <;> exact List.cons_ne_nil _ _

/-- A block decrypted and unchained is the block that was chained and encrypted (44_feistel.md R164). -/
theorem plainBlock_cipherBlock (key chain : Buf) {b : List Byte} (h : b.length = 8) :
    plainBlock key chain (cipherBlock key chain b) = b := by
  rw [plainBlock, cipherBlock, (blockRoundTrip.1 _ key).1, BitVec.xor_assoc, BitVec.xor_self, BitVec.xor_zero, ← h,
    toBytes_fromBytes _ (Nat.le_of_eq h)]

/-- Every block but the last comes back, and the last one unpadded (45_cbc_stream.md R183). -/
theorem unchained_cipherBlocks (key chain : Buf) {blocks : List (List Byte)} {last : List Byte}
    (h : ∀ b ∈ blocks, b.length = 8) (hl : last.length = 8) :
    unchained key chain (cipherBlocks key chain (blocks ++ [last])) = blocks.flatten ++ unpad 8 last := by
  induction blocks generalizing chain with
  | nil =>
    rw [List.nil_append, cipherBlocks, cipherBlocks, unchained_singleton, fromBytes_toBytes, plainBlock_cipherBlock _ _ hl]
    rfl
  | cons b rest ih =>
    obtain ⟨hb, hrest⟩ := List.forall_mem_cons.1 h
    rw [List.cons_append, cipherBlocks, unchained_cons _ _ _ (cipherBlocks_append_singleton_ne_nil _ _ _ _), fromBytes_toBytes,
      plainBlock_cipherBlock _ _ hb, ih _ hrest, List.flatten_cons, List.append_assoc]

/-- The bytes of the padding (45_cbc_stream.md R176). -/
theorem getD_pad_of_le {bs : List Byte} {i : Nat} (h : bs.length ≤ i) (hi : i < 8) :
    (pad 8 bs).getD i 0 = BitVec.ofNat 8 (8 - bs.length) := by
  rw [pad, List.getD_append_right _ _ _ _ h, List.getD_replicate]
  omega

/-- The byte before the padding is the last one of what was padded. -/
theorem getD_pad_last {bs : List Byte} (h : bs ≠ []) : (pad 8 bs).getD (bs.length - 1) 0 = bs.getLastD 0 := by
  have := List.length_pos_of_ne_nil h
  rw [pad, List.getD_append _ _ _ _ (by omega), List.getLastD_eq_getLast?, List.getLast?_eq_getElem?,
    List.getD_eq_getElem?_getD]

/-- `Unpad` undoes `Pad` but where the byte before the padding equals it (45_cbc_stream.md R183). -/
theorem unpad_pad {bs : List Byte} (h : bs ≠ []) (hn : bs.length < 8) :
    unpad 8 (pad 8 bs) = if bs.getLastD 0 = BitVec.ofNat 8 (8 - bs.length) then pad 8 bs else bs := by
  have h0 := List.length_pos_of_ne_nil h
  have hp : (pad 8 bs).length = 8 := length_pad (Nat.le_of_lt hn)
  have last : (pad 8 bs).getD 7 0 = BitVec.ofNat 8 (8 - bs.length) := getD_pad_of_le (by omega) (by decide)
  have count : ((pad 8 bs).getD 7 0).toNat = 8 - bs.length := by
    rw [last, BitVec.toNat_ofNat]
    omega
  have before : (pad 8 bs).getD (7 - ((pad 8 bs).getD 7 0).toNat) 0 = bs.getLastD 0 := by
    rw [count, show 7 - (8 - bs.length) = bs.length - 1 by omega, getD_pad_last h]
  split_ifs with e
  · exact unpad_keep hp (.inr (.inr (before.trans (e.trans last.symm))))
  · have run : ∀ j, j < ((pad 8 bs).getD 7 0).toNat → (pad 8 bs).getD (7 - j) 0 = (pad 8 bs).getD 7 0 := fun j hj => by
      rw [getD_pad_of_le (by omega) (by omega), last]
    rw [unpad_cut hp (by omega) run (by rwa [before, last]), count, Nat.sub_sub_self (Nat.le_of_lt hn), pad, List.take_left]

/-- 45_cbc_stream.md R183, the row of whole blocks. -/
theorem returned_whole {blocks : List (List Byte)} {last : List Byte} (h : ∀ b ∈ blocks, b.length = 8)
    (hl : last.length = 8) : returned (blocks.flatten ++ last) = blocks.flatten ++ unpad 8 last := by
  have len : (blocks.flatten ++ last).length = 8 * blocks.length + 8 := by
    rw [List.length_append, length_flatten_of_eight h, hl]
  have nonempty : blocks.flatten ++ last ≠ [] := List.ne_nil_of_length_pos (by omega)
  have whole : (8 * blocks.length + 8) % 8 = 0 := by omega
  rw [returned, len, if_neg nonempty, if_pos whole, Nat.add_sub_cancel, ← length_flatten_of_eight h, List.take_left,
    List.drop_left]

/-- 45_cbc_stream.md R183, the row of a message with a tail. -/
theorem returned_tail {blocks : List (List Byte)} {tail : List Byte} (h : ∀ b ∈ blocks, b.length = 8)
    (h0 : tail ≠ []) (ht : tail.length < 8) :
    returned (blocks.flatten ++ tail) = blocks.flatten ++ unpad 8 (pad 8 tail) := by
  have hpos := List.length_pos_of_ne_nil h0
  have len : (blocks.flatten ++ tail).length % 8 = tail.length := by
    rw [List.length_append, length_flatten_of_eight h]
    omega
  have nonempty : blocks.flatten ++ tail ≠ [] := List.append_ne_nil_of_right_ne_nil _ h0
  have last : (blocks.flatten ++ tail).getLastD 0 = tail.getLastD 0 := by
    rw [List.getLastD_eq_getLast?, List.getLast?_append_of_ne_nil _ h0, List.getLastD_eq_getLast?]
  rw [returned, len, last, if_neg nonempty, if_neg (Nat.ne_of_gt hpos), unpad_pad h0 ht, apply_ite (blocks.flatten ++ ·), pad,
    List.append_assoc]

/-- The table of 45_cbc_stream.md R183 for every message. -/
theorem unchained_cipherBlocks_message (key chain : Buf) {blocks : List (List Byte)} {tail : List Byte}
    (h : ∀ b ∈ blocks, b.length = 8) (ht : tail.length < 8) :
    unchained key chain (cipherBlocks key chain (blocks ++ paddedTail tail)) = returned (blocks.flatten ++ tail) := by
  by_cases h0 : tail = []
  · rw [h0, paddedTail_nil, List.append_nil, List.append_nil]
    rcases List.eq_nil_or_concat' blocks with rfl | ⟨init, last, rfl⟩
    · rfl
    · obtain ⟨hinit, hlast⟩ := List.forall_mem_append.1 h
      have hl := hlast last (List.mem_singleton_self last)
      rw [unchained_cipherBlocks _ _ hinit hl, List.flatten_append, List.flatten_singleton, returned_whole hinit hl]
  · rw [paddedTail_of_ne_nil h0, unchained_cipherBlocks _ _ h (length_pad (Nat.le_of_lt ht)), returned_tail h h0 ht]

/-! ## How far a changed block reaches -/

/-- The chaining value behind the blocks given (45_cbc_stream.md R179). -/
def chainAfter (iv : Buf) : List (List Byte) → Buf
  | [] => iv
  | c :: rest => chainAfter (fromBytes .msbFirst c) rest

theorem chainAfter_append_singleton (iv : Buf) (blocks : List (List Byte)) (b : List Byte) :
    chainAfter iv (blocks ++ [b]) = fromBytes .msbFirst b := by
  induction blocks generalizing iv with
  | nil => rfl
  | cons c rest ih => exact ih _

/-- The plaintext of blocks none of which is the last (45_cbc_stream.md R179). -/
def plainBlocks (key chain : Buf) : List (List Byte) → List Byte
  | [] => []
  | c :: rest => plainBlock key chain (fromBytes .msbFirst c) ++ plainBlocks key (fromBytes .msbFirst c) rest

theorem length_plainBlocks (key chain : Buf) (blocks : List (List Byte)) :
    (plainBlocks key chain blocks).length = 8 * blocks.length := by
  induction blocks generalizing chain with
  | nil => rfl
  | cons c rest ih =>
    rw [plainBlocks, List.length_append, length_plainBlock, ih, List.length_cons]
    omega

/-- Earlier blocks reach later ones through the chaining value alone. -/
theorem unchained_append (key chain : Buf) (blocks : List (List Byte)) {rest : List (List Byte)} (h : rest ≠ []) :
    unchained key chain (blocks ++ rest) = plainBlocks key chain blocks ++ unchained key (chainAfter chain blocks) rest := by
  induction blocks generalizing chain with
  | nil => rfl
  | cons c blocks ih =>
    rw [List.cons_append, unchained_cons _ _ _ (List.append_ne_nil_of_right_ne_nil _ h), ih, plainBlocks, List.append_assoc]
    rfl

/-- Bits flipped in the chaining value are flipped in the plaintext (45_cbc_stream.md R184). -/
theorem fromBytes_plainBlock_xor (key chain c d : Buf) :
    fromBytes .msbFirst (plainBlock key (chain ^^^ d) c) = fromBytes .msbFirst (plainBlock key chain c) ^^^ d := by
  rw [plainBlock, plainBlock, fromBytes_toBytes, fromBytes_toBytes, BitVec.xor_assoc]

/-! ## The obligations -/

/-- Settles O57: the key check, the IV, then the blocks one by one. -/
theorem encsWholeStream : Obligations.EncsWholeStream := by
  intro s words blocks tail iv draws rest hs hz hr hopen hlen hw hc hrng hb ht hq
  rw [← length_blocks hb ht]
  have begins := step_begins hs hz (keyOk_iff.2 ⟨hopen, hlen⟩) (decode_encs_iff.2 rfl) exec_encs hc
  have begun := begun_streaming hs hw 0xC8000000#32 words .eiv
  have draws := begun.step_encs.trans (exec_encs_eiv_writes begun.sst hrng begun.writesOk.writeOk)
  obtain ⟨steps, run⟩ := Reaches.head begins (.head draws
    (encs_eblk_reaches (begun.goesOn _ _ _ (Nat.le_succ _) _ rfl) hb ht hq))
  refine ⟨steps, _, rfl, length_chained _ _ _, run.trans (congrArg _ ?_)⟩
  exact streamEnded_of_ready (s := { s with cmd := words, inq := rest, rng := _, out := _, nwrites := _ }) hs hz hr _ _

/-- Settles O58: the key check, the IV, the first block, then the blocks one by one behind it. -/
theorem decsWholeStream : Obligations.DecsWholeStream := by
  intro s words blocks iv rest hs hz hr hopen hlen hw hc hiv hb hq
  rw [List.map_append, List.append_assoc] at hq
  have begins := step_begins hs hz (keyOk_iff.2 ⟨hopen, hlen⟩) (decode_decs_iff.2 rfl) exec_decs hc
  have begun := begun_streaming hs hw 0xCC000000#32 words .div
  have loads := begun.step_decs.trans (exec_decs_div_full begun.sst hiv hq)
  obtain ⟨steps, run⟩ := Reaches.head begins (.head loads
    (decs_dfirst_reaches (begun.goesOn _ _ _ (Nat.le_refl _) _ rfl) hb rfl))
  refine ⟨steps, run.trans (congrArg _ ?_)⟩
  exact streamEnded_of_ready (s := { s with cmd := words, inq := rest, out := _, nwrites := _ }) hs hz hr _ _

/-- Settles O59: the ciphertext blocks that `ENCS` wrote give back the blocks of the message. -/
theorem streamRoundTrip : Obligations.StreamRoundTrip := by
  intro s words m iv draws rest hs hz hr hopen hlen hw hc hrng hq
  obtain ⟨blocks, tail, hb, ht, rfl⟩ := exists_blocks m
  obtain ⟨steps, _, rfl, -, run⟩ :=
    encsWholeStream s words blocks tail iv draws rest hs hz hr hopen hlen hw hc hrng hb ht hq
  refine ⟨steps, _, iv.toList ++ chained s.key.v (fromBytes .msbFirst iv.toList) (blocks ++ paddedTail tail), run, hs,
    rfl, rfl, rfl, List.append_assoc .., ?_⟩
  intro u words' rest' hu huz hur hkey huw huc huq
  rw [← flatten_cipherBlocks] at huq
  obtain ⟨steps', run'⟩ := decsWholeStream u words' _ iv.toList rest' hu huz hur (by rwa [hkey]) (by rwa [hkey]) huw huc
    (Vector.length_toList ..) length_of_mem_cipherBlocks huq
  rw [hkey, unchained_cipherBlocks_message _ _ hb ht] at run'
  exact ⟨steps', _, run', hu, rfl, rfl, rfl⟩

/-- Settles O60: a block reaches its own plaintext and, as the chaining value, the next one. -/
theorem chainingDependency : Obligations.ChainingDependency := by
  intro key iv d pre post c n last _ _ _ _ c'
  have hc' : fromBytes .msbFirst c' = fromBytes .msbFirst c ^^^ d := fromBytes_toBytes ..
  have nonempty : post ++ [last] ≠ [] := List.append_ne_nil_of_right_ne_nil _ (List.cons_ne_nil last [])
  have parts (x : List Byte) : unchained key iv (pre ++ x :: n :: (post ++ [last])) =
      plainBlocks key iv pre ++ plainBlock key (chainAfter iv pre) (fromBytes .msbFirst x) ++
        plainBlock key (fromBytes .msbFirst x) (fromBytes .msbFirst n) ++
        unchained key (fromBytes .msbFirst n) (post ++ [last]) := by
    rw [unchained_append _ _ _ (List.cons_ne_nil _ _), unchained_cons _ _ _ (List.cons_ne_nil _ _),
      unchained_cons _ _ _ nonempty, List.append_assoc, List.append_assoc]
  refine ⟨_, _, _, _, _, _, parts c, (parts c').trans (by rw [hc']), length_plainBlocks _ _ _, length_plainBlock _ _ _,
    length_plainBlock _ _ _, length_plainBlock _ _ _, length_plainBlock _ _ _,
    ⟨chainAfter iv pre, ?_, ?_, renders_toBytes _ 8, renders_toBytes _ 8⟩, fromBytes_plainBlock_xor _ _ _ _,
    _, _, _, length_plainBlock _ _ _, length_plainBlock _ _ _, unchained_cons _ _ _ nonempty, unchained_cons _ _ _ nonempty,
    fromBytes_plainBlock_xor _ _ _ _⟩
  · rintro rfl
    rfl
  · rintro q b rfl
    exact chainAfter_append_singleton _ _ _

end Sys2Proof.Machine
end

section
/-! PROOFS. Faults, halt, stall and mode (spec/60_exceptions.md): what a step that halts has left, what a halted engine does with
the words it is given, that a starved read or draw waits for what it lacks, and that a command answers alike from states that
differ in a mode or a key it does not look at. -/

namespace Sys2Proof.Machine

/-! ## Fault entry -/

/-- `raise c` answers the state the statements write out (60_exceptions.md R203). -/
theorem trap_eq_faulted (c : FaultCode) (s : State) : trap c s = .next (s.faulted c.code) := rfl

/-- What a fault leaves of the state `s` in which its command ran (60_exceptions.md R200 to R203, R208). -/
structure PreciseFault (s t : State) : Prop where
  /-- One of the codes that a running engine raises (R201). -/
  fcode : t.fcode ∈ [1#3, 2#3, 4#3, 5#3, 6#3]
  fcmd : t.fcmd = s.cip
  busy : t.status.busy = false
  round : t.round = RoundRegs.zero
  stream : t.stream = StreamRegs.zero
  bufs : t.bufs = s.bufs
  key : t.key = s.key
  res : t.res = s.res
  test : t.test = s.test
  /-- The faults that are raised before a port moves (R208). -/
  ports : t.fcode ∈ [1#3, 4#3, 5#3] → t.inq = s.inq ∧ t.out = s.out ∧ t.rng = s.rng ∧ t.nwrites = s.nwrites

/-- The codes of `E_ARG`, `E_ILLEGAL` and `E_CAP` (60_exceptions.md R201). -/
theorem FaultCode.of_code_mem {c : FaultCode} (h : c.code ∈ [1#3, 4#3, 5#3]) : c = .arg ∨ c = .illegal ∨ c = .cap := by
  cases c with
  | arg => exact .inl rfl
  | illegal => exact .inr (.inl rfl)
  | cap => exact .inr (.inr rfl)
  | io | constraint | format => exact absurd h (by decide)

theorem FaultCode.code_mem {c : FaultCode} (h : c ≠ .constraint) : c.code ∈ [1#3, 2#3, 4#3, 5#3, 6#3] := by
  cases c with
  | constraint => exact absurd rfl h
  | arg | io | illegal | cap | format => decide

/-- Fault entry from a state `u` whose registers and word are those of `s`. -/
theorem preciseFault_raise {s u : State} {c : FaultCode} (hc : c ≠ .constraint) (hcip : u.cip = s.cip)
    (hb : u.bufs = s.bufs) (hk : u.key = s.key) (hr : u.res = s.res) (htest : u.test = s.test)
    (hp : c = .arg ∨ c = .illegal ∨ c = .cap → u.inq = s.inq ∧ u.out = s.out ∧ u.rng = s.rng ∧ u.nwrites = s.nwrites) :
    PreciseFault s (u.raise c) :=
  { fcode := FaultCode.code_mem hc
    fcmd := hcip
    busy := rfl
    round := rfl
    stream := rfl
    bufs := hb
    key := hk
    res := hr
    test := htest
    ports := fun hm => hp (FaultCode.of_code_mem hm) }

/-- A command that faults has changed no register of the host's, and no port before its checks. -/
theorem FaultsFrom.precise {i : Instr} {s t : State} (h : FaultsFrom i s t) : PreciseFault s t := by
  obtain ⟨u, c, m, hb, hk, hr, hc, rfl, hp⟩ := h
  obtain ⟨htest, -, -, -, -, hcip, -⟩ := m.rest
  exact preciseFault_raise hc hcip hb hk hr htest hp

/-- A command faults, or leaves `HALT` and the mode as they were. -/
theorem exec_faults_or_keeps {i : Instr} {s t : State} (h : exec i s = .next t) :
    FaultsFrom i s t ∨ (t.status.halt = s.status.halt ∧ t.test = s.test) := by
  have kept {u : State} (m : Moves i s u) (eh : t.status.halt = u.status.halt) (et : t.test = u.test) :
      t.status.halt = s.status.halt ∧ t.test = s.test := by
    obtain ⟨htest, -, -, -, -, -, -, -, hhalt⟩ := m.rest
    exact ⟨eh.trans hhalt, et.trans htest⟩
  rcases exec_cases h with rfl | hf | ⟨-, -, u, m, -, rfl, -⟩ | ⟨-, u, m, -, -, -, rfl | ⟨rfl, -⟩⟩ |
    ⟨-, u, m, -, -, -, rfl | ⟨rfl, -⟩⟩
  · exact .inr ⟨rfl, rfl⟩
  · exact .inl hf
  all_goals exact .inr (kept m rfl rfl)

/-- No command changes the mode (60_exceptions.md R206). -/
theorem exec_test {i : Instr} {s t : State} (h : exec i s = .next t) : t.test = s.test := by
  rcases exec_faults_or_keeps h with hf | ⟨-, htest⟩
  · exact hf.precise.test
  · exact htest

/-- A command in progress that leaves the engine halted has faulted, whatever its word. -/
theorem runCommand_precise {s t : State} (h : runCommand exec s = .next t) (hs : s.status.halt = false)
    (ht : t.status.halt = true) : PreciseFault s t := by
  rcases runCommand_cases h with ⟨i, -, h⟩ | ⟨-, -, rfl⟩
  · rcases exec_faults_or_keeps h with hf | ⟨hhalt, -⟩
    · exact hf.precise
    · rw [hhalt, hs] at ht
      cases ht
  · exact preciseFault_raise (by decide) rfl rfl rfl rfl rfl fun _ => ⟨rfl, rfl, rfl, rfl⟩

/-! ## A halted engine -/

/-- A halted engine loses the word it is given, on any build (60_exceptions.md R204). -/
theorem stepBy_of_halted (B : Build) (run : Instr → State → Result) {s : State} (hr : s.resetPin = false)
    (hh : s.status.halt = true) : stepBy B run s = .next { s with cmd := s.cmd.tail } := by
  cases hc : s.cmd with
  | nil =>
    have same : s = { s with cmd := [] } := by rw [← hc]
    rw [List.tail_nil, ← same]
    simp [stepBy, fetchOn, hr, hh, hc]
  | cons w rest => simp [stepBy, fetchOn, State.offer, hr, hh, hc]

/-- However many words it loses, it stays as it is (60_exceptions.md R204). -/
theorem runBy_of_halted (B : Build) (run : Instr → State → Result) (n : Nat) {s : State} (hr : s.resetPin = false)
    (hh : s.status.halt = true) : runBy (stepBy B run) n s = .next { s with cmd := s.cmd.drop n } := by
  induction n generalizing s with
  | zero => rfl
  | succ n ih =>
    rw [runBy_succ (stepBy_of_halted B run hr hh), ← List.drop_tail]
    exact ih hr hh

/-! ## Reads and draws that wait -/

/-- 20_memory.md R56, row 4: exactly the queues on which a read stalls. -/
theorem readFully_starved_iff {n : Nat} {q : List InItem} :
    readFully n q = .starved ↔ ∃ bs : List Byte, bs.length < n ∧ q = bs.map InItem.byte := by
  refine ⟨readFully_starved, ?_⟩
  rintro ⟨bs, hn, rfl⟩
  obtain ⟨m, e⟩ := readFully_short hn []
  rw [List.append_nil] at e
  rw [e, readFully, ReadResult.after]

theorem withRead_of_starved {n : Nat} {s : State} (k : List Byte → State → Result) (h : readFully n s.inq = .starved) :
    withRead n s k = .next s := by
  rw [withRead, h, stall_eq]

/-- Every state of `DECS` that has begun reads a block first (45_cbc_stream.md R179). -/
theorem exec_decs_reads {s : State} (h : s.stream.sst ∈ [.div, .dfirst, .dblk]) : ∃ k, exec .decs s = withRead 8 s k := by
  simp only [List.mem_cons, List.not_mem_nil, or_false] at h
  rcases h with h | h | h
  · exact exec_decs_opening (.inl h)
  · exact exec_decs_opening (.inr h)
  · exact ⟨_, exec_decs_dblk h⟩

/-- The bytes supplied stand behind those that were there (10_state.md R29). -/
theorem supplyIn_inq {s : State} {bs : List Byte} (h : s.inq = bs.map InItem.byte) (more : List Byte) (rest : List InItem) :
    (s.supplyIn (more.map InItem.byte ++ rest)).inq = (bs ++ more).map InItem.byte ++ rest := by
  rw [State.supplyIn, h, List.map_append, List.append_assoc]

/-- A draw supplied to an empty queue is the next one (10_state.md R29). -/
theorem supplyDraw_rng {s : State} (h : s.rng = []) (d : Draw) : (s.supplyDraw d).rng = [d] := by
  rw [State.supplyDraw, h, List.nil_append]

/-! ## Two runs of one command -/

/-- `s` with its mode and its key replaced; `id` keeps either. -/
def State.recast (f : Bool → Bool) (g : KeyReg → KeyReg) (s : State) : State := { s with test := f s.test, key := g s.key }

@[simp] theorem State.recast_inq (f : Bool → Bool) (g : KeyReg → KeyReg) (s : State) : (s.recast f g).inq = s.inq := rfl
@[simp] theorem State.recast_stream (f : Bool → Bool) (g : KeyReg → KeyReg) (s : State) :
    (s.recast f g).stream = s.stream := rfl

/-- Both outcomes are next states, the second the first one recast. -/
def Alike (f : Bool → Bool) (g : KeyReg → KeyReg) (r r' : Result) : Prop := ∃ t, r = .next t ∧ r' = .next (t.recast f g)

section
variable {f : Bool → Bool} {g : KeyReg → KeyReg} {s : State}

theorem Alike.next_recast {r r' : Result} {t : State} (h : Alike f g r r') (ht : r = .next t) :
    r' = .next (t.recast f g) := by
  obtain ⟨u, hu, hu'⟩ := h
  obtain rfl : t = u := Host.Outcome.next.inj (ht.symm.trans hu)
  exact hu'

theorem alike_next (t : State) : Alike f g (.next t) (.next (t.recast f g)) := ⟨t, rfl, rfl⟩

/-- The check that fails is the same one, and fault entry looks at neither the mode nor the key. -/
theorem alike_require {ok : Bool} (c : FaultCode) {k k' : Result} (h : Alike f g k k') :
    Alike f g (require ok c s k) (require ok c (s.recast f g) k') := by
  cases ok with
  | true => exact h
  | false => exact alike_next (s.raise c)

theorem alike_withBuf (r : Reg) {k k' : Buf → Result} (h : ∀ v, Alike f g (k v) (k' v)) :
    Alike f g (withBuf r s k) (withBuf r (s.recast f g) k') :=
  alike_require .arg (h s.bufs[r].v)

theorem alike_withRead (n : Nat) {k k' : List Byte → State → Result} (h : ∀ bs t, Alike f g (k bs t) (k' bs (t.recast f g))) :
    Alike f g (withRead n s k) (withRead n (s.recast f g) k') := by
  simp only [withRead, State.recast_inq]
  cases readFully n s.inq with
  | bytes bs rest => exact h bs { s with inq := rest }
  | failed rest => exact alike_next (State.raise { s with inq := rest } .io)
  | starved => exact alike_next s

theorem alike_withWrite (bs : List Byte) {k k' : State → Result} (h : ∀ t, Alike f g (k t) (k' (t.recast f g))) :
    Alike f g (withWrite bs s k) (withWrite bs (s.recast f g) k') := by
  by_cases hbs : bs = []
  · rw [hbs, withWrite_nil, withWrite_nil]
    exact h s
  · by_cases hf : s.outFail = some s.nwrites
    · rw [withWrite_failed k hbs hf, withWrite_failed (s := s.recast f g) k' hbs hf]
      exact alike_next (State.raise { s with nwrites := s.nwrites + 1 } .io)
    · rw [withWrite_ok k hbs hf, withWrite_ok (s := s.recast f g) k' hbs hf]
      exact h { s with nwrites := s.nwrites + 1, out := s.out ++ bs }

theorem alike_withDraw {k k' : Draw → State → Result} (h : ∀ d t, Alike f g (k d t) (k' d (t.recast f g))) :
    Alike f g (withDraw s k) (withDraw (s.recast f g) k') := by
  cases hr : s.rng with
  | nil =>
    rw [withDraw_nil k hr, withDraw_nil (s := s.recast f g) k' hr]
    exact alike_next s
  | cons d rest =>
    rw [withDraw_cons k hr, withDraw_cons (s := s.recast f g) k' hr]
    exact h d { s with rng := rest }

theorem alike_ite (p : Prop) [Decidable p] {a a' b b' : Result} (ha : Alike f g a a') (hb : Alike f g b b') :
    Alike f g (if p then a else b) (if p then a' else b') := by
  split
  · exact ha
  · exact hb

/-! ### The shapes of commands that look at neither the mode nor the key, and `DBG` -/

theorem alike_writeBuf (t : State) (rd : Reg) (v : Buf) :
    Alike f g (done (t.writeBuf rd v)) (done ((t.recast f g).writeBuf rd v)) :=
  alike_next (t.afterBuf rd v)

theorem alike_mutate (rd : Reg) (h : Buf → Buf) : Alike f g (mutate rd h s) (mutate rd h (s.recast f g)) :=
  alike_withBuf rd fun d => alike_writeBuf s rd (h d)

theorem alike_combine (rd rs : Reg) (h : Buf → Buf → Buf) :
    Alike f g (combine rd rs h s) (combine rd rs h (s.recast f g)) :=
  alike_withBuf rd fun d => alike_withBuf rs fun x => alike_writeBuf s rd (h d x)

/-- The commands that read `rs`, check their numbers and write `rd`. -/
theorem alike_checked (rs rd : Reg) (ok : Bool) (h : Buf → Buf) :
    Alike f g (withBuf rs s fun x => require ok .arg s (done (s.writeBuf rd (h x))))
      (withBuf rs (s.recast f g) fun x => require ok .arg (s.recast f g) (done ((s.recast f g).writeBuf rd (h x)))) :=
  alike_withBuf rs fun x => alike_require .arg (alike_writeBuf s rd (h x))

theorem alike_keyHook (hook : Buf → Nat → Buf × BitVec 48) (rd rs : Reg) (r : BitVec 4) :
    Alike f g (keyHook hook rd rs r s) (keyHook hook rd rs r (s.recast f g)) :=
  alike_withBuf rs fun old => alike_require .arg
    (alike_writeBuf (s.writeBuf rs (hook old r.toNat).1) rd ((hook old r.toNat).2.setWidth 64))

theorem alike_withTwoBufs (rd rs rt : Reg) {k k' : Buf → Buf → Result} (h : ∀ x y, Alike f g (k x y) (k' x y)) :
    Alike f g (withTwoBufs rd rs rt s k) (withTwoBufs rd rs rt (s.recast f g) k') :=
  alike_withBuf rs fun x => alike_withBuf rt fun y => alike_require .arg (h x y)

/-- The commands `ENCB` and `DECB`. -/
theorem alike_block (rd rs rt : Reg) (h : Buf → Buf → Buf) :
    Alike f g (withTwoBufs rd rs rt s fun x y => done (s.scrubRound.writeBuf rd (h x y)))
      (withTwoBufs rd rs rt (s.recast f g) fun x y => done ((s.recast f g).scrubRound.writeBuf rd (h x y))) :=
  alike_withTwoBufs rd rs rt fun x y => alike_writeBuf s.scrubRound rd (h x y)

theorem alike_ldb (rd : Reg) (n : BitVec 4) : Alike f g (exec (.ldb rd n) s) (exec (.ldb rd n) (s.recast f g)) := by
  rw [exec_ldb, exec_ldb]
  exact alike_withRead n.toNat fun bs t => alike_writeBuf t rd (fromBytes .msbFirst bs)

theorem alike_withWrite_done (bs : List Byte) : Alike f g (withWrite bs s done) (withWrite bs (s.recast f g) done) :=
  alike_withWrite bs fun t => alike_next t.complete

/-- `DBG` looks at the mode, and in test mode at the key (40_bit_buffer.md R122). -/
theorem alike_dbg (rs : Reg) (sel : Bool) (hmode : f s.test = s.test) (hkey : s.test = false ∨ g = id) :
    Alike f g (exec (.dbg rs sel) s) (exec (.dbg rs sel) (s.recast f g)) := by
  rcases hkey with hnormal | rfl
  · rw [exec_dbg_normal rs sel hnormal, exec_dbg_normal rs sel (s := s.recast f g) (hmode.trans hnormal)]
    exact alike_next (s.raise .illegal)
  · have same : (s.recast f id).test = s.test := hmode
    simp only [exec, execDbg, dbgOn, same]
    exact alike_require .illegal (alike_withWrite_done _)

/-! ### The commands that write the key or look at it: only the mode is replaced -/

theorem alike_ldk (n : BitVec 4) : Alike f id (exec (.ldk n) s) (exec (.ldk n) (s.recast f id)) := by
  rw [exec_ldk, exec_ldk]
  exact alike_withRead _ fun _ _ => alike_next _

theorem alike_emitCipher (B : Build) (n : Nat) (cur c : Buf) :
    Alike f id (emitCipher B n cur c s) (emitCipher B n cur c (s.recast f id)) :=
  alike_withWrite (s := s.withBlock cur (BitVec.ofNat 4 n)) _ fun u =>
    alike_ite _ (alike_next (u.setChain c).finish) (alike_next (u.setChain c))

theorem alike_emitPlain (n : Nat) (nxt : Buf) (p : List Byte) :
    Alike f id (emitPlain n nxt p s) (emitPlain n nxt p (s.recast f id)) :=
  alike_withWrite (s := s.withLookAhead nxt (BitVec.ofNat 4 n)) _ fun u =>
    alike_ite _ (alike_next (u.setChain u.stream.cur).finish) (alike_next (u.setChain u.stream.cur).advance)

/-- Stated for every value: the check that the two next states are one runs long with `FromBytes` in its place. -/
theorem alike_loadChain (t : State) (c : Buf) (next : Sst) :
    Alike f id (.next (t.loadChain c next)) (.next ((t.recast f id).loadChain c next)) :=
  alike_next (t.loadChain c next)

theorem alike_loadCur (t : State) (b : Buf) (n : BitVec 4) :
    Alike f id (.next (t.loadCur b n)) (.next ((t.recast f id).loadCur b n)) :=
  alike_next (t.loadCur b n)

theorem alike_stepEiv (B : Build) : Alike f id (stepEiv B s) (stepEiv B (s.recast f id)) :=
  alike_withDraw fun d _ => alike_withWrite (ivOf B d) fun u => alike_loadChain u _ .eblk

theorem alike_stepEblk (B : Build) : Alike f id (stepEblk B s) (stepEblk B (s.recast f id)) :=
  alike_withRead B.blockBytes fun bs t => alike_ite _ (alike_next t.finish) (alike_emitCipher B bs.length _ _)

theorem alike_stepDiv (B : Build) : Alike f id (stepDiv B s) (stepDiv B (s.recast f id)) :=
  alike_withRead B.blockBytes fun _ t => alike_require .format (alike_loadChain t _ .dfirst)

theorem alike_stepDfirst (B : Build) : Alike f id (stepDfirst B s) (stepDfirst B (s.recast f id)) :=
  alike_withRead B.blockBytes fun _ t => alike_ite _ (alike_next t.finish) (alike_require .format (alike_loadCur t _ _))

theorem alike_stepDblk (B : Build) : Alike f id (stepDblk B s) (stepDblk B (s.recast f id)) :=
  alike_withRead B.blockBytes fun bs t =>
    alike_require .format (alike_emitPlain bs.length (fromBytes B.bitOrder bs) (plainOf B t (bs.length == 0)))

theorem alike_streamStep (B : Build) (first : Sst) :
    Alike f id (streamStep B first s) (streamStep B first (s.recast f id)) := by
  simp only [streamStep, State.recast_stream]
  cases s.stream.sst with
  | idle => exact alike_require .arg (alike_next (s.beginStream first))
  | eiv => exact alike_stepEiv B
  | eblk => exact alike_stepEblk B
  | div => exact alike_stepDiv B
  | dfirst => exact alike_stepDfirst B
  | dblk => exact alike_stepDblk B

/-- A command answers alike when it does not look at what is replaced: at the mode only `DBG` looks, at the key `DBG` in test
mode, the key commands and the stream commands (60_exceptions.md R206, 10_state.md R25). -/
theorem exec_alike (i : Instr) (hmode : f s.test = s.test ∨ ∀ rs sel, i ≠ .dbg rs sel)
    (hkey : (s.test = false ∧ (∀ n, i ≠ .ldk n) ∧ i ≠ .kclose ∧ i ≠ .encs ∧ i ≠ .decs) ∨ g = id) :
    Alike f g (exec i s) (exec i (s.recast f g)) := by
  cases i with
  | new rd => exact alike_writeBuf s rd 0
  | ldb rd n => exact alike_ldb rd n
  | clone rd rs => exact alike_withBuf rs fun x => alike_writeBuf s rd x
  | close rd => exact alike_next (s.closeBuf rd).complete
  | clr rd => exact alike_mutate rd fun _ => 0
  | setb rd p v => exact alike_mutate rd fun d => setBit d p.toNat v
  | flipb rd p => exact alike_mutate rd fun d => flipBit d p.toNat
  | copy rd rs => exact alike_combine rd rs fun _ x => 0 ||| x
  | and rd rs => exact alike_combine rd rs fun d x => d &&& x
  | or rd rs => exact alike_combine rd rs fun d x => d ||| x
  | xor rd rs => exact alike_combine rd rs fun d x => d ^^^ x
  | andn rd rs => exact alike_combine rd rs fun d x => d &&& ~~~x
  | getb rd p => exact alike_withBuf rd fun d => alike_next (s.writeRes (resOfBit (d.getLsbD p.toNat))).complete
  | len rd => exact alike_withBuf rd fun d => alike_next (s.writeRes (resOfLen d)).complete
  | setr rd lo hi v => exact alike_checked rd rd (rangeOk lo hi) fun d => setRange d lo.toNat hi.toNat v
  | flipr rd lo hi => exact alike_checked rd rd (rangeOk lo hi) fun d => flipRange d lo.toNat hi.toNat
  | getr rd rs lo hi => exact alike_checked rs rd (rangeOk lo hi) fun x => subRange x lo.toNat hi.toNat
  | rol rd n ring => exact alike_checked rd rd (n.toNat ≤ ring.toNat) fun d => rotLeft d n.toNat ring.toNat
  | ror rd n ring => exact alike_checked rd rd (n.toNat ≤ ring.toNat) fun d => rotRight d n.toNat ring.toNat
  | ovw rd rs pos sfrom n =>
    exact alike_withBuf rd fun d => alike_withBuf rs fun x => alike_require .cap
      (alike_writeBuf s rd (overwrite d x pos.toNat sfrom.toNat n.toNat))
  | stb rs n => exact alike_withBuf rs fun _ => alike_withWrite_done _
  | dbg rs sel =>
    exact alike_dbg rs sel (hmode.resolve_right fun h => h rs sel rfl) (hkey.imp_left And.left)
  | perm rd t => exact alike_mutate rd fun d => permute 64 d (Tables.perm Rom.des t)
  | sbox rd k x y => exact alike_mutate rd fun _ => (sEntry Rom.des k.toNat x.toNat y.toNat).setWidth 64
  | sub6 rd k => exact alike_mutate rd fun d => (sub6 Rom.des k.toNat (d.setWidth 6)).setWidth 64
  | kse rd rs r => exact alike_keyHook (roundKey Rom.des) rd rs r
  | ksd rd rs r => exact alike_keyHook (roundKeyDecrypt Rom.des) rd rs r
  | ffn rd rs rt =>
    rw [exec_ffn, exec_ffn]
    exact alike_withTwoBufs rd rs rt fun _ _ => alike_writeBuf { s with round := { s.round with wt := 0, wrk := 0 } } rd _
  | encb rd rs rt => exact alike_block rd rs rt (encryptBlock Build.des)
  | decb rd rs rt => exact alike_block rd rs rt (decryptBlock Build.des)
  | ldk n =>
    obtain rfl := hkey.resolve_left fun ⟨_, hldk, _⟩ => hldk n rfl
    exact alike_ldk n
  | kclose =>
    obtain rfl := hkey.resolve_left fun ⟨_, _, hkclose, _⟩ => hkclose rfl
    exact alike_next (s.writeKey KeyReg.closed).complete
  | encs =>
    obtain rfl := hkey.resolve_left fun ⟨_, _, _, hencs, _⟩ => hencs rfl
    exact alike_streamStep Build.des .eiv
  | decs =>
    obtain rfl := hkey.resolve_left fun ⟨_, _, _, _, hdecs⟩ => hdecs rfl
    exact alike_streamStep Build.des .div

end

/-! ## Commands answer -/

/-- A command answers a next state: two runs of it from one state are alike. -/
theorem exec_answers (i : Instr) (s : State) : ∃ t, exec i s = .next t := by
  obtain ⟨t, ht, -⟩ : Alike id id (exec i s) (exec i (s.recast id id)) := exec_alike i (.inl rfl) (.inr rfl)
  exact ⟨t, ht⟩

/-- So does the word in progress, whether it decodes to a command or faults. -/
theorem runCommand_answers (s : State) : ∃ t, runCommand exec s = .next t := by
  cases h : decode s.cip with
  | ok i =>
    rw [runCommand_ok h]
    exact exec_answers i s
  | error e => exact ⟨_, runCommand_error h⟩

/-! ## The obligations -/

/-- Settles O10: `raise` of each of the six codes. -/
theorem faultEntry : Obligations.FaultEntry := fun s =>
  ⟨trap_eq_faulted .arg s, trap_eq_faulted .io s, trap_eq_faulted .constraint s, trap_eq_faulted .illegal s,
    trap_eq_faulted .cap s, trap_eq_faulted .format s⟩

/-- Settles O11: a step that halts an engine has run a command, and that command has faulted. -/
theorem faultsArePrecise : Obligations.FaultsArePrecise := by
  intro s t hr hh ht hhalt
  rcases step_cases ht with ⟨hr', -⟩ | ⟨-, rfl⟩ | ⟨-, hh', -⟩ |
    ⟨-, -, u, hu, ⟨hb, rfl⟩ | ⟨hb, w, rest, hc, rfl⟩⟩
  · rw [hr] at hr'
    cases hr'
  · rw [hh] at hhalt
    cases hhalt
  · rw [hh] at hh'
    cases hh'
  · have p := runCommand_precise hu hh hhalt
    rw [hb]
    exact ⟨p.fcode, p.fcmd, p.busy, p.round, p.stream, p.bufs, p.key, p.res, p.test, p.ports⟩
  · have p := runCommand_precise hu hh hhalt
    rw [hb, hc]
    exact ⟨p.fcode, p.fcmd, p.busy, p.round, p.stream, p.bufs, p.key, p.res, p.test, p.ports⟩

/-- Settles O12: the port takes no word from a busy or halted engine, and a halted one only loses words. -/
theorem haltIgnoresWords : Obligations.HaltIgnoresWords := by
  refine ⟨fun s w h => ?_, fun n s hh hr => ⟨_, runBy_of_halted Build.des exec n hr hh⟩⟩
  rw [State.offer, if_pos (Bool.or_eq_true_iff.2 h)]

/-- Settles O13: a step resets, waits, or runs the command in progress, which answers. -/
theorem stepNeverStops : Obligations.StepNeverStops := by
  intro s
  rw [step, stepBy]
  cases fetchOn Build.des s with
  | idle t => exact ⟨t, rfl⟩
  | command t => exact runCommand_answers t

/-- Settles O14: the read or draw that a step begins with decides whether it waits, and what the host supplies stands behind
what was there. -/
theorem stallWaits : Obligations.StallWaits := by
  refine ⟨fun n q => readFully_starved_iff, ?_, ?_, ?_⟩
  · rintro i s (⟨rd, n, rfl, h⟩ | ⟨n, rfl, h⟩ | ⟨rfl, hs, h⟩ | ⟨rfl, hs, h⟩ | ⟨rfl, hs, h⟩)
    · exact (exec_ldb rd n s).trans (withRead_of_starved _ h)
    · exact (exec_ldk n s).trans (withRead_of_starved _ h)
    · exact (exec_encs_eiv hs).trans (withDraw_nil _ h)
    · exact (exec_encs_eblk hs).trans (withRead_of_starved _ h)
    · obtain ⟨k, reads⟩ := exec_decs_reads hs
      exact reads.trans (withRead_of_starved _ h)
  · intro s bs more rest hbs u
    have hq : u.inq = (bs ++ more).map InItem.byte ++ rest := supplyIn_inq hbs more rest
    rw [← List.length_append]
    refine ⟨fun rd n _ hn => ⟨_, holdsBytes_fromBytes _, (exec_ldb rd n u).trans (withRead_of_length _ hn hq)⟩,
      fun n hn => ⟨_, holdsBytes_fromBytes _, ?_⟩, fun hn => ⟨fun h hw => ?_, fun h => ?_, fun h => ?_, fun h hw => ?_⟩⟩
    · rw [exec_ldk, withRead_of_length _ hn hq, hn, BitVec.ofNat_toNat, BitVec.setWidth_eq]
      rfl
    · refine ⟨_, _, _, holdsBytes_fromBytes _, rfl, renders_toBytes _ _, ?_⟩
      exact (exec_encs_eblk_full (s := u) h hn hq).trans (emitCipher_full _ _ hw)
    · exact ⟨_, holdsBytes_fromBytes _, exec_decs_div_full h hn hq⟩
    · exact ⟨_, holdsBytes_fromBytes _, exec_decs_dfirst_full h hn hq⟩
    · refine ⟨_, _, holdsBytes_fromBytes _, renders_toBytes _ _, ?_⟩
      exact (exec_decs_dblk_full (s := u) h hn hq).trans (emitPlain_next _ (plainBlock_ne_nil _ _ _) hw)
  · intro s d h hr hw
    have writes := exec_encs_eiv_writes (s := s.supplyDraw d) h (supplyDraw_rng hr d) hw
    refine ⟨_, holdsBytes_fromBytes _, writes.trans ?_⟩
    rw [← hr]
    rfl

/-- Settles O15: `DBG` alone looks at the mode, and in normal mode its check fails. -/
theorem modeGatesDbgOnly : Obligations.ModeGatesDbgOnly := by
  refine ⟨fun i s t => exec_test, fun i s t b hi h => ?_, fun rs sel s => exec_dbg_normal rs sel⟩
  have alike : Alike (fun _ => b) id (exec i s) (exec i (s.recast (fun _ => b) id)) := exec_alike i (.inr hi) (.inr rfl)
  exact alike.next_recast h

/-- Settles O16: in normal mode only the key commands and the stream commands look at the key. -/
theorem keyHiddenInNormalMode : Obligations.KeyHiddenInNormalMode := by
  intro i s t k htest hldk hkclose hencs hdecs h
  have alike : Alike id (fun _ => k) (exec i s) (exec i (s.recast id fun _ => k)) :=
    exec_alike i (.inl rfl) (.inl ⟨htest, hldk, hkclose, hencs, hdecs⟩)
  exact alike.next_recast h

end Sys2Proof.Machine
end

section
/-! PROOFS. Reset and the construction check (spec/70_reset_and_hazards.md R220, R221): what a step makes of an asserted `RESET`,
and what reset leaves in a build that fails the check. -/

namespace Sys2Proof.Machine

/-! ## An asserted reset -/

@[simp] theorem resetWith_resetPin (B : Build) (strap : Bool) (outFail : Option Nat) (cmd : List CmdWord) :
    (State.resetWith B strap outFail cmd).resetPin = false := rfl

/-- An asserted `RESET` comes before the command in progress and the words on the port, on any build
(70_reset_and_hazards.md R220). -/
theorem stepBy_of_reset (B : Build) (run : Instr → State → Result) {s : State} (hr : s.resetPin = true) :
    stepBy B run s = .next (s.resetOn B) := by
  simp [stepBy, fetchOn, hr]

/-- In a build that passes the construction check this step leaves the table of 10_state.md R40 and serves the request. -/
theorem stepBy_reset_atReset {B : Build} (hB : B.bad = false) (run : Instr → State → Result) {s : State}
    (hr : s.resetPin = true) : ∃ t, stepBy B run s = .next t ∧ t.AtReset s.testen ∧ t.resetPin = false :=
  ⟨s.resetOn B, stepBy_of_reset B run hr, resetWith_atReset hB s.testen s.outFail s.cmd, resetWith_resetPin ..⟩

/-! ## The construction check -/

theorem bad_eq_true_iff {B : Build} : B.bad = true ↔ B.nRounds ≤ 0 ∨ B.blockBits ≤ 0 := by
  simp [Build.bad]

@[simp] theorem resetWith_halt (B : Build) (strap : Bool) (outFail : Option Nat) (cmd : List CmdWord) :
    (State.resetWith B strap outFail cmd).status.halt = B.bad := rfl

@[simp] theorem resetWith_fcmd (B : Build) (strap : Bool) (outFail : Option Nat) (cmd : List CmdWord) :
    (State.resetWith B strap outFail cmd).fcmd = 0 := rfl

/-- A build that fails the check shows `E_CONSTRAINT` (60_exceptions.md R201). -/
theorem resetWith_fcode_of_bad {B : Build} (hB : B.bad = true) (strap : Bool) (outFail : Option Nat) (cmd : List CmdWord) :
    (State.resetWith B strap outFail cmd).fcode = 3#3 := by
  simp [State.resetWith, hB, FaultCode.code]

/-! ## The obligations -/

/-- Settles O9: reset of a bad build is a halted engine, which takes no word and stays as it is; reset of a good one, such as
this hardware, is the table. -/
theorem constructionCheck : Obligations.ConstructionCheck := by
  intro B testen outFail cmd t
  refine ⟨fun h => ?_, fun hn hb => ?_, rfl, rfl, rfl, rfl⟩
  · have bad : B.bad = true := bad_eq_true_iff.2 h
    have halted : t.status.halt = true := bad
    exact ⟨resetWith_fcode_of_bad bad testen outFail cmd, halted, resetWith_fcmd B testen outFail cmd,
      fun w => haltIgnoresWords.1 t w (.inl halted),
      fun n => ⟨_, runBy_of_halted B (execOn B) n (resetWith_resetPin B testen outFail cmd) halted⟩⟩
  · have table : t.AtReset testen := resetWith_atReset (bad_eq_false_iff.2 ⟨hn, hb⟩) testen outFail cmd
    exact ⟨table.fault.1, table.status.2⟩

/-- Settles O8: whatever runs the commands, the step serves the reset before it looks at them. -/
theorem resetEndsEverything : Obligations.ResetEndsEverything := fun _ hr =>
  ⟨stepBy_reset_atReset des_bad exec hr,
    fun B hn hb => stepBy_reset_atReset (bad_eq_false_iff.2 ⟨hn, hb⟩) (execOn B) hr⟩

end Sys2Proof.Machine
end
